-- ==== Sys2Proof/Word.lean ====
section
/-! DEFINITION. Word.lean: the plainest types. A byte (IN, OUT, CMD and symbols), a bit-string (rule R13) and a sparse
array of elements addressed by index (rule R60: the element is the unit of every access). -/

namespace Sys2Proof

/-- Eight bits: a symbol, an input byte, an output character, a command word (rules R7, R22, R24, R81). -/
abbrev Byte := BitVec 8

/-- A bit-string, first bit at the head (rule R13): position 0 is the edge leaving the root. -/
abbrev Bits := List Bool

/-- The elements of one space that are listed, by element index. The canonical form is `cellsRising`
(Machine/Ops.lean); what an unlisted index reads as is said where the space is read (Machine/Operands.lean). -/
abbrev Cells (α : Type) := List (Nat × α)

end Sys2Proof
end

