-- ==== Sys2Proof/Config.lean ====
section
/-! DEFINITION. Config.lean: the parameters the spec leaves open (rule R8), the fixed ones (rule R7), the widths that
follow (rule R9), and the free values: constants without a body, of which no proof can know a value. -/

namespace Sys2Proof

/-- `NSYM` of rule R7: the alphabet is the byte alphabet. -/
def nsym : Nat := 256

/-- `NODE_MAX` of rule R7: the node store holds at most 2×256−1 nodes. -/
def nodeMax : Nat := 511

/-- `CODE_MAX` of rule R7: the longest code. -/
def codeMax : Nat := 255

/-- `IDX_W` of rule R9. -/
def idxW : Nat := 9

/-- The level a model takes (rule R10): `command` is Level A, each command one atomic transition; `step` is Level B,
the 12-state machine. -/
inductive Level where
  | command
  | step
  deriving DecidableEq, Repr

/-- The parameters rule R8 leaves open, with the level of rule R10. They are no state of the block: no step writes
them (assumption log 1 and 2). -/
structure Params where
  /-- `FREQ_W`: bits of one frequency count. -/
  freqW : Nat
  /-- `LEN_W`: bits of the length, position and count registers. -/
  lenW : Nat
  /-- `IN_CAP`: elements of the IN space. -/
  inCap : Nat
  /-- `OUT_CAP`: elements of the OUT space. -/
  outCap : Nat
  /-- The level taken. -/
  level : Level
  deriving DecidableEq, Repr

/-- The defaults rule R8 suggests, at Level A, the level that is normative for every result (rule R10).
DESIGN CHOICE, assumption log 1 and 2. -/
def Params.initial : Params where
  freqW := 32
  lenW := 32
  inCap := 65536
  outCap := 1048576
  level := .command

/-- `WEIGHT_W` of rule R9. -/
def Params.weightW (p : Params) : Nat := p.freqW + 8

/-- `TOT_W` of rule R9. -/
def Params.totW (p : Params) : Nat := p.lenW + 8

/-- `NODE_W` of rule R9: the width of a packed node record. -/
def Params.nodeW (p : Params) : Nat := p.weightW + 28

/-- FREE VALUE (assumption log 4): what FREQ[index] holds after the reset event of that number until the host writes
it (U1 of 93_implementation_defined.md). The reader narrows it to `FREQ_W` bits. -/
opaque Config.freqAtReset : Nat → Nat → Nat

/-- FREE VALUE (assumption log 4): what IN[index] holds after the reset event of that number until the host writes it. -/
opaque Config.inAtReset : Nat → Nat → Byte

/-- FREE VALUE (assumption log 4): what OUT[index] holds after the reset event of that number until ENCODE writes it. -/
opaque Config.outAtReset : Nat → Nat → Byte

/-- FREE VALUE (assumption log 5): what the storage behind WORK's live part holds at a position, after the reset event
and the pool reset of those numbers (U3 of 93_implementation_defined.md). -/
opaque Config.workPastEnd : Nat → Nat → Nat → BitVec 9

end Sys2Proof
end

