-- ==== Sys2Proof/Syntax.lean ====
section
/-! DEFINITION. Syntax.lean: the commands (one constructor per row of spec/opcode_table.json), the places a host can
address (rules R60 and R41) and the host operations (rules R100 to R103, R205). -/

namespace Sys2Proof

/-- The five commands of rule R81. A command word carries no operand and no immediate (rule R83). -/
inductive Instr where
  /-- CLEAR, word 0x01 (rule R112). -/
  | clear
  /-- BUILD, word 0x02 (rule R116). -/
  | build
  /-- DERIVE, word 0x03 (rule R144). -/
  | derive
  /-- MEASURE, word 0x04 (rule R166). -/
  | measure
  /-- ENCODE, word 0x05 (rule R165). -/
  | encode
  deriving DecidableEq, Repr

/-- The eight spaces of rule R60, in the order of their numbers. -/
inductive Space where
  | csr
  | freq
  | input
  | out
  | codeLen
  | codeBits
  | node
  | work
  deriving DecidableEq, Repr

/-- The twelve control and status registers of rule R41, in the order of their numbers. -/
inductive Csr where
  | cmd
  | status
  | inLen
  | inPos
  | outCount
  | skipCount
  | totalBits
  | root
  | nodeCount
  | leafCount
  | workN
  | engState
  deriving DecidableEq, Repr

/-- One element of one space: what a legal (space, index) pair names (rules R60, R62, R64). -/
inductive Place where
  | csr (r : Csr)
  | freq (b : Nat)
  | input (i : Nat)
  | out (i : Nat)
  | codeLen (b : Nat)
  | codeBits (b : Nat)
  | node (i : Nat)
  | work (p : Nat)
  deriving DecidableEq, Repr

/-- One host operation. The (space, index) pair and the value are carried as the host gives them (rule R64); whether
they make a legal request is `HostOp.wf`. -/
inductive HostOp where
  /-- `RD SPACE[i]` (rule R100). -/
  | read (space index : Nat)
  /-- `WR SPACE[i], v` (rule R101); a write to CSR register 0 issues a command (rule R102). -/
  | write (space index value : Nat)
  /-- `WAIT` (rule R103): stay until BUSY = 0. -/
  | wait
  /-- The host makes no access while the engine, if it runs, takes one step (the model's own: assumption log 8). -/
  | pass
  /-- `RESET`, the reset event (rules R205, R206). -/
  | reset
  deriving DecidableEq, Repr

end Sys2Proof
end

