-- ==== Sys2Proof/Decode.lean ====
section
/-! DEFINITION. Decode.lean: the command word to a command (rules R81, R82, R102) and back; the (space, index) pair to
the element it names (rules R41, R60, R62), with the number of elements of each space and the width of each element. -/

namespace Sys2Proof

/-- Rule R81: `cmd[7:4]`, which must be 0. -/
def wordZeroField (w : BitVec 8) : BitVec 4 := w.extractLsb' 4 4

/-- Rule R81: `cmd[3:0]`, the opcode. -/
def wordOpcode (w : BitVec 8) : BitVec 4 := w.extractLsb' 0 4

/-- The opcode column of rule R81. -/
def opcodeOf : Instr → BitVec 4
  | .clear => 1
  | .build => 2
  | .derive => 3
  | .measure => 4
  | .encode => 5

/-- The opcode column of rule R81 read backwards; `none` for 0 and for 6 and up (rule R82). -/
def instrOfOpcode (op : BitVec 4) : Option Instr :=
  match op.toNat with
  | 1 => some .clear
  | 2 => some .build
  | 3 => some .derive
  | 4 => some .measure
  | 5 => some .encode
  | _ => none

/-- The decoder, total on every byte: `none` is IllegalCommand (rules R82, R102). -/
def decode (w : BitVec 8) : Option Instr :=
  if wordZeroField w = 0 then instrOfOpcode (wordOpcode w) else none

/-- The encoder, from the layout of rule R81: the zero field above the opcode. -/
def encode (i : Instr) : BitVec 8 := (0#4 ++ opcodeOf i : BitVec 8)

/-- One row of spec/opcode_table.json: a word `w` is the row's command when `w &&& mask = word`. -/
structure CmdRow where
  mask : BitVec 8
  word : BitVec 8
  instr : Instr
  deriving DecidableEq, Repr

/-- spec/opcode_table.json, row by row. -/
def cmdTable : List CmdRow :=
  [ ⟨0xFF, 0x01, .clear⟩,
    ⟨0xFF, 0x02, .build⟩,
    ⟨0xFF, 0x03, .derive⟩,
    ⟨0xFF, 0x04, .measure⟩,
    ⟨0xFF, 0x05, .encode⟩ ]

/-- The command the table gives a word (rule R81: "A decoder matches a word w against a row by w & 0xFF = word"). -/
def tableLookup (w : BitVec 8) : Option Instr :=
  (cmdTable.find? fun row => w &&& row.mask == row.word).map CmdRow.instr

/-- The decoder on a word numbered as spec/opcode_table.json numbers it. Every command is exactly one byte (rule R80),
so a word with a set bit above bit 7 is no command. -/
def decodeTableWord (nbits w : Nat) : Option Instr :=
  let v := w % 2 ^ nbits
  if v < 256 then decode (BitVec.ofNat 8 v) else none

/-- The space numbers of rule R60. -/
def decodeSpace : Nat → Option Space
  | 0 => some .csr
  | 1 => some .freq
  | 2 => some .input
  | 3 => some .out
  | 4 => some .codeLen
  | 5 => some .codeBits
  | 6 => some .node
  | 7 => some .work
  | _ => none

/-- The register numbers of rule R41. -/
def decodeCsr : Nat → Option Csr
  | 0 => some .cmd
  | 1 => some .status
  | 2 => some .inLen
  | 3 => some .inPos
  | 4 => some .outCount
  | 5 => some .skipCount
  | 6 => some .totalBits
  | 7 => some .root
  | 8 => some .nodeCount
  | 9 => some .leafCount
  | 10 => some .workN
  | 11 => some .engState
  | _ => none

/-- The elements column of rule R60. -/
def spaceSize (p : Params) : Space → Nat
  | .csr => 12
  | .freq => 256
  | .input => p.inCap
  | .out => p.outCap
  | .codeLen => 256
  | .codeBits => 256
  | .node => 511
  | .work => 256

/-- The element an index names in a space, where the index is in range (rule R62). -/
def placeIn (sp : Space) (index : Nat) : Option Place :=
  match sp with
  | .csr => (decodeCsr index).map .csr
  | .freq => some (.freq index)
  | .input => some (.input index)
  | .out => some (.out index)
  | .codeLen => some (.codeLen index)
  | .codeBits => some (.codeBits index)
  | .node => some (.node index)
  | .work => some (.work index)

/-- The element a (space, index) pair names; `none` is no legal request (rule R62). -/
def decodePlace (p : Params) (space index : Nat) : Option Place :=
  match decodeSpace space with
  | none => none
  | some sp => if index < spaceSize p sp then placeIn sp index else none

/-- The width column of rule R41. -/
def csrWidth (p : Params) : Csr → Nat
  | .cmd => 8
  | .status => 16
  | .inLen => p.lenW
  | .inPos => p.lenW
  | .outCount => p.lenW
  | .skipCount => p.lenW
  | .totalBits => p.totW
  | .root => idxW
  | .nodeCount => idxW
  | .leafCount => idxW
  | .workN => idxW
  | .engState => 4

/-- The element width column of rule R60. -/
def placeWidth (p : Params) : Place → Nat
  | .csr r => csrWidth p r
  | .freq _ => p.freqW
  | .input _ => 8
  | .out _ => 8
  | .codeLen _ => 8
  | .codeBits _ => 255
  | .node _ => p.nodeW
  | .work _ => 9

end Sys2Proof
end

