-- ==== Sys2Proof/WellFormed.lean ====
section
/-! DEFINITION. WellFormed.lean: which command words, parameters and host operations are legal. A command itself has
no operand (rule R83), so every term of Instr is well formed; the checks are on the word and on the host's requests. -/

namespace Sys2Proof

/-- A legal command word (rules R81, R82): `cmd[7:4]` is 0 and the opcode is 1 to 5. -/
def legalWord (w : BitVec 8) : Bool :=
  wordZeroField w == 0 && decide (1 ≤ (wordOpcode w).toNat) && decide ((wordOpcode w).toNat ≤ 5)

/-- The bounds rule R8 puts on the capacities: `0 .. 2^LEN_W − 1`. -/
def Params.wf (p : Params) : Bool :=
  decide (p.inCap ≤ 2 ^ p.lenW - 1) && decide (p.outCap ≤ 2 ^ p.lenW - 1)

/-- A legal host request (rules R62, R101): the pair names an element, and a written value has the element's width. -/
def HostOp.wf (p : Params) : HostOp → Bool
  | .read space index => (decodePlace p space index).isSome
  | .write space index value =>
    match decodePlace p space index with
    | none => false
    | some pl => decide (value < 2 ^ placeWidth p pl)
  | .wait => true
  | .pass => true
  | .reset => true

end Sys2Proof
end

