-- ==== Sys2Proof/Machine/State.lean ====
section
/-! DEFINITION. State.lean: everything the spec gives the machine (rule R20), as plain data, and its reset values
(rule R44). Counts, positions, weights and node indices are natural numbers (rule R12: all registers hold unsigned
integers, the arithmetic is over the natural numbers and every stored sum fits, rule R9): assumption log 3. -/

namespace Sys2Proof.Machine

/-- A node value, one of three (rule R27). Whether a node is a leaf is decided by the constructor alone (rule R141). -/
inductive Node where
  | free
  | leaf (sym : Byte) (weight : Nat)
  | internal (weight left right : Nat)
  deriving DecidableEq, Repr

/-- The tree state: node store, working pool, root (rules R26, R28 to R31). It is what CLEAR and BUILD write (rule R65). -/
structure Tree where
  /-- `NODE[0 .. 510]` (rule R26); an unlisted element is Free. -/
  nodes : Cells Node
  /-- `NODE_COUNT`, 9 bits (rule R28). -/
  nodeCount : Nat
  /-- `LEAF_COUNT`, 9 bits (rule R29). -/
  leafCount : Nat
  /-- `WORK`, exactly its `WORK_N` live elements (rule R30). -/
  work : List Nat
  /-- `ROOT`, 9 bits (rule R31). -/
  root : Nat
  /-- `ROOT_VALID` (rule R31). -/
  rootValid : Bool
  deriving DecidableEq, Repr

/-- The empty case of rule R42: what a pool reset leaves (rule R111). -/
def Tree.empty : Tree where
  nodes := []
  nodeCount := 0
  leafCount := 0
  work := []
  root := 0
  rootValid := false

/-- The halting errors, and their absence (rule R185). MissingCode has no code: it is SKIP_COUNT and MISSING. -/
inductive Err where
  | none
  | emptyAlphabet
  | bufferExhausted
  | illegalCommand
  | noTree
  | badLength
  deriving DecidableEq, Repr

/-- The twelve states of the engine (rule R36). -/
inductive EngState where
  | idle
  | pClear
  | bSeed
  | bCheck
  | bSort
  | bMerge
  | dClear
  | dRoot
  | dVisit
  | xInit
  | xFetch
  | xEmit
  deriving DecidableEq, Repr

/-- A pair of STACK (rule R39): a right child still to visit and its depth. -/
structure StackEntry where
  node : Nat
  depth : Nat
  deriving DecidableEq, Repr

/-- The hidden engine registers (rules R38 to R40): not readable by the host, used at Level B only. -/
structure Hidden where
  /-- `OP`, 4 bits: the opcode of the running command (rule R38). -/
  op : BitVec 4
  /-- `SCAN`, 9 bits: the byte value the seeding step looks at next (rule R38). -/
  scan : Nat
  /-- `CUR`, 9 bits: the node being visited (rule R39). -/
  cur : Nat
  /-- `DEPTH`, 8 bits (rule R39). -/
  depth : Nat
  /-- `PATH`, 255 bits: bit `k` is `PATH[k]` (rule R39). -/
  path : BitVec 255
  /-- `STACK`, exactly the `SP` pairs held, the most recently pushed first: `STACK[SP−1]` is the head (rule R39). -/
  stack : List StackEntry
  /-- `CSYM`: the input byte whose code is being emitted (rule R40). -/
  csym : Byte
  /-- `BITPOS`, 8 bits: the position of the next bit to emit (rule R40). -/
  bitpos : Nat
  deriving DecidableEq, Repr

/-- The hidden registers after reset. Rule R44 leaves them unspecified: zero is a DESIGN CHOICE, assumption log 6. -/
def Hidden.initial : Hidden where
  op := 0
  scan := 0
  cur := 0
  depth := 0
  path := 0
  stack := []
  csym := 0
  bitpos := 0

/-- The whole state (rule R20), the parameters, and four fields of the model's own at the end. -/
structure State where
  /-- The parameters of rule R8 and the level of rule R10; nothing writes them. -/
  params : Params
  /-- `FREQ[0 .. 255]` as written since reset (rule R21). -/
  freq : Cells Nat
  /-- `IN[0 .. IN_CAP−1]` as written since reset (rule R22). -/
  input : List Host.Cell
  /-- `OUT[0 .. OUT_CAP−1]` as written since reset (rule R24). -/
  out : List Host.Cell
  /-- `CODE[0 .. 255]` (rule R32); an unlisted entry is ε. -/
  codes : Cells Bits
  /-- NODE, NODE_COUNT, LEAF_COUNT, WORK, WORK_N, ROOT, ROOT_VALID. -/
  tree : Tree
  /-- `IN_LEN`, LEN_W bits (rule R23). -/
  inLen : Nat
  /-- `IN_POS`, LEN_W bits (rule R33). -/
  inPos : Nat
  /-- `OUT_COUNT`, LEN_W bits (rule R25). -/
  outCount : Nat
  /-- `SKIP_COUNT`, LEN_W bits (rule R33). -/
  skipCount : Nat
  /-- `TOTAL_BITS`, TOT_W bits (rule R34). -/
  totalBits : Nat
  /-- `STATUS.BUSY` (rule R35). -/
  busy : Bool
  /-- `STATUS.DONE` (rule R35). -/
  done : Bool
  /-- `STATUS.ERR` (rules R35, R185). -/
  err : Err
  /-- `ENG_STATE` (rule R36). -/
  engState : EngState
  /-- The hidden engine registers (rules R38 to R40). -/
  hidden : Hidden
  /-- The model's own: the host operations still to come, the next one first (assumption log 8). -/
  script : List HostOp
  /-- The model's own: the values host reads have returned, the oldest first (assumption log 9). -/
  reads : List Nat
  /-- The model's own counter: how many reset events have happened (assumption log 4). -/
  resets : Nat
  /-- The model's own counter: how many pool resets have happened (assumption log 5). -/
  workEra : Nat
  deriving DecidableEq, Repr

/-- Why the machine stops with a fault. Both are raised in states no run reaches: the spec says these cases do not
happen, and gives them no effect. -/
inductive Fault where
  /-- Raised by DERIVE (at Level A by its traversal, at Level B by D_ROOT and D_VISIT) when the traversal meets a Free
  node or does not end: rule R142, "walk is never called on a Free node". Safe (assumption log 10). -/
  | brokenTree
  /-- Raised by a step of Level B that would touch an element that does not exist (rule R62: the engine never makes
  such an access). Safe (assumption log 11). -/
  | engineOverrun
  deriving DecidableEq, Repr

/-- Why a request has no meaning in the model. -/
inductive Refusal where
  /-- Raised by `exec` for a command that has no meaning yet. Safe. -/
  | notModelled (mnemonic : String)
  /-- Raised by a host read or write whose (space, index) pair names no element (rule R62, U5). Safe (assumption log 12). -/
  | noSuchElement
  /-- Raised by a host write of a value wider than the element (rule R101, U5). Safe (assumption log 12). -/
  | valueTooWide
  /-- Raised by a host access other than a read of STATUS, or a command issue, while BUSY = 1 (rule R71, U6). Safe
  (assumption log 12). -/
  | busyAccess
  deriving DecidableEq, Repr

/-- What a step answers. -/
abbrev Out := Host.Outcome State Fault Refusal

/-- The machine right after reset (rules R44, R205). FREQ, IN and OUT list nothing: their contents are free values
(assumption log 4). The hidden registers are assumption log 6, the parameters 1 and 2. -/
def State.reset : State where
  params := .initial
  freq := []
  input := []
  out := []
  codes := []
  tree := .empty
  inLen := 0
  inPos := 0
  outCount := 0
  skipCount := 0
  totalBits := 0
  busy := false
  done := false
  err := .none
  engState := .idle
  hidden := .initial
  script := []
  reads := []
  resets := 0
  workEra := 0

end Sys2Proof.Machine
end

