-- ==== Sys2Proof/Machine/Ops.lean ====
section
/-! DEFINITION. Ops.lean: the named operations over the spaces and the registers, the end of a command with an error
and without one (rules R191, R192), the refusal and the acceptance at issue (rule R102), and the reset event (R205). -/

namespace Sys2Proof.Machine

/-! ### Sparse spaces -/

/-- The listed element at an index. -/
def cellGet {α : Type} : Cells α → Nat → Option α
  | [], _ => none
  | (j, v) :: rest, i => if j = i then some v else cellGet rest i

/-- Writes one element, keeping the indices rising. -/
def cellSet {α : Type} : Cells α → Nat → α → Cells α
  | [], i, v => [(i, v)]
  | (j, u) :: rest, i, v =>
    if i < j then (i, v) :: (j, u) :: rest
    else if i = j then (i, v) :: rest
    else (j, u) :: cellSet rest i v

/-- Takes one element off the list, so that it reads as an unlisted one. -/
def cellErase {α : Type} : Cells α → Nat → Cells α
  | [], _ => []
  | (j, u) :: rest, i => if j = i then rest else (j, u) :: cellErase rest i

/-- Canonical form, first half: strictly rising indices. -/
abbrev cellsRising {α : Type} (c : Cells α) : Prop := c.Pairwise fun x y => x.1 < y.1

/-- Every listed index is below the number of elements of the space. -/
abbrev cellsBelow {α : Type} (n : Nat) (c : Cells α) : Prop := ∀ x ∈ c, x.1 < n

/-- `NODE[i]` of a node store. An unlisted element is Free (rule R26). -/
def storeNode (nodes : Cells Node) (i : Nat) : Node := (cellGet nodes i).getD .free

/-- `NODE[i] <- n`; writing Free takes the element off the list. -/
def setNode (nodes : Cells Node) (i : Nat) (n : Node) : Cells Node :=
  if n = .free then cellErase nodes i else cellSet nodes i n

/-- `CODE[b]` of a code table. An unlisted entry is ε (rule R32). -/
def storeCode (codes : Cells Bits) (b : Nat) : Bits := (cellGet codes b).getD []

/-- `CODE[b] <- c`; writing ε takes the entry off the list. -/
def setCode (codes : Cells Bits) (b : Nat) (c : Bits) : Cells Bits :=
  if c = [] then cellErase codes b else cellSet codes b c

/-- The canonical form of all the spaces: rising indices inside each space, and no entry equal to what an unlisted
index of that space reads as (Free, ε). In FREQ, IN and OUT an unlisted element holds a free value, so no entry is
equal to it (assumption log 4). -/
abbrev Memory.wf (s : State) : Prop :=
  (cellsRising s.freq ∧ cellsBelow 256 s.freq) ∧
  (cellsRising s.input ∧ cellsBelow s.params.inCap s.input) ∧
  (cellsRising s.out ∧ cellsBelow s.params.outCap s.out) ∧
  (cellsRising s.codes ∧ cellsBelow 256 s.codes ∧ ∀ x ∈ s.codes, x.2 ≠ []) ∧
  (cellsRising s.tree.nodes ∧ cellsBelow 511 s.tree.nodes ∧ ∀ x ∈ s.tree.nodes, x.2 ≠ .free)

/-! ### The end of a command, its issue, the pool reset -/

/-- `finish` (rule R192). -/
def finish (s : State) : State :=
  { s with busy := false, done := true, engState := .idle }

/-- `raise <Error>` (rule R191): this hardware's taking of an exception. No state is saved, no mode changes and control
goes nowhere; there is no handler, so no return (rule R193). -/
def raiseError (e : Err) (s : State) : State :=
  { s with err := e, busy := false, done := true, engState := .idle }

/-- A command refused at issue (rules R102, R189): ERR and DONE, and nothing else. -/
def refuseCommand (e : Err) (s : State) : State :=
  { s with err := e, done := true }

/-- A command accepted at issue (rule R102): `ERR <- 0; DONE <- 0; BUSY <- 1; OP <- op`. -/
def acceptCommand (i : Instr) (s : State) : State :=
  { s with err := .none, done := false, busy := true, hidden := { s.hidden with op := opcodeOf i } }

/-- The error the tests of rule R102 find for a legal word, if any. -/
def issueError (i : Instr) (s : State) : Option Err :=
  match i with
  | .clear => none
  | .build => none
  | .derive => if s.tree.rootValid then none else some .noTree
  | .measure => if s.params.inCap < s.inLen then some .badLength else none
  | .encode => if s.params.inCap < s.inLen then some .badLength else none

/-- The issue of a legal command word (rule R102), at both levels: the tests, then the whole command `body` at Level A,
or the engine set going in `start` at Level B. A command issue while BUSY = 1 is no legal request (rule R71). -/
def issueCommand (i : Instr) (start : EngState) (body : State → Out) (s : State) : Out :=
  if s.busy then .refused .busyAccess
  else
    match issueError i s with
    | some e => .next (refuseCommand e s)
    | none =>
      match s.params.level with
      | .command => body (acceptCommand i s)
      | .step => .next { acceptCommand i s with engState := start }

/-- `pool_reset()` (rule R111). The storage behind WORK's live part takes new free values (assumption log 5). -/
def poolReset (s : State) : State :=
  { s with tree := .empty, workEra := s.workEra + 1 }

/-- The reset event (rules R205, R206): every piece of the block's state to the values of rule R44, with new free
contents in FREQ, IN and OUT. What is not the block's stays: the parameters, the host's script and what it has read
(assumption log 18). -/
def resetEvent (s : State) : State :=
  { State.reset with
    params := s.params
    script := s.script
    reads := s.reads
    resets := s.resets + 1
    workEra := s.workEra + 1 }

/-- `PATH[k] <- b` (rule R152). -/
def setPathBit (path : BitVec 255) (k : Nat) (b : Bool) : BitVec 255 :=
  if b then path ||| (1#255 <<< k) else path &&& ~~~(1#255 <<< k)

end Sys2Proof.Machine
end

