-- ==== Sys2Proof/Machine/Flags.lean ====
section
/-! DEFINITION. Flags.lean: the STATUS register and the numbers of ERR and ENG_STATE (rules R35, R36, R185). -/

namespace Sys2Proof.Machine

/-- The ERR codes of rule R185. -/
def Err.code : Err → BitVec 3
  | .none => 0
  | .emptyAlphabet => 1
  | .bufferExhausted => 2
  | .illegalCommand => 3
  | .noTree => 4
  | .badLength => 5

/-- The ENG_STATE numbers of rule R36. -/
def EngState.code : EngState → BitVec 4
  | .idle => 0
  | .pClear => 1
  | .bSeed => 2
  | .bCheck => 3
  | .bSort => 4
  | .bMerge => 5
  | .dClear => 6
  | .dRoot => 7
  | .dVisit => 8
  | .xInit => 9
  | .xFetch => 10
  | .xEmit => 11

/-- MISSING (rule R35): not a stored bit. -/
def missingFlag (s : State) : Bool := s.skipCount != 0

/-- DEGENERATE (rule R35): not a stored bit. -/
def degenerateFlag (s : State) : Bool := s.tree.rootValid && s.tree.leafCount == 1

/-- The 16-bit STATUS word (rule R35), its fields from bit 15 down to bit 0. -/
def statusWord (s : State) : BitVec 16 :=
  0#8 ++ BitVec.ofBool (degenerateFlag s) ++ BitVec.ofBool s.tree.rootValid ++ BitVec.ofBool (missingFlag s) ++
    s.err.code ++ BitVec.ofBool s.done ++ BitVec.ofBool s.busy

end Sys2Proof.Machine
end

