-- ==== Sys2Proof/Machine/Operands.lean ====
section
/-! DEFINITION. Operands.lean: what each place reads as, for the engine and for the host: the elements of the spaces,
and the packed formats of rules R84, R85 and R87. -/

namespace Sys2Proof.Machine

/-! ### The engine's reads -/

/-- `FREQ[b]` (rule R21). An element the host has not written since reset holds a free value of `FREQ_W` bits (U1). -/
def freqAt (s : State) (b : Nat) : Nat :=
  (cellGet s.freq b).getD (Config.freqAtReset s.resets b % 2 ^ s.params.freqW)

/-- `IN[i]` (rule R22). An element the host has not written since reset holds a free byte (U1). -/
def inputAt (s : State) (i : Nat) : Byte :=
  (cellGet s.input i).getD (Config.inAtReset s.resets i)

/-- `OUT[i]` (rule R24). An element ENCODE has not written since reset holds a free byte (U1). -/
def outAt (s : State) (i : Nat) : Byte :=
  (cellGet s.out i).getD (Config.outAtReset s.resets i)

/-- `CODE[b]` (rule R32). -/
def codeAt (s : State) (b : Nat) : Bits := storeCode s.codes b

/-- `NODE[i]` (rule R26). -/
def nodeAt (t : Tree) (i : Nat) : Node := storeNode t.nodes i

/-- `n.weight` (rules R27, R84): 0 for a Free record. -/
def Node.weight : Node → Nat
  | .free => 0
  | .leaf _ w => w
  | .internal w _ _ => w

/-- `NODE[i].weight`, the key of the stable sort (rule R16). -/
def weightAt (t : Tree) (i : Nat) : Nat := (nodeAt t i).weight

/-- `WORK[p]` (rule R30): past WORK_N a free value of 9 bits (U3). -/
def workAt (s : State) (p : Nat) : Nat :=
  (s.tree.work[p]?).getD (Config.workPastEnd s.resets s.workEra p).toNat

/-! ### Packed formats -/

/-- The output symbol of a bit (rule R87): `0x30 + bit`. -/
def outSymbol (b : Bool) : Byte := if b then 0x31 else 0x30

/-- `kind`, bits 1:0 of a node record (rule R84). -/
def Node.kind : Node → Nat
  | .free => 0
  | .leaf _ _ => 1
  | .internal _ _ _ => 2

/-- `sym`, bits 9:2 of a node record (rule R84): 0 where the variant has none. -/
def Node.sym : Node → Nat
  | .free => 0
  | .leaf sym _ => sym.toNat
  | .internal _ _ _ => 0

/-- `left`, bits 18:10 of a node record (rule R84): 0 where the variant has none. -/
def Node.left : Node → Nat
  | .free => 0
  | .leaf _ _ => 0
  | .internal _ l _ => l

/-- `right`, bits 27:19 of a node record (rule R84): 0 where the variant has none. -/
def Node.right : Node → Nat
  | .free => 0
  | .leaf _ _ => 0
  | .internal _ _ r => r

/-- The packed node record (rule R84). -/
def packNode (n : Node) : Nat :=
  n.kind + n.sym * 2 ^ 2 + n.left * 2 ^ 10 + n.right * 2 ^ 19 + n.weight * 2 ^ 28

/-- The field of a packed record from bit `lo` up, `width` bits wide (rule R12). -/
def recordField (v lo width : Nat) : Nat := v / 2 ^ lo % 2 ^ width

/-- The node value of a packed record (rule R84); `none` for kind 3, which is never produced (X2 of
93_implementation_defined.md). -/
def unpackNode (v : Nat) : Option Node :=
  match recordField v 0 2 with
  | 0 => some .free
  | 1 => some (.leaf (BitVec.ofNat 8 (recordField v 2 8)) (v / 2 ^ 28))
  | 2 => some (.internal (v / 2 ^ 28) (recordField v 10 9) (recordField v 19 9))
  | _ => none

/-- `CODE_BITS` of a bit-string (rule R85): the first bit of the code is bit 0. -/
def codeBits : Bits → Nat
  | [] => 0
  | b :: bs => b.toNat + 2 * codeBits bs

/-- The bit-string of a code-table entry (rule R85). -/
def codeOfEntry : Nat → Nat → Bits
  | 0, _ => []
  | len + 1, bits => (bits % 2 == 1) :: codeOfEntry len (bits / 2)

/-! ### The host's reads -/

/-- What a host read of a CSR register returns (rules R41, R100). -/
def csrRead (s : State) : Csr → Nat
  | .cmd => 0
  | .status => (statusWord s).toNat
  | .inLen => s.inLen
  | .inPos => s.inPos
  | .outCount => s.outCount
  | .skipCount => s.skipCount
  | .totalBits => s.totalBits
  | .root => s.tree.root
  | .nodeCount => s.tree.nodeCount
  | .leafCount => s.tree.leafCount
  | .workN => s.tree.work.length
  | .engState => s.engState.code.toNat

/-- What a host read of a place returns (rule R100). -/
def placeRead (s : State) : Place → Nat
  | .csr r => csrRead s r
  | .freq b => freqAt s b
  | .input i => (inputAt s i).toNat
  | .out i => (outAt s i).toNat
  | .codeLen b => (codeAt s b).length
  | .codeBits b => codeBits (codeAt s b)
  | .node i => packNode (nodeAt s.tree i)
  | .work p => workAt s p

end Sys2Proof.Machine
end

