-- ==== Sys2Proof/Machine/BitEncoder.lean ====
section
/-! DEFINITION. BitEncoder.lean: huffman_bit_encoder (43_bit_encoder.md): MEASURE and ENCODE, and the Level B states
X_INIT, X_FETCH and X_EMIT. -/

namespace Sys2Proof.Machine

/-- A byte without a code is skipped and counted (rules R161, R187), and the input position moves on. -/
def skipByte (s : State) : State :=
  { s with skipCount := s.skipCount + 1, inPos := s.inPos + 1 }

/-- MEASURE's turn for a byte with a code of length `len` (rule R166). -/
def countCode (len : Nat) (s : State) : State :=
  { s with totalBits := s.totalBits + len, inPos := s.inPos + 1 }

/-- `OUT[at + k] <- 0x30 + c[k]` for every position `k` of a code (rule R162). -/
def writeRun (out : List Host.Cell) : Nat → Bits → List Host.Cell
  | _, [] => out
  | at_, b :: bs => writeRun (cellSet out at_ (outSymbol b)) (at_ + 1) bs

/-- ENCODE's turn for a byte with a code that fits (rules R162, R165). -/
def appendCode (c : Bits) (s : State) : State :=
  { s with
    out := writeRun s.out s.outCount c
    outCount := s.outCount + c.length
    inPos := s.inPos + 1 }

/-- The loop of MEASURE (rule R166) over the given number of input bytes. -/
def measureLoop : Nat → State → State
  | 0, s => s
  | n + 1, s =>
    let c := codeAt s (inputAt s s.inPos).toNat
    if c.length = 0 then measureLoop n (skipByte s) else measureLoop n (countCode c.length s)

/-- The loop of ENCODE (rule R165) over the given number of input bytes, to its `finish` or `raise`. The test for a
missing code comes before the capacity test (rule R190). -/
def encodeLoop : Nat → State → State
  | 0, s => finish s
  | n + 1, s =>
    let c := codeAt s (inputAt s s.inPos).toNat
    if c.length = 0 then encodeLoop n (skipByte s)
    else if s.params.outCap < s.outCount + c.length then raiseError .bufferExhausted s
    else encodeLoop n (appendCode c s)

/-- `IN_POS <- 0; SKIP_COUNT <- 0; TOTAL_BITS <- 0` (rule R166). -/
def measureInit (s : State) : State := { s with inPos := 0, skipCount := 0, totalBits := 0 }

/-- `IN_POS <- 0; SKIP_COUNT <- 0; OUT_COUNT <- 0` (rule R165). -/
def encodeInit (s : State) : State := { s with inPos := 0, skipCount := 0, outCount := 0 }

/-- MEASURE after its acceptance (rule R166). -/
def measureBody (s : State) : Out := .next (finish (measureLoop s.inLen (measureInit s)))

/-- ENCODE after its acceptance (rule R165). -/
def encodeBody (s : State) : Out := .next (encodeLoop s.inLen (encodeInit s))

/-- MEASURE (rules R102, R166, R167). -/
def execMeasure (s : State) : Out := issueCommand .measure .xInit measureBody s

/-- ENCODE (rules R102, R164, R165, R167). -/
def execEncode (s : State) : Out := issueCommand .encode .xInit encodeBody s

/-! ### Level B -/

/-- State X_INIT (rule R171). -/
def stepXInit (s : State) : Out :=
  if s.hidden.op = opcodeOf .encode then .next { encodeInit s with engState := .xFetch }
  else .next { measureInit s with engState := .xFetch }

/-- State X_FETCH (rule R172). -/
def stepXFetch (s : State) : Out :=
  if s.inPos = s.inLen then .next (finish s)
  else if s.params.inCap ≤ s.inPos then .fault .engineOverrun
  else
    let sym := inputAt s s.inPos
    let len := (codeAt s sym.toNat).length
    if len = 0 then .next (skipByte s)
    else if s.hidden.op = opcodeOf .measure then .next (countCode len s)
    else if s.params.outCap < s.outCount + len then .next (raiseError .bufferExhausted s)
    else .next { s with hidden := { s.hidden with csym := sym, bitpos := 0 }, engState := .xEmit }

/-- State X_EMIT (rule R173). -/
def stepXEmit (s : State) : Out :=
  let code := codeAt s s.hidden.csym.toNat
  match code[s.hidden.bitpos]? with
  | none => .fault .engineOverrun
  | some b =>
    if s.params.outCap ≤ s.outCount then .fault .engineOverrun
    else
      let s₁ :=
        { s with
          out := cellSet s.out s.outCount (outSymbol b)
          outCount := s.outCount + 1
          hidden := { s.hidden with bitpos := s.hidden.bitpos + 1 } }
      if s₁.hidden.bitpos = code.length then .next { s₁ with inPos := s₁.inPos + 1, engState := .xFetch }
      else .next s₁

end Sys2Proof.Machine
end

