-- ==== Sys2Proof/Machine/CodeDerivator.lean ====
section
/-! DEFINITION. CodeDerivator.lean: huffman_code_table_derivator (42_code_table_derivator.md): DERIVE, and the Level B
states D_CLEAR, D_ROOT and D_VISIT. -/

namespace Sys2Proof.Machine

/-- `walk(i, p)` (rule R142), left subtree first (rule R148), at most the given number of edges deep. `none`: the walk
stands on a Free node or goes deeper than the store has nodes, so it does not end (assumption log 10). -/
def walk (t : Tree) : Nat → Nat → Bits → Cells Bits → Option (Cells Bits)
  | 0, _, _, _ => none
  | fuel + 1, i, p, codes =>
    match nodeAt t i with
    | .free => none
    | .leaf sym _ => some (setCode codes sym.toNat p)
    | .internal _ l r =>
      match walk t fuel l (p ++ [false]) codes with
      | none => none
      | some codes₁ => walk t fuel r (p ++ [true]) codes₁

/-- The 1-bit code of a single-leaf tree (rule R143). -/
def fallbackCode : Bits := [false]

/-- The code table of a tree (rule R144): all entries ε, then the one leaf or the walk from ROOT. -/
def deriveTable (t : Tree) : Option (Cells Bits) :=
  match nodeAt t t.root with
  | .leaf sym _ => some (setCode [] sym.toNat fallbackCode)
  | .free => walk t (nodeMax + 1) t.root [] []
  | .internal _ _ _ => walk t (nodeMax + 1) t.root [] []

/-- DERIVE after its acceptance (rule R144). -/
def deriveBody (s : State) : Out :=
  match deriveTable s.tree with
  | none => .fault .brokenTree
  | some codes => .next (finish { s with codes := codes })

/-- DERIVE (rules R102, R144, R145). -/
def execDerive (s : State) : Out := issueCommand .derive .dClear deriveBody s

/-! ### Level B -/

/-- State D_CLEAR (rule R150). -/
def stepDClear (s : State) : Out := .next { s with codes := [], engState := .dRoot }

/-- State D_ROOT (rule R151). -/
def stepDRoot (s : State) : Out :=
  match nodeAt s.tree s.tree.root with
  | .free => .fault .brokenTree
  | .leaf sym _ => .next (finish { s with codes := setCode s.codes sym.toNat fallbackCode })
  | .internal _ _ _ =>
    .next
      { s with
        hidden := { s.hidden with cur := s.tree.root, depth := 0, stack := [], path := 0 }
        engState := .dVisit }

/-- The bit-string `PATH[0], ..., PATH[depth−1]` (rule R152). -/
def pathCode (path : BitVec 255) (depth : Nat) : Bits := (List.range depth).map path.getLsbD

/-- State D_VISIT (rule R152). -/
def stepDVisit (s : State) : Out :=
  let h := s.hidden
  match nodeAt s.tree h.cur with
  | .free => .fault .brokenTree
  | .leaf sym _ =>
    let s₁ := { s with codes := setCode s.codes sym.toNat (pathCode h.path h.depth) }
    match h.stack with
    | [] => .next (finish s₁)
    | e :: rest =>
      if e.depth = 0 ∨ 255 < e.depth then .fault .engineOverrun
      else
        .next
          { s₁ with
            hidden :=
              { h with
                stack := rest
                cur := e.node
                path := setPathBit h.path (e.depth - 1) true
                depth := e.depth } }
  | .internal _ l r =>
    if 254 < h.stack.length ∨ 254 < h.depth then .fault .engineOverrun
    else
      .next
        { s with
          hidden :=
            { h with
              stack := ⟨r, h.depth + 1⟩ :: h.stack
              path := setPathBit h.path h.depth false
              cur := l
              depth := h.depth + 1 } }

end Sys2Proof.Machine
end

