-- ==== Sys2Proof/Machine/TreeBuilder.lean ====
section
/-! DEFINITION. TreeBuilder.lean: huffman_tree_builder (41_tree_builder.md): CLEAR and BUILD, and the Level B states
P_CLEAR, B_SEED, B_CHECK, B_SORT and B_MERGE. -/

namespace Sys2Proof.Machine

/-- Inserts an index before the first one of greater or equal weight. -/
def insertByWeight (wt : Nat → Nat) (x : Nat) : List Nat → List Nat
  | [] => [x]
  | y :: ys => if wt x ≤ wt y then x :: y :: ys else y :: insertByWeight wt x ys

/-- `stable_sort_by_weight` (rule R16) for the weight function `wt`. The method is not observable (assumption log 15). -/
def stableSort (wt : Nat → Nat) : List Nat → List Nat
  | [] => []
  | x :: xs => insertByWeight wt x (stableSort wt xs)

/-- One turn of `seed()` (rules R113, R125): a leaf for byte value `b` if its count is not zero. -/
def seedByte (b count : Nat) (t : Tree) : Tree :=
  if count = 0 then t
  else
    { t with
      nodes := setNode t.nodes t.nodeCount (.leaf (BitVec.ofNat 8 b) count)
      work := t.work ++ [t.nodeCount]
      nodeCount := t.nodeCount + 1
      leafCount := t.leafCount + 1 }

/-- The first `n` turns of `seed()` (rule R113), byte values `0 .. n−1` in ascending order. -/
def seedUpTo (freq : Nat → Nat) : Nat → Tree → Tree
  | 0, t => t
  | b + 1, t => seedByte b (freq b) (seedUpTo freq b t)

/-- `WORK <- stable_sort_by_weight(WORK)` (rules R114, R127). -/
def sortPool (t : Tree) : Tree := { t with work := stableSort (weightAt t) t.work }

/-- The merge of the first two of WORK (rules R114, R128). With fewer than two there is nothing to merge. -/
def mergeFirstTwo (t : Tree) : Tree :=
  match t.work with
  | a :: b :: rest =>
    { t with
      nodes := setNode t.nodes t.nodeCount (.internal (weightAt t a + weightAt t b) a b)
      work := rest ++ [t.nodeCount]
      nodeCount := t.nodeCount + 1 }
  | _ => t

/-- `merge_once()` (rule R114). -/
def mergeOnce (t : Tree) : Tree := mergeFirstTwo (sortPool t)

/-- `while WORK_N > 1: merge_once()` (rules R115, R116), for at most the given number of turns. Each turn shortens WORK
by one, so WORK_N turns are enough. -/
def mergeWhile : Nat → Tree → Tree
  | 0, t => t
  | n + 1, t => if 1 < t.work.length then mergeWhile n (mergeOnce t) else t

/-- The merge loop of rule R116, whole. -/
def mergeAll (t : Tree) : Tree := mergeWhile t.work.length t

/-- `ROOT <- WORK[0]; ROOT_VALID <- 1` (rule R116). -/
def setRoot (t : Tree) : Tree := { t with root := t.work.headD 0, rootValid := true }

/-- CLEAR after its acceptance (rule R112). -/
def clearBody (s : State) : Out := .next (finish (poolReset s))

/-- BUILD after its acceptance (rule R116). -/
def buildBody (s : State) : Out :=
  let s₁ := poolReset s
  let s₂ := { s₁ with tree := seedUpTo (freqAt s₁) 256 s₁.tree }
  if s₂.tree.work.length = 0 then .next (raiseError .emptyAlphabet s₂)
  else .next (finish { s₂ with tree := setRoot (mergeAll s₂.tree) })

/-- CLEAR (rules R102, R112). -/
def execClear (s : State) : Out := issueCommand .clear .pClear clearBody s

/-- BUILD (rules R102, R116 to R118). -/
def execBuild (s : State) : Out := issueCommand .build .pClear buildBody s

/-! ### Level B -/

/-- State P_CLEAR (rule R124). -/
def stepPClear (s : State) : Out :=
  let s₁ := poolReset s
  let s₂ := { s₁ with hidden := { s₁.hidden with scan := 0 } }
  if s₂.hidden.op = opcodeOf .clear then .next (finish s₂)
  else .next { s₂ with engState := .bSeed }

/-- State B_SEED (rule R125). -/
def stepBSeed (s : State) : Out :=
  let b := s.hidden.scan
  if 255 < b ∨ 510 < s.tree.nodeCount ∨ 255 < s.tree.work.length then .fault .engineOverrun
  else
    let s₁ := { s with tree := seedByte b (freqAt s b) s.tree, hidden := { s.hidden with scan := b + 1 } }
    if b = 255 then .next { s₁ with engState := .bCheck } else .next s₁

/-- State B_CHECK (rule R126). -/
def stepBCheck (s : State) : Out :=
  if s.tree.work.length = 0 then .next (raiseError .emptyAlphabet s)
  else if s.tree.work.length = 1 then .next (finish { s with tree := setRoot s.tree })
  else .next { s with engState := .bSort }

/-- State B_SORT (rule R127). -/
def stepBSort (s : State) : Out :=
  .next { s with tree := sortPool s.tree, engState := .bMerge }

/-- State B_MERGE (rule R128). -/
def stepBMerge (s : State) : Out :=
  if s.tree.work.length < 2 ∨ 510 < s.tree.nodeCount then .fault .engineOverrun
  else .next { s with tree := mergeFirstTwo s.tree, engState := .bCheck }

end Sys2Proof.Machine
end

