-- ==== Sys2Proof/Machine/Engine.lean ====
section
/-! DEFINITION. Engine.lean: one step of the engine at Level B (the transition relation of rule R105). -/

namespace Sys2Proof.Machine

/-- One step of the engine, by ENG_STATE (rule R105). In IDLE the engine does nothing. -/
def engineStep (s : State) : Out :=
  match s.engState with
  | .idle => .next s
  | .pClear => stepPClear s
  | .bSeed => stepBSeed s
  | .bCheck => stepBCheck s
  | .bSort => stepBSort s
  | .bMerge => stepBMerge s
  | .dClear => stepDClear s
  | .dRoot => stepDRoot s
  | .dVisit => stepDVisit s
  | .xInit => stepXInit s
  | .xFetch => stepXFetch s
  | .xEmit => stepXEmit s

end Sys2Proof.Machine
end

