-- ==== Sys2Proof/Machine/HostAccess.lean ====
section
/-! DEFINITION. HostAccess.lean: the host operations (40_host_access.md): read, write, command issue, WAIT, the reset
event, and the turn of the machine that takes the next of them. -/

namespace Sys2Proof.Machine

/-- Command issue (rule R102): the host write of the word `w` to CSR register 0. A word that is no command is
IllegalCommand, the first of the tests; the others stand in `issueCommand`. -/
def issueWord (w : BitVec 8) (s : State) : Out :=
  if s.busy then .refused .busyAccess
  else
    match decode w with
    | none => .next (refuseCommand .illegalCommand s)
    | some i => exec i s

/-- HRD (rules R62, R71, R100): the value is appended to `reads` (assumption log 9); nothing else changes. -/
def hostRead (space index : Nat) (s : State) : Out :=
  match decodePlace s.params space index with
  | none => .refused .noSuchElement
  | some pl =>
    if s.busy ∧ pl ≠ .csr .status then .refused .busyAccess
    else .next { s with reads := s.reads ++ [placeRead s pl] }

/-- The effect of a host write on a place that is not CMD (rules R70, R101): a read-only place ignores it. -/
def writePlace (pl : Place) (v : Nat) (s : State) : State :=
  match pl with
  | .csr r => if r = .inLen then { s with inLen := v } else s
  | .freq b => { s with freq := cellSet s.freq b v }
  | .input i => { s with input := cellSet s.input i (BitVec.ofNat 8 v) }
  | .out _ => s
  | .codeLen _ => s
  | .codeBits _ => s
  | .node _ => s
  | .work _ => s

/-- HWR (rules R62, R71, R101). -/
def hostWrite (space index v : Nat) (s : State) : Out :=
  match decodePlace s.params space index with
  | none => .refused .noSuchElement
  | some pl =>
    if 2 ^ placeWidth s.params pl ≤ v then .refused .valueTooWide
    else if s.busy then .refused .busyAccess
    else if pl = .csr .cmd then issueWord (BitVec.ofNat 8 v) s
    else .next (writePlace pl v s)

/-- The host's next operation, `rest` being what it does after it. While BUSY = 1 a WAIT stays in the script and the
engine takes one step (rule R103, assumption log 19); a pass lets it take one step (assumption log 8). -/
def hostTurn (op : HostOp) (rest : List HostOp) (s : State) : Out :=
  match op with
  | .read space index => hostRead space index { s with script := rest }
  | .write space index v => hostWrite space index v { s with script := rest }
  | .wait => if s.busy then engineStep s else .next { s with script := rest }
  | .pass => engineStep { s with script := rest }
  | .reset => .next (resetEvent { s with script := rest })

/-- One turn of the machine: the host's next operation; with none left, a step of the engine, which in IDLE changes
nothing (assumption log 8). -/
def turn (s : State) : Out :=
  match s.script with
  | [] => engineStep s
  | op :: rest => hostTurn op rest s

end Sys2Proof.Machine
end

