-- ==== Sys2Proof/Machine/HostScript.lean ====
section
/-! DEFINITION. HostScript.lean: the host-script notation (rules R90, R91) as lists of host operations. -/

namespace Sys2Proof.Machine

/-- `CMD 0xNN` (rule R90): the write of the word to CSR register 0, followed by WAIT, which does nothing at Level A. -/
def scriptWord (w : Nat) : List HostOp := [.write 0 0 w, .wait]

/-- `CMD mnemonic` (rule R90). -/
def scriptCmd (i : Instr) : List HostOp := scriptWord (encode i).toNat

/-- `LOADF {...}` (rule R91): all 256 counts in ascending order, 0 for a byte value not listed. -/
def scriptLoadF (counts : List (Nat × Nat)) : List HostOp :=
  (List.range 256).map fun b => .write 1 b ((counts.lookup b).getD 0)

/-- `LOADIN [...]` (rule R91): the bytes in order, then IN_LEN. -/
def scriptLoadIn (bytes : List Nat) : List HostOp :=
  bytes.zipIdx.map (fun x => .write 2 x.2 x.1) ++ [.write 0 2 bytes.length]

/-- `COMPRESS` (rule R91). -/
def scriptCompress : List HostOp := scriptCmd .build ++ scriptCmd .derive ++ scriptCmd .encode

end Sys2Proof.Machine
end

