-- ==== Sys2Proof/Machine/Step.lean ====
section
/-! DEFINITION. Step.lean: one step of the machine, and where the next command comes from. -/

namespace Sys2Proof.Machine

/-- One step: the host's next operation, or one step of the engine (`turn`, Machine/HostAccess.lean). -/
def step (s : State) : Host.Outcome State Fault Refusal := turn s

/-- The state in which the host's very next operation is the issue of the command word `w` (rules R81, R102): that is
how a command comes to the engine, which fetches nothing (rule R68). Assumption log 8. -/
def State.withFetchWord (s : State) (nbits w : Nat) : State :=
  { s with script := .write 0 0 (w % 2 ^ nbits) :: s.script }

end Sys2Proof.Machine
end

