-- ==== Sys2Proof/Safety.lean ====
section
/-! DEFINITION. Safety.lean: the terms the claims use: the invariants of rule R42 and of the registers, what a prefix
code is, where a path leads, what an encoding should be, the transition table of rule R105, runs. -/

namespace Sys2Proof.Machine

/-! ### The tree (rule R42) -/

/-- Node `c` is a child of the internal node `i`. -/
def childOf (t : Tree) (c i : Nat) : Prop :=
  ∃ w l r, nodeAt t i = .internal w l r ∧ (c = l ∨ c = r)

/-- Case tree of rule R42, but for the clauses that speak of FREQ as it was when BUILD ran. -/
structure TreeCase (t : Tree) : Prop where
  rootValid : t.rootValid = true
  leaves : 1 ≤ t.leafCount ∧ t.leafCount ≤ 256
  nodeCount : t.nodeCount = 2 * t.leafCount - 1
  root : t.root = 2 * t.leafCount - 2
  work : t.work = [t.root]
  leafNodes : ∀ i, i < t.leafCount → ∃ sym w, nodeAt t i = .leaf sym w ∧ w ≠ 0
  symbolsRise : ∀ i j, i < j → j < t.leafCount → (nodeAt t i).sym < (nodeAt t j).sym
  internalNodes : ∀ i, t.leafCount ≤ i → i < t.nodeCount →
    ∃ l r, nodeAt t i = .internal (weightAt t l + weightAt t r) l r ∧ l < i ∧ r < i ∧ l ≠ r
  freeNodes : ∀ i, t.nodeCount ≤ i → nodeAt t i = .free
  oneParent : ∀ c, c + 1 < t.nodeCount → ∃ i, childOf t c i ∧ ∀ j, childOf t c j → j = i
  rootNoParent : ∀ i, ¬ childOf t t.root i

/-- The two cases of rule R42. -/
def TreeInv (t : Tree) : Prop := t = Tree.empty ∨ TreeCase t

/-! ### Codes -/

/-- The node reached from node `i` by the edges of a bit-string (rule R13): 0 goes left, 1 goes right. -/
def descend (t : Tree) : Nat → Bits → Option Nat
  | i, [] => some i
  | i, b :: bs =>
    match nodeAt t i with
    | .free => none
    | .leaf _ _ => none
    | .internal _ l r => descend t (if b then r else l) bs

/-- The bit-string `c` leads from ROOT to the leaf of byte value `b`. -/
def pathToLeaf (t : Tree) (b : Nat) (c : Bits) : Prop :=
  ∃ i sym w, descend t t.root c = some i ∧ nodeAt t i = .leaf sym w ∧ sym.toNat = b

/-- No code is a beginning of another code, among the byte values that have one (rule R147). -/
def PrefixCode (codes : Cells Bits) : Prop :=
  ∀ a b, a ≠ b → storeCode codes a ≠ [] → storeCode codes b ≠ [] → ¬ storeCode codes a <+: storeCode codes b

/-- The sum of `2^(255 − len)` over the codes that are not empty (rule R147, times `2^255`). -/
def kraftSum (codes : Cells Bits) : Nat :=
  ((List.range 256).map fun b =>
    if storeCode codes b = [] then 0 else 2 ^ (255 - (storeCode codes b).length)).sum

/-! ### Encodings -/

/-- The five fields of a packed node record by their bits (rule R84): kind, sym, left, right, weight. -/
def recordFields (v : Nat) : Nat × Nat × Nat × Nat × Nat :=
  (recordField v 0 2, recordField v 2 8, recordField v 10 9, recordField v 19 9, v / 2 ^ 28)

/-- The code of the input byte at a position. -/
def codeOfInput (s : State) (i : Nat) : Bits := codeAt s (inputAt s i).toNat

/-- The sum of the code lengths of the first `k` input bytes (rule R34). -/
def bitsOfFirst (s : State) (k : Nat) : Nat := ((List.range k).map fun i => (codeOfInput s i).length).sum

/-- How many of the first `k` input bytes have no code (rule R33). -/
def missingInFirst (s : State) (k : Nat) : Nat := (List.range k).countP fun i => (codeOfInput s i).isEmpty

/-- The codes of the first `k` input bytes, one behind the other (rule R169). -/
def textOfFirst (s : State) (k : Nat) : Bits := (List.range k).flatMap (codeOfInput s)

/-- The sum of all 256 counts. -/
def freqTotal (s : State) : Nat := ((List.range 256).map (freqAt s)).sum

/-- The number of byte values with a non-zero count. -/
def freqSymbols (s : State) : Nat := (List.range 256).countP fun b => freqAt s b != 0

/-- `FREQ[b]` is the number of input bytes equal to `b`, for every `b` (rule R168). -/
def FreqIsHistogram (s : State) : Prop :=
  ∀ b, b < 256 → freqAt s b = (List.range s.inLen).countP fun i => (inputAt s i).toNat == b

/-! ### Invariants -/

/-- What holds at Level A between any two steps: the engine is idle, the tree is in one of its two cases (rule R42),
every register and element fits its width (rules R8, R9, R41), the spaces are in canonical form, the code table is a
prefix code of codes of at most 255 bits (rules R146, R147), the counts are in their bounds (rules R25, R33, R34) and
the meaningful part of OUT holds symbols (rule R87). -/
structure Inv (s : State) : Prop where
  params : s.params.wf = true
  memory : Memory.wf s
  idle : s.busy = false ∧ s.engState = .idle
  freqFits : ∀ x ∈ s.freq, x.2 < 2 ^ s.params.freqW
  inLenFits : s.inLen < 2 ^ s.params.lenW
  tree : TreeInv s.tree
  weightsFit : ∀ i, weightAt s.tree i < 2 ^ s.params.weightW
  codesShort : ∀ b, (codeAt s b).length ≤ 255
  codesPrefixFree : PrefixCode s.codes
  skipCount : s.skipCount ≤ s.inPos
  inPos : s.inPos ≤ s.params.inCap
  outCount : s.outCount ≤ s.params.outCap
  totalBits : s.totalBits ≤ s.params.inCap * 255
  outSymbols : ∀ i, i < s.outCount → cellGet s.out i = some 0x30 ∨ cellGet s.out i = some 0x31

/-- BUSY, DONE, ERR and ENG_STATE at both levels (rules R35, R36): BUSY = 1 exactly when the engine is not idle, and
while it is, DONE and ERR read 0; at Level A the engine is idle. -/
def StatusInv (s : State) : Prop :=
  (s.busy = true ↔ s.engState ≠ .idle) ∧
  (s.busy = true → s.done = false ∧ s.err = .none) ∧
  (s.params.level = .command → s.engState = .idle)

/-- The invariant a command meets at its issue: no command is running. -/
def Ready (lv : Level) (s : State) : Prop := s.busy = false ∧ s.params.level = lv

/-! ### Level B -/

/-- The next ENG_STATE by the table of rule R105. -/
def transitionTable (s : State) : EngState :=
  match s.engState with
  | .idle => .idle
  | .pClear => if s.hidden.op = 1 then .idle else .bSeed
  | .bSeed => if s.hidden.scan < 255 then .bSeed else .bCheck
  | .bCheck => if 2 ≤ s.tree.work.length then .bSort else .idle
  | .bSort => .bMerge
  | .bMerge => .bCheck
  | .dClear => .dRoot
  | .dRoot => if (nodeAt s.tree s.tree.root).kind = 1 then .idle else .dVisit
  | .dVisit => if (nodeAt s.tree s.hidden.cur).kind = 1 ∧ s.hidden.stack.length = 0 then .idle else .dVisit
  | .xInit => .xFetch
  | .xFetch =>
    if s.inPos = s.inLen then .idle
    else if codeOfInput s s.inPos = [] ∨ s.hidden.op = 4 then .xFetch
    else if s.params.outCap < s.outCount + (codeOfInput s s.inPos).length then .idle
    else .xEmit
  | .xEmit => if s.hidden.bitpos + 1 < (codeAt s s.hidden.csym.toNat).length then .xEmit else .xFetch

/-- `s` with the level changed. -/
def atLevel (lv : Level) (s : State) : State := { s with params := { s.params with level := lv } }

/-- The Level B state `t` is the Level A state `u` in everything but the hidden registers (and the level itself). -/
def SameButHidden (t u : State) : Prop := t = { atLevel .step u with hidden := t.hidden }

/-- The given number of steps, stopping at the first fault or refusal. -/
def runFor : Nat → State → Out
  | 0, s => .next s
  | k + 1, s =>
    match step s with
    | .next t => runFor k t
    | .fault f => .fault f
    | .refused r => .refused r

/-- From `s`, whose first step issues a command, exactly `n` steps lead to `t`, where the command has ended: BUSY = 0
after them, and BUSY = 1 after every smaller number of steps from 1 up (rules R10, R130, R153, R175: the issue counts as
one step). -/
def TakesSteps (n : Nat) (s t : State) : Prop :=
  runFor n s = .next t ∧ t.busy = false ∧ ∀ k, 1 ≤ k → k < n → ∃ m, runFor k s = .next m ∧ m.busy = true

/-- What every accepted command leaves in the registers all commands write (rules R102, R191, R192). -/
def ended (i : Instr) (e : Err) (s : State) : State :=
  { s with err := e, busy := false, done := true, engState := .idle, hidden := { s.hidden with op := opcodeOf i } }

/-- The ENG_STATE an accepted command starts in at Level B (rule R102). -/
def startState : Instr → EngState
  | .clear => .pClear
  | .build => .pClear
  | .derive => .dClear
  | .measure => .xInit
  | .encode => .xInit

/-- The places a command that has run may have written (rule R65), `t` being the state it left. -/
def mayWrite (i : Instr) (t : State) : Place → Bool
  | .csr .status => true
  | .csr .root => i = .clear || i = .build
  | .csr .nodeCount => i = .clear || i = .build
  | .csr .leafCount => i = .clear || i = .build
  | .csr .workN => i = .clear || i = .build
  | .csr .inPos => i = .measure || i = .encode
  | .csr .skipCount => i = .measure || i = .encode
  | .csr .totalBits => i = .measure
  | .csr .outCount => i = .encode
  | .csr .cmd => false
  | .csr .inLen => false
  | .csr .engState => false
  | .freq _ => false
  | .input _ => false
  | .out k => i = .encode && decide (k < t.outCount)
  | .codeLen _ => i = .derive
  | .codeBits _ => i = .derive
  | .node _ => i = .clear || i = .build
  | .work _ => i = .clear || i = .build

/-- A place a host write leaves alone (rule R70). -/
def readOnly : Place → Bool
  | .csr .cmd => false
  | .csr .inLen => false
  | .csr _ => true
  | .freq _ => false
  | .input _ => false
  | .out _ => true
  | .codeLen _ => true
  | .codeBits _ => true
  | .node _ => true
  | .work _ => true

/-- The outcome with the hidden registers blanked out. -/
def hideRegisters : Out → Out
  | .next t => .next { t with hidden := .initial }
  | .fault f => .fault f
  | .refused r => .refused r

/-- The state in which the host's one remaining operation is the issue of a command (rule R102). -/
def withIssue (i : Instr) (s : State) : State := { s with script := [.write 0 0 (encode i).toNat] }

end Sys2Proof.Machine
end

