-- ==== Sys2Proof/Certificates/Slice0/Obligations.lean ====
section
/-! DEFINITION. Obligations.lean: the statements about the machine. Each docstring names the rules of spec/ it formalises. -/

open Sys2Proof Sys2Proof.Machine

/-! ### Reset, encodings, issue -/

/-- Rule R44: what the host reads after reset. FREQ, IN, OUT and WORK past WORK_N are left open there (assumption log 4
and 5) and are not spoken of. -/
def Obligations.ResetReadsAsTheTable : Prop :=
  (∀ r, placeRead State.reset (.csr r) = 0) ∧
  (∀ i, placeRead State.reset (.node i) = 0) ∧
  (∀ b, placeRead State.reset (.codeLen b) = 0 ∧ placeRead State.reset (.codeBits b) = 0)

/-- The invariants hold after reset. -/
def Obligations.ResetMeetsTheInvariants : Prop := Inv State.reset ∧ StatusInv State.reset

/-- Rules R205, R206: a reset event, at any time, also during a command, leaves the values of rule R44 whatever the state
was; the memories take new free contents (assumption log 4 and 5) and the hidden registers are 0 (log 6). What is not the
block's stays: parameters, script, reads (log 18). The last three clauses are the model's choice. -/
def Obligations.ResetEventAtAnyTime : Prop :=
  ∀ (s : State) (rest : List HostOp),
    step { s with script := .reset :: rest } =
      .next
        { State.reset with
          params := s.params
          script := rest
          reads := s.reads
          resets := s.resets + 1
          workEra := s.workEra + 1 }

/-- Rule R81: the five words of the command table, written out bit by bit. -/
def Obligations.TableWordsDecode : Prop :=
  decode 0b00000001#8 = some .clear ∧ decode 0b00000010#8 = some .build ∧ decode 0b00000011#8 = some .derive ∧
  decode 0b00000100#8 = some .measure ∧ decode 0b00000101#8 = some .encode

/-- Rules R81, R82: decode and encode agree in both directions, and the decoder is the table's mask-and-match. -/
def Obligations.DecodeAndEncodeAgree : Prop :=
  (∀ i : Instr, decode (encode i) = some i) ∧
  (∀ (w : BitVec 8) (i : Instr), decode w = some i ↔ w = encode i) ∧
  (∀ w : BitVec 8, decode w = tableLookup w ∧ ((decode w).isSome ↔ legalWord w = true))

/-- Rule R82: every word other than 0x01 to 0x05 raises IllegalCommand and changes nothing else; the script is the
model's form of the host (assumption log 8). -/
def Obligations.IllegalWordIsReported : Prop :=
  ∀ (s : State) (w : Nat) (rest : List HostOp), s.busy = false → w < 256 → (w = 0 ∨ 5 < w) →
    step { s with script := .write 0 0 w :: rest } =
      .next { s with script := rest, err := .illegalCommand, done := true }

/-- Rules R101, R102: the host's write of a command's word to CSR register 0 is `exec` of that command, at both levels. The
script is the model's form of the host (assumption log 8). -/
def Obligations.StepRunsTheDecodedCommand : Prop :=
  ∀ (s : State) (w : Nat) (i : Instr) (rest : List HostOp), s.busy = false → w < 256 →
    decode (BitVec.ofNat 8 w) = some i →
    step { s with script := .write 0 0 w :: rest } = exec i { s with script := rest }

/-- Rule R145: a DERIVE issued while ROOT_VALID = 0 is refused, and the code table is left exactly as it was. -/
def Obligations.DeriveWithoutTreeIsRefused : Prop :=
  ∀ s : State, s.busy = false → s.tree.rootValid = false →
    exec .derive s = .next { s with err := .noTree, done := true }

/-- Rule R167: a MEASURE or ENCODE issued while IN_LEN > IN_CAP is refused, and nothing else changes. -/
def Obligations.TooLongInputIsRefused : Prop :=
  ∀ (s : State) (i : Instr), s.busy = false → (i = .measure ∨ i = .encode) → s.params.inCap < s.inLen →
    exec i s = .next { s with err := .badLength, done := true }

/-- Rules R191, R192: `raise` and `finish`. -/
def Obligations.RaiseAndFinishEndACommand : Prop :=
  ∀ (s : State) (e : Err),
    raiseError e s = { s with err := e, busy := false, done := true, engState := .idle } ∧
    finish s = { s with busy := false, done := true, engState := .idle }

/-! ### Host access -/

/-- Rules R63, R100: a legal read returns the element and changes nothing (the value goes to `reads`, assumption log 9);
and, register by register of rule R41 and space by space of rule R60, what that element holds (WORK past WORK_N is left
open, U3). -/
def Obligations.HostReadReturnsTheElement : Prop :=
  (∀ (s : State) (space index : Nat) (pl : Place) (rest : List HostOp), s.busy = false →
    decodePlace s.params space index = some pl →
    step { s with script := .read space index :: rest } =
      .next { s with script := rest, reads := s.reads ++ [placeRead s pl] }) ∧
  (∀ s : State,
    ((List.range 12).map fun register => (decodePlace s.params 0 register).map (placeRead s)) =
      [some 0, some (statusWord s).toNat, some s.inLen, some s.inPos, some s.outCount, some s.skipCount,
        some s.totalBits, some s.tree.root, some s.tree.nodeCount, some s.tree.leafCount,
        some s.tree.work.length, some s.engState.code.toNat]) ∧
  (∀ (s : State) (i : Nat),
    (i < 256 → (decodePlace s.params 1 i).map (placeRead s) = some (freqAt s i)) ∧
    (i < s.params.inCap → (decodePlace s.params 2 i).map (placeRead s) = some (inputAt s i).toNat) ∧
    (i < s.params.outCap → (decodePlace s.params 3 i).map (placeRead s) = some (outAt s i).toNat) ∧
    (i < 256 → (decodePlace s.params 4 i).map (placeRead s) = some (codeAt s i).length) ∧
    (i < 256 → (decodePlace s.params 5 i).map (placeRead s) = some (codeBits (codeAt s i))) ∧
    (i < 511 → (decodePlace s.params 6 i).map (placeRead s) = some (packNode (nodeAt s.tree i))) ∧
    (∀ n, i < 256 → s.tree.work[i]? = some n → (decodePlace s.params 7 i).map (placeRead s) = some n))

/-- Rules R101, R211, R212: a legal write of FREQ, IN or IN_LEN stores the value, and every other place reads as before. -/
def Obligations.HostWriteThenRead : Prop :=
  ∀ (s : State) (space index v : Nat) (pl : Place) (rest : List HostOp), s.busy = false →
    decodePlace s.params space index = some pl → pl ≠ .csr .cmd → readOnly pl = false →
    v < 2 ^ placeWidth s.params pl →
    ∃ t, step { s with script := .write space index v :: rest } = .next t ∧
      placeRead t pl = v ∧ (∀ q, q ≠ pl → placeRead t q = placeRead s q) ∧
      t = { s with script := rest, freq := t.freq, input := t.input, inLen := t.inLen }

/-- Rule R70: a write to a read-only place is ignored (the script is the model's form of the host, assumption log 8). -/
def Obligations.ReadOnlyWriteIsIgnored : Prop :=
  ∀ (s : State) (space index v : Nat) (pl : Place) (rest : List HostOp), s.busy = false →
    decodePlace s.params space index = some pl → readOnly pl = true → v < 2 ^ placeWidth s.params pl →
    step { s with script := .write space index v :: rest } = .next { s with script := rest }

/-- Rules R60, R62, R101 (U5): a request that names no element, or carries a value wider than the element, is refused,
and those are the pairs with a space number above 7 or an index not below the size of the space. The sizes are those of
the elements column of rule R60, the widths those of rules R41 and R60.
The names of the refusals and the order of the tests are the model's choice (assumption log 12). -/
def Obligations.IllegalRequestIsRefused : Prop :=
  ∀ (s : State) (space index v : Nat) (rest : List HostOp),
    (decodePlace s.params space index = none ↔
      7 < space ∨ ∃ sp, decodeSpace space = some sp ∧ spaceSize s.params sp ≤ index) ∧
    (decodePlace s.params space index = none →
      step { s with script := .read space index :: rest } = .refused .noSuchElement ∧
      step { s with script := .write space index v :: rest } = .refused .noSuchElement) ∧
    (∀ pl, decodePlace s.params space index = some pl → 2 ^ placeWidth s.params pl ≤ v →
      step { s with script := .write space index v :: rest } = .refused .valueTooWide) ∧
    (decodePlace s.params space index ≠ none ↔
      (space = 0 ∧ index < 12) ∨ (space = 1 ∧ index < 256) ∨ (space = 2 ∧ index < s.params.inCap) ∨
        (space = 3 ∧ index < s.params.outCap) ∨ (space = 4 ∧ index < 256) ∨ (space = 5 ∧ index < 256) ∨
        (space = 6 ∧ index < 511) ∨ (space = 7 ∧ index < 256)) ∧
    ((List.range 12).map fun register => (decodePlace s.params 0 register).map (placeWidth s.params)) =
      [some 8, some 16, some s.params.lenW, some s.params.lenW, some s.params.lenW, some s.params.lenW,
        some (s.params.lenW + 8), some 9, some 9, some 9, some 9, some 4] ∧
    (∀ pl, decodePlace s.params space index = some pl → space ≠ 0 →
      some (placeWidth s.params pl) =
        [s.params.freqW, 8, 8, 8, 255, s.params.freqW + 8 + 28, 9][space - 1]?)

/-- Rule R71 (U6): while BUSY = 1 a read of STATUS is answered, and returns BUSY 1, DONE 0, ERR 0 and the current other
bits; every other legal read, every legal write and every command issue is refused (the refusal's name is the model's,
assumption log 12). -/
def Obligations.BusyAllowsOnlyStatusReads : Prop :=
  ∀ (s : State) (space index v : Nat) (pl : Place) (i : Instr) (rest : List HostOp), s.busy = true → StatusInv s →
    decodePlace s.params space index = some pl →
    (step { s with script := .read 0 1 :: rest } =
        .next { s with script := rest, reads := s.reads ++ [(statusWord s).toNat] } ∧
      (statusWord s).extractLsb' 0 5 = 1#5) ∧
    (pl ≠ .csr .status → step { s with script := .read space index :: rest } = .refused .busyAccess) ∧
    (v < 2 ^ placeWidth s.params pl →
      step { s with script := .write space index v :: rest } = .refused .busyAccess) ∧
    exec i s = .refused .busyAccess

/-- Rule R103: WAIT does nothing when no command runs; while one runs it stays pending and the engine goes on. That
it stands in the script and takes no reads of its own is the model's form (assumption log 19). -/
def Obligations.WaitStaysUntilNotBusy : Prop :=
  ∀ (s : State) (rest : List HostOp), s.script = .wait :: rest →
    (s.busy = false → step s = .next { s with script := rest }) ∧
    (s.busy = true → step s = engineStep s ∧ ∀ t, step s = .next t → t.script = s.script)

/-- Rules R90, R91: LOADF writes all 256 counts, the unlisted ones 0; LOADIN writes the bytes and IN_LEN, and
leaves every element of IN behind them as it was. One step of the model for each write (assumption log 8). -/
def Obligations.LoadScriptsWriteTheTables : Prop :=
  (∀ (s : State) (counts : List (Nat × Nat)) (rest : List HostOp), s.busy = false →
    (∀ x ∈ counts, x.2 < 2 ^ s.params.freqW) →
    ∃ t, runFor 256 { s with script := scriptLoadF counts ++ rest } = .next t ∧
      t = { s with script := rest, freq := t.freq } ∧
      ∀ b, b < 256 → freqAt t b = (counts.lookup b).getD 0) ∧
  (∀ (s : State) (bytes : List Nat) (rest : List HostOp), s.busy = false → (∀ v ∈ bytes, v < 256) →
    bytes.length ≤ s.params.inCap → bytes.length < 2 ^ s.params.lenW →
    ∃ t, runFor (bytes.length + 1) { s with script := scriptLoadIn bytes ++ rest } = .next t ∧
      t = { s with script := rest, input := t.input, inLen := bytes.length } ∧
      (∀ i v, bytes[i]? = some v → (inputAt t i).toNat = v) ∧
      ∀ i, bytes.length ≤ i → inputAt t i = inputAt s i)

/-! ### Flags and packed formats -/

/-- Rule R35: the fields of STATUS; MISSING and DEGENERATE are functions of other state; bits 15:8 read 0. The number of
each error is that of rule R185, the number of each engine state, which ENG_STATE reads, that of rule R36. -/
def Obligations.StatusWordFields : Prop :=
  ∀ s : State,
    (statusWord s).getLsbD 0 = s.busy ∧ (statusWord s).getLsbD 1 = s.done ∧
    (statusWord s).extractLsb' 2 3 =
      (match s.err with
      | .none => 0#3
      | .emptyAlphabet => 1#3
      | .bufferExhausted => 2#3
      | .illegalCommand => 3#3
      | .noTree => 4#3
      | .badLength => 5#3) ∧
    (statusWord s).getLsbD 5 = decide (s.skipCount ≠ 0) ∧
    (statusWord s).getLsbD 6 = s.tree.rootValid ∧
    (statusWord s).getLsbD 7 = (s.tree.rootValid && decide (s.tree.leafCount = 1)) ∧
    (statusWord s).extractLsb' 8 8 = 0#8 ∧
    placeRead s (.csr .engState) =
      match s.engState with
      | .idle => 0
      | .pClear => 1
      | .bSeed => 2
      | .bCheck => 3
      | .bSort => 4
      | .bMerge => 5
      | .dClear => 6
      | .dRoot => 7
      | .dVisit => 8
      | .xInit => 9
      | .xFetch => 10
      | .xEmit => 11

/-- Rule R84: the five fields of a packed node record, variant by variant, its width, and the way back: no bit of a
record is lost; and the element of space NODE is that record of the node. -/
def Obligations.NodeRecordRoundTrip : Prop :=
  recordFields (packNode .free) = (0, 0, 0, 0, 0) ∧
  (∀ (sym : Byte) (w : Nat), recordFields (packNode (.leaf sym w)) = (1, sym.toNat, 0, 0, w)) ∧
  (∀ w l r : Nat, l < 512 → r < 512 → recordFields (packNode (.internal w l r)) = (2, 0, l, r, w)) ∧
  (∀ (p : Params) (n : Node), n.left < 512 → n.right < 512 → n.weight < 2 ^ p.weightW →
    packNode n < 2 ^ p.nodeW ∧ unpackNode (packNode n) = some n) ∧
  (∀ (s : State) (i : Nat), placeRead s (.node i) = packNode (nodeAt s.tree i))

/-- Rule R85: CODE_LEN is the length of the code, bit `k` of CODE_BITS is bit `k` of the code for `k < CODE_LEN` and 0
from there on, both fit their widths, and the two elements give the code back. -/
def Obligations.CodeEntryRoundTrip : Prop :=
  ∀ (s : State) (b : Nat),
    placeRead s (.codeLen b) = (codeAt s b).length ∧
    (∀ k, (placeRead s (.codeBits b)).testBit k = ((codeAt s b)[k]?).getD false) ∧
    ((codeAt s b).length ≤ codeMax → placeRead s (.codeLen b) < 2 ^ 8 ∧ placeRead s (.codeBits b) < 2 ^ 255) ∧
    codeOfEntry (placeRead s (.codeLen b)) (placeRead s (.codeBits b)) = codeAt s b

/-! ### huffman_tree_builder -/

/-- Rule R112: CLEAR empties the tree state and writes nothing else but ERR, DONE and OP (`workEra` is the model's own
counter, assumption log 5). -/
def Obligations.ClearEmptiesTheTree : Prop :=
  ∀ s : State, Ready .command s →
    ∃ t, exec .clear s = .next t ∧ t = { ended .clear .none s with tree := .empty, workEra := t.workEra }

/-- Rule R16: `stable_sort_by_weight` is a permutation, ascending in weight, that keeps the order of equal weights, and
it is the only one. The uniqueness is the spec's own inference: "Such a `T` exists and is unique [from general knowledge,
not in source: uniqueness of the stably sorted order]", listed as G2 in 93_implementation_defined.md. -/
def Obligations.SortIsStable : Prop :=
  ∀ (wt : Nat → Nat) (pool : List Nat),
    ((stableSort wt pool).Perm pool ∧ (stableSort wt pool).Pairwise (fun x y => wt x ≤ wt y) ∧
      ∀ w, (stableSort wt pool).filter (fun x => wt x == w) = pool.filter (fun x => wt x == w)) ∧
    ∀ other : List Nat, other.Perm pool → other.Pairwise (fun x y => wt x ≤ wt y) →
      (∀ w, other.filter (fun x => wt x == w) = pool.filter (fun x => wt x == w)) → other = stableSort wt pool

/-- Rule R120: on a sorted pool with one element appended, the sort moves only that element, to just behind the last one
of no greater weight. -/
def Obligations.SortMovesOnlyTheNewNode : Prop :=
  ∀ (wt : Nat → Nat) (pool : List Nat) (m : Nat), pool.Pairwise (fun x y => wt x ≤ wt y) →
    stableSort wt (pool ++ [m]) =
      pool.takeWhile (fun x => decide (wt x ≤ wt m)) ++ m :: pool.dropWhile (fun x => decide (wt x ≤ wt m))

/-- Rule R113: `seed()` on an empty pool makes one leaf per byte value with a non-zero count, in ascending order, at the
indices from 0 up, and the pool lists them in that order. -/
def Obligations.SeedMakesTheLeaves : Prop :=
  ∀ freq : Nat → Nat,
    let coded := (List.range 256).filter fun b => freq b != 0
    let t := seedUpTo freq 256 Tree.empty
    t.leafCount = coded.length ∧ t.nodeCount = coded.length ∧ t.work = List.range coded.length ∧
    t.root = 0 ∧ t.rootValid = false ∧
    (∀ i b, coded[i]? = some b → nodeAt t i = .leaf (BitVec.ofNat 8 b) (freq b)) ∧
    (∀ i, coded.length ≤ i → nodeAt t i = .free)

/-- Rules R114, R119: one merge removes the two lightest nodes, the earlier one in the pool first among equals, makes
them left and right child of a new node of their summed weight, and appends that node to the sorted rest. -/
def Obligations.MergeTakesTheTwoLightest : Prop :=
  ∀ t : Tree, 2 ≤ t.work.length →
    ∃ a b rest, stableSort (weightAt t) t.work = a :: b :: rest ∧ (a :: b :: rest).Perm t.work ∧
      (∀ x ∈ t.work, weightAt t a ≤ weightAt t x) ∧ (∀ x ∈ rest, weightAt t b ≤ weightAt t x) ∧
      (mergeOnce t).work = rest ++ [t.nodeCount] ∧
      nodeAt (mergeOnce t) t.nodeCount = .internal (weightAt t a + weightAt t b) a b ∧
      (∀ i, i ≠ t.nodeCount → nodeAt (mergeOnce t) i = nodeAt t i) ∧
      (mergeOnce t).nodeCount = t.nodeCount + 1 ∧ (mergeOnce t).leafCount = t.leafCount

/-- Rule R118: BUILD with all counts zero ends with EmptyAlphabet and the empty tree state, the code table untouched,
and a DERIVE issued next is refused with NoTree. -/
def Obligations.BuildOfNothingIsEmptyAlphabet : Prop :=
  ∀ s : State, Ready .command s → (∀ b, b < 256 → freqAt s b = 0) →
    ∃ t, exec .build s = .next t ∧
      t = { ended .build .emptyAlphabet s with tree := .empty, workEra := t.workEra } ∧
      exec .derive t = .next { t with err := .noTree }

/-- Rule R117: with exactly one non-zero count the sole leaf is the root, and DEGENERATE is 1. -/
def Obligations.BuildOfOneSymbol : Prop :=
  ∀ (s : State) (b : Nat), Ready .command s → b < 256 → freqAt s b ≠ 0 →
    (∀ c, c < 256 → c ≠ b → freqAt s c = 0) →
    ∃ t, exec .build s = .next t ∧
      t = { ended .build .none s with tree := t.tree, workEra := t.workEra } ∧
      t.tree =
        { nodes := [(0, .leaf (BitVec.ofNat 8 b) (freqAt s b))]
          nodeCount := 1
          leafCount := 1
          work := [0]
          root := 0
          rootValid := true } ∧
      degenerateFlag t = true

/-- Rules R115, R116: BUILD with a non-zero count completes without error and writes nothing outside the tree state, but
for ERR and DONE; the counts, WORK and ROOT are those of rule R42, and DEGENERATE is 1 exactly for one leaf. -/
def Obligations.BuildCompletes : Prop :=
  ∀ s : State, Ready .command s → freqSymbols s ≠ 0 →
    ∃ t, exec .build s = .next t ∧
      t = { ended .build .none s with tree := t.tree, workEra := t.workEra } ∧
      t.tree.rootValid = true ∧ t.tree.leafCount = freqSymbols s ∧
      t.tree.nodeCount = 2 * freqSymbols s - 1 ∧ t.tree.root = 2 * freqSymbols s - 2 ∧
      t.tree.work = [t.tree.root] ∧ (degenerateFlag t = true ↔ freqSymbols s = 1)

/-- Rule R42, case tree, with what it says of FREQ: BUILD leaves a binary tree whose leaves are exactly the byte values
with a non-zero count. -/
def Obligations.BuildMakesTheTree : Prop :=
  ∀ s : State, Ready .command s → freqSymbols s ≠ 0 →
    ∃ t, exec .build s = .next t ∧ TreeCase t.tree ∧
      (∀ i, i < t.tree.leafCount →
        ∃ b, b < 256 ∧ freqAt s b ≠ 0 ∧ nodeAt t.tree i = .leaf (BitVec.ofNat 8 b) (freqAt s b)) ∧
      (∀ b, b < 256 → freqAt s b ≠ 0 →
        ∃ i, i < t.tree.leafCount ∧ nodeAt t.tree i = .leaf (BitVec.ofNat 8 b) (freqAt s b))

/-- Rules R9, R42, R121: the root's weight is the sum of all counts, no node weighs more, and every weight fits
WEIGHT_W bits when the counts fit FREQ_W bits. -/
def Obligations.RootWeightIsTheSum : Prop :=
  ∀ s : State, Ready .command s → freqSymbols s ≠ 0 →
    ∃ t, exec .build s = .next t ∧ weightAt t.tree t.tree.root = freqTotal s ∧
      (∀ i, weightAt t.tree i ≤ freqTotal s) ∧
      ((∀ b, b < 256 → freqAt s b < 2 ^ s.params.freqW) → ∀ i, weightAt t.tree i < 2 ^ s.params.weightW)

/-- Rule R122: BUILD is a function of FREQ alone: the same counts give the same tree state, whatever the rest of the
state was, and a DERIVE of the two gives the same code table. -/
def Obligations.BuildReadsFreqAlone : Prop :=
  ∀ s₁ s₂ : State, Ready .command s₁ → Ready .command s₂ → (∀ b, b < 256 → freqAt s₁ b = freqAt s₂ b) →
    ∃ t₁ t₂, exec .build s₁ = .next t₁ ∧ exec .build s₂ = .next t₂ ∧ t₁.tree = t₂.tree ∧ t₁.err = t₂.err ∧
      (t₁.tree.rootValid = true →
        ∃ u₁ u₂, exec .derive t₁ = .next u₁ ∧ exec .derive t₂ = .next u₂ ∧ u₁.codes = u₂.codes)

/-! ### huffman_code_table_derivator -/

/-- Rule R144: DERIVE from a tree of two or more leaves gives every leaf's symbol its root-to-leaf path, every other byte
value ε, and writes nothing but the code table, ERR and DONE. -/
def Obligations.DeriveGivesThePaths : Prop :=
  ∀ s : State, Ready .command s → TreeCase s.tree → 2 ≤ s.tree.leafCount →
    ∃ t, exec .derive s = .next t ∧ t = { ended .derive .none s with codes := t.codes } ∧
      (∀ b c, c ≠ [] → (codeAt t b = c ↔ pathToLeaf s.tree b c)) ∧
      (∀ i, i < s.tree.leafCount → codeAt t (nodeAt s.tree i).sym ≠ [])

/-- Rule R143: DERIVE from a single-leaf tree gives its symbol the code "0" and every other byte value ε. -/
def Obligations.DeriveOfOneLeaf : Prop :=
  ∀ (s : State) (sym : Byte) (w : Nat), Ready .command s → s.tree.rootValid = true →
    nodeAt s.tree s.tree.root = .leaf sym w →
    exec .derive s = .next { ended .derive .none s with codes := [(sym.toNat, [false])] }

/-- Rule R149: DERIVE leaves the tree, and issued again it gives the same table: the state does not change any more. -/
def Obligations.DeriveAgainChangesNothing : Prop :=
  ∀ s t : State, Ready .command s → exec .derive s = .next t → t.tree = s.tree ∧ exec .derive t = .next t

/-- Rule R147: from a tree, DERIVE makes a prefix code, and for two or more leaves a complete one. -/
def Obligations.DeriveMakesAPrefixCode : Prop :=
  ∀ s : State, Ready .command s → TreeCase s.tree →
    ∃ t, exec .derive s = .next t ∧ PrefixCode t.codes ∧ (2 ≤ s.tree.leafCount → kraftSum t.codes = 2 ^ 255)

/-- Rule R146: every code DERIVE writes has at most max(1, LEAF_COUNT − 1) bits, so at most 255. -/
def Obligations.CodeLengthIsBounded : Prop :=
  ∀ s : State, Ready .command s → TreeCase s.tree →
    ∃ t, exec .derive s = .next t ∧
      ∀ b, (codeAt t b).length ≤ max 1 (s.tree.leafCount - 1) ∧ (codeAt t b).length ≤ codeMax

/-- Rules R32, R116, R144: after BUILD and DERIVE a byte value has a code exactly when its count was not zero, byte value
0 like any other. -/
def Obligations.CodedExactlyWhenCounted : Prop :=
  ∀ s : State, Ready .command s → freqSymbols s ≠ 0 →
    ∃ t u, exec .build s = .next t ∧ exec .derive t = .next u ∧
      ∀ b, b < 256 → (codeAt u b = [] ↔ freqAt s b = 0)

/-! ### huffman_bit_encoder -/

/-- Rules R34, R166: MEASURE adds up the code lengths and counts the bytes without a code, and writes nothing else but
IN_POS, ERR and DONE. -/
def Obligations.MeasureAddsUpTheLengths : Prop :=
  ∀ s : State, Ready .command s → s.inLen ≤ s.params.inCap →
    exec .measure s =
      .next
        { ended .measure .none s with
          totalBits := bitsOfFirst s s.inLen
          inPos := s.inLen
          skipCount := missingInFirst s s.inLen }

/-- Rules R161 to R165, R169: ENCODE of an input whose codes fit writes the codes one behind the other as characters
(rule R87: 0x31 for the bit 1, 0x30 for the bit 0),
counts symbols and skipped bytes, and leaves OUT past OUT_COUNT as it was. -/
def Obligations.EncodeWritesTheCodes : Prop :=
  ∀ s : State, Ready .command s → s.inLen ≤ s.params.inCap → bitsOfFirst s s.inLen ≤ s.params.outCap →
    ∃ t, exec .encode s = .next t ∧
      t =
        { ended .encode .none s with
          out := t.out
          outCount := bitsOfFirst s s.inLen
          inPos := s.inLen
          skipCount := missingInFirst s s.inLen } ∧
      (∀ i b, (textOfFirst s s.inLen)[i]? = some b → outAt t i = if b then 0x31 else 0x30) ∧
      (∀ i, t.outCount ≤ i → outAt t i = outAt s i)

/-- Rules R164, R165, R188: ENCODE of an input whose codes do not fit stops at the first code that does not, with
BufferExhausted; the complete codes before it are in OUT, the rest of OUT is as it was. -/
def Obligations.EncodeStopsWhenFull : Prop :=
  ∀ s : State, Ready .command s → s.inLen ≤ s.params.inCap → s.params.outCap < bitsOfFirst s s.inLen →
    ∃ t k, exec .encode s = .next t ∧ k < s.inLen ∧ bitsOfFirst s k ≤ s.params.outCap ∧
      s.params.outCap < bitsOfFirst s (k + 1) ∧
      t =
        { ended .encode .bufferExhausted s with
          out := t.out
          outCount := bitsOfFirst s k
          inPos := k
          skipCount := missingInFirst s k } ∧
      (∀ i b, (textOfFirst s k)[i]? = some b → outAt t i = if b then 0x31 else 0x30) ∧
      (∀ i, t.outCount ≤ i → outAt t i = outAt s i)

/-- Rule R166: TOTAL_BITS and SKIP_COUNT of MEASURE foretell ENCODE: BufferExhausted exactly when TOTAL_BITS > OUT_CAP,
and otherwise the same two numbers. -/
def Obligations.MeasureForetellsEncode : Prop :=
  ∀ s : State, Ready .command s → s.inLen ≤ s.params.inCap →
    ∃ m t, exec .measure s = .next m ∧ exec .encode s = .next t ∧
      (t.err = .bufferExhausted ↔ s.params.outCap < m.totalBits) ∧
      (t.err ≠ .bufferExhausted → t.outCount = m.totalBits ∧ t.skipCount = m.skipCount ∧ t.err = .none)

/-- Rule R168: when FREQ counts the input and IN_LEN >= 1, then after BUILD and DERIVE the encoding has
`sum over b of FREQ[b] × len(CODE[b])` symbols and no byte is skipped, unless it does not fit (rules R164, R165). -/
def Obligations.CompressedLengthIsTheWeightedSum : Prop :=
  ∀ s : State, Ready .command s → FreqIsHistogram s → 1 ≤ s.inLen → s.inLen ≤ s.params.inCap →
    ∃ t u v, exec .build s = .next t ∧ exec .derive t = .next u ∧ exec .encode u = .next v ∧
      let total := ((List.range 256).map fun b => freqAt v b * (codeAt v b).length).sum
      v.err = (if v.params.outCap < total then .bufferExhausted else .none) ∧ v.skipCount = 0 ∧
        (total ≤ v.params.outCap → v.outCount = total ∧ v.inPos = s.inLen)

/-- Rule R91: COMPRESS is BUILD, DERIVE and ENCODE one after the other, each followed by WAIT: at Level A six steps of
the model (assumption log 8 and 19). -/
def Obligations.CompressScriptRunsTheCommands : Prop :=
  ∀ (s : State) (rest : List HostOp), Ready .command s →
    ∃ t u v, exec .build { s with script := rest } = .next t ∧ exec .derive t = .next u ∧ exec .encode u = .next v ∧
      runFor 6 { s with script := scriptCompress ++ rest } = .next v

/-- Rule R169: under one prefix code and with no byte skipped, an encoding can be cut back in one way only: two inputs
with the same output are the same input. -/
def Obligations.OutputGivesTheInputBack : Prop :=
  ∀ s₁ s₂ : State, Ready .command s₁ → Ready .command s₂ →
    s₁.inLen ≤ s₁.params.inCap → s₂.inLen ≤ s₂.params.inCap →
    bitsOfFirst s₁ s₁.inLen ≤ s₁.params.outCap → bitsOfFirst s₂ s₂.inLen ≤ s₂.params.outCap →
    missingInFirst s₁ s₁.inLen = 0 → missingInFirst s₂ s₂.inLen = 0 → PrefixCode s₁.codes → s₁.codes = s₂.codes →
    ∃ t₁ t₂, exec .encode s₁ = .next t₁ ∧ exec .encode s₂ = .next t₂ ∧
      (t₁.outCount = t₂.outCount → (∀ i, i < t₁.outCount → outAt t₁ i = outAt t₂ i) →
        s₁.inLen = s₂.inLen ∧ ∀ i, i < s₁.inLen → inputAt s₁ i = inputAt s₂ i)

/-! ### All commands -/

/-- Rule R65: what each command leaves alone. A refused command writes ERR and DONE only; one that ran leaves every place
outside its row reading as before, and no command writes FREQ, IN, IN_LEN, the script or the reads. -/
def Obligations.CommandsKeepTheRest : Prop :=
  ∀ (i : Instr) (s t : State), Ready .command s → s.engState = .idle → exec i s = .next t →
    (∀ e, issueError i s = some e → t = { s with err := e, done := true }) ∧
    (∀ pl, mayWrite i t pl = false → placeRead t pl = placeRead s pl) ∧
    (i ≠ .clear ∧ i ≠ .build → t.tree = s.tree ∧ t.workEra = s.workEra) ∧
    t.params = s.params ∧ t.freq = s.freq ∧ t.input = s.input ∧ t.script = s.script ∧ t.reads = s.reads ∧
    t.resets = s.resets

/-- Rules R185, R190, R198: the ERR a command leaves, for each command, and that it has ended. -/
def Obligations.ErrorsAreReported : Prop :=
  ∀ (i : Instr) (s t : State), Ready .command s → s.engState = .idle → exec i s = .next t →
    t.busy = false ∧ t.done = true ∧ t.engState = .idle ∧
    t.err =
      match i with
      | .clear => .none
      | .build => if freqSymbols s = 0 then .emptyAlphabet else .none
      | .derive => if s.tree.rootValid then .none else .noTree
      | .measure => if s.params.inCap < s.inLen then .badLength else .none
      | .encode =>
        if s.params.inCap < s.inLen then .badLength
        else if s.params.outCap < bitsOfFirst s s.inLen then .bufferExhausted
        else .none

/-- U4 of 93_implementation_defined.md: no result depends on what the hidden registers held when a command was issued:
at Level A the command's outcome, at Level B the outcome of any number of steps from its issue, each hidden register
being written before it is read; nor does a host read. -/
def Obligations.HiddenRegistersDoNotMatter : Prop :=
  (∀ (i : Instr) (s : State) (h : Hidden), s.params.level = .command →
    hideRegisters (exec i { s with hidden := h }) = hideRegisters (exec i s)) ∧
  (∀ (i : Instr) (s : State) (h : Hidden) (steps : Nat), Ready .step s → s.engState = .idle →
    hideRegisters (runFor steps (withIssue i { s with hidden := h })) =
      hideRegisters (runFor steps (withIssue i s))) ∧
  ∀ (s : State) (h : Hidden) (pl : Place), placeRead { s with hidden := h } pl = placeRead s pl

/-! ### Invariants of every step -/

/-- Level A: every step keeps the invariant (rules R42, R9, R25, R33, R34, R87, R147). -/
def Obligations.StepKeepsTheInvariant : Prop :=
  ∀ s t : State, s.params.level = .command → Inv s → step s = .next t → Inv t

/-- Level A: from a state that meets the invariant no step faults (rule R142: walk is never called on a Free node). -/
def Obligations.NoStepFaults : Prop :=
  ∀ (s : State) (f : Fault), s.params.level = .command → Inv s → step s ≠ .fault f

/-- Both levels: every step keeps the spaces in canonical form and inside their sizes (rules R60, R62). -/
def Obligations.StepKeepsTheSpacesCanonical : Prop :=
  ∀ s t : State, Memory.wf s → step s = .next t → Memory.wf t

/-- Both levels: BUSY = 1 exactly when ENG_STATE is not IDLE, with DONE and ERR 0 meanwhile, and at Level A the engine is
always idle (rules R10, R35, R36). -/
def Obligations.StepKeepsStatusInv : Prop :=
  ∀ s t : State, StatusInv s → step s = .next t → StatusInv t

/-- Both levels: no step writes the parameters (rules R8, R20). -/
def Obligations.StepKeepsTheParameters : Prop :=
  ∀ s t : State, step s = .next t → t.params = s.params

/-! ### Level B -/

/-- Rule R102 at Level B: an accepted command sets BUSY, clears DONE and ERR, latches OP and starts the engine. -/
def Obligations.LevelBIssueStartsTheEngine : Prop :=
  ∀ (i : Instr) (s : State), Ready .step s → issueError i s = none →
    exec i s =
      .next
        { s with
          err := .none
          done := false
          busy := true
          engState := startState i
          hidden := { s.hidden with op := opcodeOf i } }

/-- Rule R105: a step of the engine goes where the transition table says. -/
def Obligations.EngineFollowsTheTable : Prop :=
  ∀ s t : State, engineStep s = .next t → t.engState = transitionTable s

/-- Rules R129, R130: CLEAR at Level B takes exactly 2 steps, with BUSY = 1 until the last, and ends as
at Level A. -/
def Obligations.LevelBClearRefines : Prop :=
  ∀ s : State, Ready .step s →
    ∃ t u, exec .clear (atLevel .command { s with script := [] }) = .next u ∧
      TakesSteps 2 (withIssue .clear s) t ∧ SameButHidden t u

/-- Rules R129, R130: BUILD at Level B takes exactly 259 steps with no leaf and 3n + 256 with n, with BUSY = 1
until the last, and ends as at Level A. -/
def Obligations.LevelBBuildRefines : Prop :=
  ∀ s : State, Ready .step s →
    ∃ t u, exec .build (atLevel .command { s with script := [] }) = .next u ∧
      TakesSteps (if freqSymbols s = 0 then 259 else 3 * freqSymbols s + 256) (withIssue .build s) t ∧
      SameButHidden t u

/-- Rule R153: DERIVE at Level B takes exactly 1 step when refused, 3 for one leaf and 2n + 2 for n, with BUSY = 1
until the last, and ends as at Level A: neither STACK nor PATH is overrun. -/
def Obligations.LevelBDeriveRefines : Prop :=
  ∀ s : State, Ready .step s → TreeInv s.tree →
    ∃ t u, exec .derive (atLevel .command { s with script := [] }) = .next u ∧
      TakesSteps
        (if s.tree.rootValid then (if s.tree.leafCount = 1 then 3 else 2 * s.tree.leafCount + 2) else 1)
        (withIssue .derive s) t ∧
      SameButHidden t u

/-- Rules R174, R175: MEASURE at Level B takes exactly IN_LEN + 3 steps, 1 when refused, with BUSY = 1 until the
last, and ends as at Level A. -/
def Obligations.LevelBMeasureRefines : Prop :=
  ∀ s : State, Ready .step s →
    ∃ t u, exec .measure (atLevel .command { s with script := [] }) = .next u ∧
      TakesSteps (if s.params.inCap < s.inLen then 1 else s.inLen + 3) (withIssue .measure s) t ∧ SameButHidden t u

/-- Rules R174, R175: ENCODE at Level B takes exactly IN_POS + OUT_COUNT + 3 steps (IN_POS = IN_LEN without halting
error), 1 when refused, with BUSY = 1 until the last, and ends as at Level A. -/
def Obligations.LevelBEncodeRefines : Prop :=
  ∀ s : State, Ready .step s →
    ∃ t u, exec .encode (atLevel .command { s with script := [] }) = .next u ∧
      TakesSteps (if s.params.inCap < s.inLen then 1 else u.inPos + u.outCount + 3) (withIssue .encode s) t ∧
      SameButHidden t u
end

