-- ==== Sys2Proof/Laws/Cells.lean ====
section
/-! SUPPORT. Cells.lean: the laws of the sparse spaces: read after write, a write leaves every other element alone, and
every operation keeps the canonical form. -/

namespace Sys2Proof.Machine

variable {α : Type}

@[simp] theorem cellGet_nil (i : Nat) : cellGet ([] : Cells α) i = none := rfl

@[simp] theorem cellGet_cellSet_same (c : Cells α) (i : Nat) (v : α) : cellGet (cellSet c i v) i = some v := by
  induction c with
  | nil => simp [cellSet, cellGet]
  | cons x rest ih =>
    obtain ⟨j, u⟩ := x
    simp only [cellSet]
    split
    · simp [cellGet]
    · split
      · simp [cellGet]
      · rename_i h₁ h₂
        simp [cellGet, ih, Ne.symm h₂]

theorem cellGet_cellSet_ne (c : Cells α) {i k : Nat} (v : α) (h : k ≠ i) :
    cellGet (cellSet c i v) k = cellGet c k := by
  induction c with
  | nil => simp [cellSet, cellGet, Ne.symm h]
  | cons x rest ih =>
    obtain ⟨j, u⟩ := x
    simp only [cellSet]
    split
    · simp [cellGet, Ne.symm h]
    · split
      · rename_i h₁ h₂
        subst h₂
        simp [cellGet, Ne.symm h]
      · simp [cellGet, ih]

theorem cellGet_cellSet (c : Cells α) (i k : Nat) (v : α) :
    cellGet (cellSet c i v) k = if k = i then some v else cellGet c k := by
  split
  · next h => subst h; simp
  · next h => exact cellGet_cellSet_ne c v h

theorem mem_cellSet {c : Cells α} {i : Nat} {v : α} {x : Nat × α} (h : x ∈ cellSet c i v) :
    x = (i, v) ∨ x ∈ c := by
  induction c with
  | nil => simpa [cellSet] using h
  | cons y rest ih =>
    obtain ⟨j, u⟩ := y
    simp only [cellSet] at h
    split at h
    · simpa using h
    · split at h
      · rcases List.mem_cons.mp h with h | h
        · exact .inl h
        · exact .inr (List.mem_cons_of_mem _ h)
      · rcases List.mem_cons.mp h with h | h
        · exact .inr (h ▸ List.mem_cons_self)
        · exact (ih h).imp_right (List.mem_cons_of_mem _)

theorem cellSet_rising {c : Cells α} (i : Nat) (v : α) (h : cellsRising c) : cellsRising (cellSet c i v) := by
  induction c with
  | nil => simp [cellSet]
  | cons x rest ih =>
    obtain ⟨j, u⟩ := x
    have hr := List.pairwise_cons.mp h
    simp only [cellSet]
    split
    · next hlt =>
      refine List.pairwise_cons.mpr ⟨fun y hy => ?_, h⟩
      rcases List.mem_cons.mp hy with rfl | hy
      · exact hlt
      · exact Nat.lt_trans hlt (hr.1 y hy)
    · split
      · next heq => subst heq; exact List.pairwise_cons.mpr ⟨hr.1, hr.2⟩
      · refine List.pairwise_cons.mpr ⟨fun y hy => ?_, ih hr.2⟩
        rcases mem_cellSet hy with rfl | hy
        · show j < i; omega
        · exact hr.1 y hy

theorem cellSet_below {c : Cells α} {n i : Nat} (v : α) (hi : i < n) (h : cellsBelow n c) :
    cellsBelow n (cellSet c i v) := by
  intro x hx
  rcases mem_cellSet hx with rfl | hx
  · exact hi
  · exact h x hx

theorem mem_of_mem_cellErase {c : Cells α} {i : Nat} {x : Nat × α} (h : x ∈ cellErase c i) : x ∈ c := by
  induction c with
  | nil => simp [cellErase] at h
  | cons y rest ih =>
    obtain ⟨j, u⟩ := y
    simp only [cellErase] at h
    split at h
    · exact List.mem_cons_of_mem _ h
    · rcases List.mem_cons.mp h with h | h
      · exact h ▸ List.mem_cons_self
      · exact List.mem_cons_of_mem _ (ih h)

theorem cellErase_rising {c : Cells α} (i : Nat) (h : cellsRising c) : cellsRising (cellErase c i) := by
  induction c with
  | nil => simp [cellErase]
  | cons y rest ih =>
    obtain ⟨j, u⟩ := y
    have hr := List.pairwise_cons.mp h
    simp only [cellErase]
    split
    · exact hr.2
    · exact List.pairwise_cons.mpr ⟨fun x hx => hr.1 x (mem_of_mem_cellErase hx), ih hr.2⟩

theorem mem_of_cellGet {c : Cells α} {i : Nat} {v : α} (h : cellGet c i = some v) : (i, v) ∈ c := by
  induction c with
  | nil => simp at h
  | cons y rest ih =>
    obtain ⟨j, u⟩ := y
    simp only [cellGet] at h
    split at h
    · next hj => simp only [Option.some.injEq] at h; subst hj h; exact List.mem_cons_self
    · exact List.mem_cons_of_mem _ (ih h)

theorem cellGet_of_mem {c : Cells α} {i : Nat} {v : α} (hc : cellsRising c) (h : (i, v) ∈ c) :
    cellGet c i = some v := by
  induction c with
  | nil => simp at h
  | cons y rest ih =>
    obtain ⟨j, u⟩ := y
    have hr := List.pairwise_cons.mp hc
    rcases List.mem_cons.mp h with h | h
    · cases h; simp [cellGet]
    · have : j ≠ i := by have := hr.1 _ h; simp at this; omega
      simp [cellGet, this, ih hr.2 h]

/-- Equal spaces are equal data: two spaces in canonical form that read alike at every index are the same list. -/
theorem cells_ext {c d : Cells α} (hc : cellsRising c) (hd : cellsRising d)
    (h : ∀ i, cellGet c i = cellGet d i) : c = d := by
  have sub : ∀ {c d : Cells α}, cellsRising c → (∀ i, cellGet c i = cellGet d i) → ∀ x ∈ c, x ∈ d := by
    intro c d hc h x hx
    exact mem_of_cellGet ((h x.1).symm.trans (cellGet_of_mem hc hx))
  have hp : c.Perm d := by
    refine (List.perm_ext_iff_of_nodup ?_ ?_).mpr fun x => ⟨sub hc h x, sub hd (fun i => (h i).symm) x⟩
    · exact hc.imp fun {a b} hab hEq => by subst hEq; exact Nat.lt_irrefl _ hab
    · exact hd.imp fun {a b} hab hEq => by subst hEq; exact Nat.lt_irrefl _ hab
  exact hp.eq_of_pairwise (fun a b _ _ h₁ h₂ => absurd h₁ (Nat.lt_asymm h₂)) hc hd

/-! ### The node store and the code table -/

@[simp] theorem storeNode_nil (i : Nat) : storeNode [] i = .free := rfl

@[simp] theorem storeCode_nil (b : Nat) : storeCode [] b = [] := rfl

theorem storeNode_setNode {nodes : Cells Node} {i k : Nat} {n : Node} (h : n ≠ .free) :
    storeNode (setNode nodes i n) k = if k = i then n else storeNode nodes k := by
  simp only [storeNode, setNode, h, if_false, cellGet_cellSet]
  split <;> simp

theorem storeCode_setCode {codes : Cells Bits} {i k : Nat} {b : Bits} (h : b ≠ []) :
    storeCode (setCode codes i b) k = if k = i then b else storeCode codes k := by
  simp only [storeCode, setCode, h, if_false, cellGet_cellSet]
  split <;> simp

/-- Canonical form of the node store, for a write below its size. -/
theorem setNode_wf {nodes : Cells Node} {i : Nat} (n : Node) (hi : i < 511)
    (h : cellsRising nodes ∧ cellsBelow 511 nodes ∧ ∀ x ∈ nodes, x.2 ≠ .free) :
    cellsRising (setNode nodes i n) ∧ cellsBelow 511 (setNode nodes i n) ∧ ∀ x ∈ setNode nodes i n, x.2 ≠ .free := by
  unfold setNode
  split
  · exact ⟨cellErase_rising i h.1, fun x hx => h.2.1 x (mem_of_mem_cellErase hx),
      fun x hx => h.2.2 x (mem_of_mem_cellErase hx)⟩
  · next hn =>
    refine ⟨cellSet_rising i n h.1, cellSet_below n hi h.2.1, fun x hx => ?_⟩
    rcases mem_cellSet hx with rfl | hx
    · exact hn
    · exact h.2.2 x hx

/-- Canonical form of the code table, for a write below its size. -/
theorem setCode_wf {codes : Cells Bits} {b : Nat} (p : Bits) (hb : b < 256)
    (h : cellsRising codes ∧ cellsBelow 256 codes ∧ ∀ x ∈ codes, x.2 ≠ []) :
    cellsRising (setCode codes b p) ∧ cellsBelow 256 (setCode codes b p) ∧ ∀ x ∈ setCode codes b p, x.2 ≠ [] := by
  unfold setCode
  split
  · exact ⟨cellErase_rising b h.1, fun x hx => h.2.1 x (mem_of_mem_cellErase hx),
      fun x hx => h.2.2 x (mem_of_mem_cellErase hx)⟩
  · next hp =>
    refine ⟨cellSet_rising b p h.1, cellSet_below p hb h.2.1, fun x hx => ?_⟩
    rcases mem_cellSet hx with rfl | hx
    · exact hp
    · exact h.2.2 x hx

/-- The form holds after reset. -/
theorem reset_memory_wf : Memory.wf State.reset := by
  simp [Memory.wf, State.reset, Tree.empty, cellsBelow]

end Sys2Proof.Machine
end

