-- ==== Sys2Proof/Laws/State.lean ====
section
/-! SUPPORT. State.lean: one lemma per field per named update of State, each true by rfl. -/

namespace Sys2Proof.Machine

@[simp] theorem finish_params (s : State) : (finish s).params = s.params := rfl
@[simp] theorem finish_freq (s : State) : (finish s).freq = s.freq := rfl
@[simp] theorem finish_input (s : State) : (finish s).input = s.input := rfl
@[simp] theorem finish_out (s : State) : (finish s).out = s.out := rfl
@[simp] theorem finish_codes (s : State) : (finish s).codes = s.codes := rfl
@[simp] theorem finish_tree (s : State) : (finish s).tree = s.tree := rfl
@[simp] theorem finish_inLen (s : State) : (finish s).inLen = s.inLen := rfl
@[simp] theorem finish_inPos (s : State) : (finish s).inPos = s.inPos := rfl
@[simp] theorem finish_outCount (s : State) : (finish s).outCount = s.outCount := rfl
@[simp] theorem finish_skipCount (s : State) : (finish s).skipCount = s.skipCount := rfl
@[simp] theorem finish_totalBits (s : State) : (finish s).totalBits = s.totalBits := rfl
@[simp] theorem finish_busy (s : State) : (finish s).busy = false := rfl
@[simp] theorem finish_done (s : State) : (finish s).done = true := rfl
@[simp] theorem finish_err (s : State) : (finish s).err = s.err := rfl
@[simp] theorem finish_engState (s : State) : (finish s).engState = .idle := rfl
@[simp] theorem finish_hidden (s : State) : (finish s).hidden = s.hidden := rfl
@[simp] theorem finish_script (s : State) : (finish s).script = s.script := rfl
@[simp] theorem finish_reads (s : State) : (finish s).reads = s.reads := rfl
@[simp] theorem finish_resets (s : State) : (finish s).resets = s.resets := rfl
@[simp] theorem finish_workEra (s : State) : (finish s).workEra = s.workEra := rfl

@[simp] theorem raiseError_params (e : Err) (s : State) : (raiseError e s).params = s.params := rfl
@[simp] theorem raiseError_freq (e : Err) (s : State) : (raiseError e s).freq = s.freq := rfl
@[simp] theorem raiseError_input (e : Err) (s : State) : (raiseError e s).input = s.input := rfl
@[simp] theorem raiseError_out (e : Err) (s : State) : (raiseError e s).out = s.out := rfl
@[simp] theorem raiseError_codes (e : Err) (s : State) : (raiseError e s).codes = s.codes := rfl
@[simp] theorem raiseError_tree (e : Err) (s : State) : (raiseError e s).tree = s.tree := rfl
@[simp] theorem raiseError_inLen (e : Err) (s : State) : (raiseError e s).inLen = s.inLen := rfl
@[simp] theorem raiseError_inPos (e : Err) (s : State) : (raiseError e s).inPos = s.inPos := rfl
@[simp] theorem raiseError_outCount (e : Err) (s : State) : (raiseError e s).outCount = s.outCount := rfl
@[simp] theorem raiseError_skipCount (e : Err) (s : State) : (raiseError e s).skipCount = s.skipCount := rfl
@[simp] theorem raiseError_totalBits (e : Err) (s : State) : (raiseError e s).totalBits = s.totalBits := rfl
@[simp] theorem raiseError_busy (e : Err) (s : State) : (raiseError e s).busy = false := rfl
@[simp] theorem raiseError_done (e : Err) (s : State) : (raiseError e s).done = true := rfl
@[simp] theorem raiseError_err (e : Err) (s : State) : (raiseError e s).err = e := rfl
@[simp] theorem raiseError_engState (e : Err) (s : State) : (raiseError e s).engState = .idle := rfl
@[simp] theorem raiseError_hidden (e : Err) (s : State) : (raiseError e s).hidden = s.hidden := rfl
@[simp] theorem raiseError_script (e : Err) (s : State) : (raiseError e s).script = s.script := rfl
@[simp] theorem raiseError_reads (e : Err) (s : State) : (raiseError e s).reads = s.reads := rfl
@[simp] theorem raiseError_resets (e : Err) (s : State) : (raiseError e s).resets = s.resets := rfl
@[simp] theorem raiseError_workEra (e : Err) (s : State) : (raiseError e s).workEra = s.workEra := rfl

@[simp] theorem refuseCommand_params (e : Err) (s : State) : (refuseCommand e s).params = s.params := rfl
@[simp] theorem refuseCommand_freq (e : Err) (s : State) : (refuseCommand e s).freq = s.freq := rfl
@[simp] theorem refuseCommand_input (e : Err) (s : State) : (refuseCommand e s).input = s.input := rfl
@[simp] theorem refuseCommand_out (e : Err) (s : State) : (refuseCommand e s).out = s.out := rfl
@[simp] theorem refuseCommand_codes (e : Err) (s : State) : (refuseCommand e s).codes = s.codes := rfl
@[simp] theorem refuseCommand_tree (e : Err) (s : State) : (refuseCommand e s).tree = s.tree := rfl
@[simp] theorem refuseCommand_inLen (e : Err) (s : State) : (refuseCommand e s).inLen = s.inLen := rfl
@[simp] theorem refuseCommand_inPos (e : Err) (s : State) : (refuseCommand e s).inPos = s.inPos := rfl
@[simp] theorem refuseCommand_outCount (e : Err) (s : State) : (refuseCommand e s).outCount = s.outCount := rfl
@[simp] theorem refuseCommand_skipCount (e : Err) (s : State) : (refuseCommand e s).skipCount = s.skipCount := rfl
@[simp] theorem refuseCommand_totalBits (e : Err) (s : State) : (refuseCommand e s).totalBits = s.totalBits := rfl
@[simp] theorem refuseCommand_busy (e : Err) (s : State) : (refuseCommand e s).busy = s.busy := rfl
@[simp] theorem refuseCommand_done (e : Err) (s : State) : (refuseCommand e s).done = true := rfl
@[simp] theorem refuseCommand_err (e : Err) (s : State) : (refuseCommand e s).err = e := rfl
@[simp] theorem refuseCommand_engState (e : Err) (s : State) : (refuseCommand e s).engState = s.engState := rfl
@[simp] theorem refuseCommand_hidden (e : Err) (s : State) : (refuseCommand e s).hidden = s.hidden := rfl
@[simp] theorem refuseCommand_script (e : Err) (s : State) : (refuseCommand e s).script = s.script := rfl
@[simp] theorem refuseCommand_reads (e : Err) (s : State) : (refuseCommand e s).reads = s.reads := rfl
@[simp] theorem refuseCommand_resets (e : Err) (s : State) : (refuseCommand e s).resets = s.resets := rfl
@[simp] theorem refuseCommand_workEra (e : Err) (s : State) : (refuseCommand e s).workEra = s.workEra := rfl

@[simp] theorem acceptCommand_params (i : Instr) (s : State) : (acceptCommand i s).params = s.params := rfl
@[simp] theorem acceptCommand_freq (i : Instr) (s : State) : (acceptCommand i s).freq = s.freq := rfl
@[simp] theorem acceptCommand_input (i : Instr) (s : State) : (acceptCommand i s).input = s.input := rfl
@[simp] theorem acceptCommand_out (i : Instr) (s : State) : (acceptCommand i s).out = s.out := rfl
@[simp] theorem acceptCommand_codes (i : Instr) (s : State) : (acceptCommand i s).codes = s.codes := rfl
@[simp] theorem acceptCommand_tree (i : Instr) (s : State) : (acceptCommand i s).tree = s.tree := rfl
@[simp] theorem acceptCommand_inLen (i : Instr) (s : State) : (acceptCommand i s).inLen = s.inLen := rfl
@[simp] theorem acceptCommand_inPos (i : Instr) (s : State) : (acceptCommand i s).inPos = s.inPos := rfl
@[simp] theorem acceptCommand_outCount (i : Instr) (s : State) : (acceptCommand i s).outCount = s.outCount := rfl
@[simp] theorem acceptCommand_skipCount (i : Instr) (s : State) : (acceptCommand i s).skipCount = s.skipCount := rfl
@[simp] theorem acceptCommand_totalBits (i : Instr) (s : State) : (acceptCommand i s).totalBits = s.totalBits := rfl
@[simp] theorem acceptCommand_busy (i : Instr) (s : State) : (acceptCommand i s).busy = true := rfl
@[simp] theorem acceptCommand_done (i : Instr) (s : State) : (acceptCommand i s).done = false := rfl
@[simp] theorem acceptCommand_err (i : Instr) (s : State) : (acceptCommand i s).err = .none := rfl
@[simp] theorem acceptCommand_engState (i : Instr) (s : State) : (acceptCommand i s).engState = s.engState := rfl
@[simp] theorem acceptCommand_hidden (i : Instr) (s : State) : (acceptCommand i s).hidden = { s.hidden with op := opcodeOf i } := rfl
@[simp] theorem acceptCommand_script (i : Instr) (s : State) : (acceptCommand i s).script = s.script := rfl
@[simp] theorem acceptCommand_reads (i : Instr) (s : State) : (acceptCommand i s).reads = s.reads := rfl
@[simp] theorem acceptCommand_resets (i : Instr) (s : State) : (acceptCommand i s).resets = s.resets := rfl
@[simp] theorem acceptCommand_workEra (i : Instr) (s : State) : (acceptCommand i s).workEra = s.workEra := rfl

@[simp] theorem poolReset_params (s : State) : (poolReset s).params = s.params := rfl
@[simp] theorem poolReset_freq (s : State) : (poolReset s).freq = s.freq := rfl
@[simp] theorem poolReset_input (s : State) : (poolReset s).input = s.input := rfl
@[simp] theorem poolReset_out (s : State) : (poolReset s).out = s.out := rfl
@[simp] theorem poolReset_codes (s : State) : (poolReset s).codes = s.codes := rfl
@[simp] theorem poolReset_tree (s : State) : (poolReset s).tree = .empty := rfl
@[simp] theorem poolReset_inLen (s : State) : (poolReset s).inLen = s.inLen := rfl
@[simp] theorem poolReset_inPos (s : State) : (poolReset s).inPos = s.inPos := rfl
@[simp] theorem poolReset_outCount (s : State) : (poolReset s).outCount = s.outCount := rfl
@[simp] theorem poolReset_skipCount (s : State) : (poolReset s).skipCount = s.skipCount := rfl
@[simp] theorem poolReset_totalBits (s : State) : (poolReset s).totalBits = s.totalBits := rfl
@[simp] theorem poolReset_busy (s : State) : (poolReset s).busy = s.busy := rfl
@[simp] theorem poolReset_done (s : State) : (poolReset s).done = s.done := rfl
@[simp] theorem poolReset_err (s : State) : (poolReset s).err = s.err := rfl
@[simp] theorem poolReset_engState (s : State) : (poolReset s).engState = s.engState := rfl
@[simp] theorem poolReset_hidden (s : State) : (poolReset s).hidden = s.hidden := rfl
@[simp] theorem poolReset_script (s : State) : (poolReset s).script = s.script := rfl
@[simp] theorem poolReset_reads (s : State) : (poolReset s).reads = s.reads := rfl
@[simp] theorem poolReset_resets (s : State) : (poolReset s).resets = s.resets := rfl
@[simp] theorem poolReset_workEra (s : State) : (poolReset s).workEra = s.workEra + 1 := rfl

@[simp] theorem skipByte_params (s : State) : (skipByte s).params = s.params := rfl
@[simp] theorem skipByte_freq (s : State) : (skipByte s).freq = s.freq := rfl
@[simp] theorem skipByte_input (s : State) : (skipByte s).input = s.input := rfl
@[simp] theorem skipByte_out (s : State) : (skipByte s).out = s.out := rfl
@[simp] theorem skipByte_codes (s : State) : (skipByte s).codes = s.codes := rfl
@[simp] theorem skipByte_tree (s : State) : (skipByte s).tree = s.tree := rfl
@[simp] theorem skipByte_inLen (s : State) : (skipByte s).inLen = s.inLen := rfl
@[simp] theorem skipByte_inPos (s : State) : (skipByte s).inPos = s.inPos + 1 := rfl
@[simp] theorem skipByte_outCount (s : State) : (skipByte s).outCount = s.outCount := rfl
@[simp] theorem skipByte_skipCount (s : State) : (skipByte s).skipCount = s.skipCount + 1 := rfl
@[simp] theorem skipByte_totalBits (s : State) : (skipByte s).totalBits = s.totalBits := rfl
@[simp] theorem skipByte_busy (s : State) : (skipByte s).busy = s.busy := rfl
@[simp] theorem skipByte_done (s : State) : (skipByte s).done = s.done := rfl
@[simp] theorem skipByte_err (s : State) : (skipByte s).err = s.err := rfl
@[simp] theorem skipByte_engState (s : State) : (skipByte s).engState = s.engState := rfl
@[simp] theorem skipByte_hidden (s : State) : (skipByte s).hidden = s.hidden := rfl
@[simp] theorem skipByte_script (s : State) : (skipByte s).script = s.script := rfl
@[simp] theorem skipByte_reads (s : State) : (skipByte s).reads = s.reads := rfl
@[simp] theorem skipByte_resets (s : State) : (skipByte s).resets = s.resets := rfl
@[simp] theorem skipByte_workEra (s : State) : (skipByte s).workEra = s.workEra := rfl

@[simp] theorem countCode_params (n : Nat) (s : State) : (countCode n s).params = s.params := rfl
@[simp] theorem countCode_freq (n : Nat) (s : State) : (countCode n s).freq = s.freq := rfl
@[simp] theorem countCode_input (n : Nat) (s : State) : (countCode n s).input = s.input := rfl
@[simp] theorem countCode_out (n : Nat) (s : State) : (countCode n s).out = s.out := rfl
@[simp] theorem countCode_codes (n : Nat) (s : State) : (countCode n s).codes = s.codes := rfl
@[simp] theorem countCode_tree (n : Nat) (s : State) : (countCode n s).tree = s.tree := rfl
@[simp] theorem countCode_inLen (n : Nat) (s : State) : (countCode n s).inLen = s.inLen := rfl
@[simp] theorem countCode_inPos (n : Nat) (s : State) : (countCode n s).inPos = s.inPos + 1 := rfl
@[simp] theorem countCode_outCount (n : Nat) (s : State) : (countCode n s).outCount = s.outCount := rfl
@[simp] theorem countCode_skipCount (n : Nat) (s : State) : (countCode n s).skipCount = s.skipCount := rfl
@[simp] theorem countCode_totalBits (n : Nat) (s : State) : (countCode n s).totalBits = s.totalBits + n := rfl
@[simp] theorem countCode_busy (n : Nat) (s : State) : (countCode n s).busy = s.busy := rfl
@[simp] theorem countCode_done (n : Nat) (s : State) : (countCode n s).done = s.done := rfl
@[simp] theorem countCode_err (n : Nat) (s : State) : (countCode n s).err = s.err := rfl
@[simp] theorem countCode_engState (n : Nat) (s : State) : (countCode n s).engState = s.engState := rfl
@[simp] theorem countCode_hidden (n : Nat) (s : State) : (countCode n s).hidden = s.hidden := rfl
@[simp] theorem countCode_script (n : Nat) (s : State) : (countCode n s).script = s.script := rfl
@[simp] theorem countCode_reads (n : Nat) (s : State) : (countCode n s).reads = s.reads := rfl
@[simp] theorem countCode_resets (n : Nat) (s : State) : (countCode n s).resets = s.resets := rfl
@[simp] theorem countCode_workEra (n : Nat) (s : State) : (countCode n s).workEra = s.workEra := rfl

@[simp] theorem appendCode_params (b : Bits) (s : State) : (appendCode b s).params = s.params := rfl
@[simp] theorem appendCode_freq (b : Bits) (s : State) : (appendCode b s).freq = s.freq := rfl
@[simp] theorem appendCode_input (b : Bits) (s : State) : (appendCode b s).input = s.input := rfl
@[simp] theorem appendCode_out (b : Bits) (s : State) : (appendCode b s).out = writeRun s.out s.outCount b := rfl
@[simp] theorem appendCode_codes (b : Bits) (s : State) : (appendCode b s).codes = s.codes := rfl
@[simp] theorem appendCode_tree (b : Bits) (s : State) : (appendCode b s).tree = s.tree := rfl
@[simp] theorem appendCode_inLen (b : Bits) (s : State) : (appendCode b s).inLen = s.inLen := rfl
@[simp] theorem appendCode_inPos (b : Bits) (s : State) : (appendCode b s).inPos = s.inPos + 1 := rfl
@[simp] theorem appendCode_outCount (b : Bits) (s : State) : (appendCode b s).outCount = s.outCount + b.length := rfl
@[simp] theorem appendCode_skipCount (b : Bits) (s : State) : (appendCode b s).skipCount = s.skipCount := rfl
@[simp] theorem appendCode_totalBits (b : Bits) (s : State) : (appendCode b s).totalBits = s.totalBits := rfl
@[simp] theorem appendCode_busy (b : Bits) (s : State) : (appendCode b s).busy = s.busy := rfl
@[simp] theorem appendCode_done (b : Bits) (s : State) : (appendCode b s).done = s.done := rfl
@[simp] theorem appendCode_err (b : Bits) (s : State) : (appendCode b s).err = s.err := rfl
@[simp] theorem appendCode_engState (b : Bits) (s : State) : (appendCode b s).engState = s.engState := rfl
@[simp] theorem appendCode_hidden (b : Bits) (s : State) : (appendCode b s).hidden = s.hidden := rfl
@[simp] theorem appendCode_script (b : Bits) (s : State) : (appendCode b s).script = s.script := rfl
@[simp] theorem appendCode_reads (b : Bits) (s : State) : (appendCode b s).reads = s.reads := rfl
@[simp] theorem appendCode_resets (b : Bits) (s : State) : (appendCode b s).resets = s.resets := rfl
@[simp] theorem appendCode_workEra (b : Bits) (s : State) : (appendCode b s).workEra = s.workEra := rfl

@[simp] theorem measureInit_params (s : State) : (measureInit s).params = s.params := rfl
@[simp] theorem measureInit_freq (s : State) : (measureInit s).freq = s.freq := rfl
@[simp] theorem measureInit_input (s : State) : (measureInit s).input = s.input := rfl
@[simp] theorem measureInit_out (s : State) : (measureInit s).out = s.out := rfl
@[simp] theorem measureInit_codes (s : State) : (measureInit s).codes = s.codes := rfl
@[simp] theorem measureInit_tree (s : State) : (measureInit s).tree = s.tree := rfl
@[simp] theorem measureInit_inLen (s : State) : (measureInit s).inLen = s.inLen := rfl
@[simp] theorem measureInit_inPos (s : State) : (measureInit s).inPos = 0 := rfl
@[simp] theorem measureInit_outCount (s : State) : (measureInit s).outCount = s.outCount := rfl
@[simp] theorem measureInit_skipCount (s : State) : (measureInit s).skipCount = 0 := rfl
@[simp] theorem measureInit_totalBits (s : State) : (measureInit s).totalBits = 0 := rfl
@[simp] theorem measureInit_busy (s : State) : (measureInit s).busy = s.busy := rfl
@[simp] theorem measureInit_done (s : State) : (measureInit s).done = s.done := rfl
@[simp] theorem measureInit_err (s : State) : (measureInit s).err = s.err := rfl
@[simp] theorem measureInit_engState (s : State) : (measureInit s).engState = s.engState := rfl
@[simp] theorem measureInit_hidden (s : State) : (measureInit s).hidden = s.hidden := rfl
@[simp] theorem measureInit_script (s : State) : (measureInit s).script = s.script := rfl
@[simp] theorem measureInit_reads (s : State) : (measureInit s).reads = s.reads := rfl
@[simp] theorem measureInit_resets (s : State) : (measureInit s).resets = s.resets := rfl
@[simp] theorem measureInit_workEra (s : State) : (measureInit s).workEra = s.workEra := rfl

@[simp] theorem encodeInit_params (s : State) : (encodeInit s).params = s.params := rfl
@[simp] theorem encodeInit_freq (s : State) : (encodeInit s).freq = s.freq := rfl
@[simp] theorem encodeInit_input (s : State) : (encodeInit s).input = s.input := rfl
@[simp] theorem encodeInit_out (s : State) : (encodeInit s).out = s.out := rfl
@[simp] theorem encodeInit_codes (s : State) : (encodeInit s).codes = s.codes := rfl
@[simp] theorem encodeInit_tree (s : State) : (encodeInit s).tree = s.tree := rfl
@[simp] theorem encodeInit_inLen (s : State) : (encodeInit s).inLen = s.inLen := rfl
@[simp] theorem encodeInit_inPos (s : State) : (encodeInit s).inPos = 0 := rfl
@[simp] theorem encodeInit_outCount (s : State) : (encodeInit s).outCount = 0 := rfl
@[simp] theorem encodeInit_skipCount (s : State) : (encodeInit s).skipCount = 0 := rfl
@[simp] theorem encodeInit_totalBits (s : State) : (encodeInit s).totalBits = s.totalBits := rfl
@[simp] theorem encodeInit_busy (s : State) : (encodeInit s).busy = s.busy := rfl
@[simp] theorem encodeInit_done (s : State) : (encodeInit s).done = s.done := rfl
@[simp] theorem encodeInit_err (s : State) : (encodeInit s).err = s.err := rfl
@[simp] theorem encodeInit_engState (s : State) : (encodeInit s).engState = s.engState := rfl
@[simp] theorem encodeInit_hidden (s : State) : (encodeInit s).hidden = s.hidden := rfl
@[simp] theorem encodeInit_script (s : State) : (encodeInit s).script = s.script := rfl
@[simp] theorem encodeInit_reads (s : State) : (encodeInit s).reads = s.reads := rfl
@[simp] theorem encodeInit_resets (s : State) : (encodeInit s).resets = s.resets := rfl
@[simp] theorem encodeInit_workEra (s : State) : (encodeInit s).workEra = s.workEra := rfl

end Sys2Proof.Machine
end

