-- ==== Sys2Proof/Laws/BitEncoder.lean ====
section
/-! SUPPORT. BitEncoder.lean: what the emission of a code, the loop of MEASURE and the loop of ENCODE do, said once. -/

namespace Sys2Proof.Machine

/-! ### Sums over the first input bytes -/

theorem bitsOfFirst_zero (s : State) : bitsOfFirst s 0 = 0 := rfl

theorem bitsOfFirst_succ (s : State) (k : Nat) :
    bitsOfFirst s (k + 1) = bitsOfFirst s k + (codeOfInput s k).length := by
  simp [bitsOfFirst, List.range_succ]

theorem missingInFirst_zero (s : State) : missingInFirst s 0 = 0 := rfl

theorem missingInFirst_succ (s : State) (k : Nat) :
    missingInFirst s (k + 1) = missingInFirst s k + if (codeOfInput s k).isEmpty then 1 else 0 := by
  simp [missingInFirst, List.range_succ, List.countP_append, List.countP_singleton]

theorem textOfFirst_zero (s : State) : textOfFirst s 0 = [] := rfl

theorem textOfFirst_succ (s : State) (k : Nat) :
    textOfFirst s (k + 1) = textOfFirst s k ++ codeOfInput s k := by
  simp [textOfFirst, List.range_succ, List.flatMap_append]

theorem textOfFirst_length (s : State) (k : Nat) : (textOfFirst s k).length = bitsOfFirst s k := by
  induction k with
  | zero => rfl
  | succ k ih => rw [textOfFirst_succ, List.length_append, ih, bitsOfFirst_succ]

theorem bitsOfFirst_mono (s : State) {k n : Nat} (h : k ≤ n) : bitsOfFirst s k ≤ bitsOfFirst s n := by
  induction n with
  | zero => rw [Nat.le_zero.mp h]
  | succ n ih =>
    rcases Nat.lt_or_eq_of_le h with h | rfl
    · exact (ih (Nat.le_of_lt_succ h)).trans (bitsOfFirst_succ s n ▸ Nat.le_add_right _ _)
    · exact Nat.le_refl _

theorem missingInFirst_le (s : State) (k : Nat) : missingInFirst s k ≤ k := by
  have := List.countP_le_length (p := fun i => (codeOfInput s i).isEmpty) (l := List.range k)
  simpa [missingInFirst] using this

/-! ### The emission of one code (rule R162) -/

/-- `writeRun` writes the symbols of the code from its start on, and no other element. -/
theorem cellGet_writeRun (out : List Host.Cell) (start : Nat) (code : Bits) (i : Nat) :
    cellGet (writeRun out start code) i =
      if start ≤ i ∧ i < start + code.length then (code[i - start]?).map outSymbol else cellGet out i := by
  induction code generalizing out start with
  | nil =>
    have : ¬ (start ≤ i ∧ i < start + ([] : Bits).length) := by simp
    rw [if_neg this]; rfl
  | cons b bs ih =>
    simp only [writeRun, ih, cellGet_cellSet, List.length_cons]
    rcases Nat.lt_trichotomy i start with h | h | h
    · rw [if_neg (by omega), if_neg (by omega), if_neg (by omega)]
    · subst h; rw [if_neg (by omega), if_pos rfl, if_pos (by omega)]; simp
    · by_cases hi : i < start + 1 + bs.length
      · obtain ⟨d, rfl⟩ : ∃ d, i = start + 1 + d := ⟨i - start - 1, by omega⟩
        rw [if_pos (by omega), if_pos (by omega)]
        rw [show start + 1 + d - (start + 1) = d by omega, show start + 1 + d - start = d + 1 by omega]
        simp
      · rw [if_neg (by omega), if_neg (by omega), if_neg (by omega)]

theorem writeRun_rising {out : List Host.Cell} (start : Nat) (c : Bits) (h : cellsRising out) :
    cellsRising (writeRun out start c) := by
  induction c generalizing out start with
  | nil => exact h
  | cons b bs ih => exact ih _ (cellSet_rising _ _ h)

theorem writeRun_below {out : List Host.Cell} {start n : Nat} {c : Bits} (hn : start + c.length ≤ n)
    (h : cellsBelow n out) : cellsBelow n (writeRun out start c) := by
  induction c generalizing out start with
  | nil => exact h
  | cons b bs ih =>
    simp only [List.length_cons] at hn
    exact ih (by omega) (cellSet_below _ (by omega) h)

/-! ### The loops (rules R165, R166) -/

/-- The loop of MEASURE, from a point where the counters are those of the input bytes before IN_POS. -/
theorem measureLoop_spec (n : Nat) (s : State) (hb : s.totalBits = bitsOfFirst s s.inPos)
    (hm : s.skipCount = missingInFirst s s.inPos) :
    measureLoop n s =
      { s with
        totalBits := bitsOfFirst s (s.inPos + n)
        inPos := s.inPos + n
        skipCount := missingInFirst s (s.inPos + n) } := by
  induction n generalizing s with
  | zero => rw [Nat.add_zero, ← hb, ← hm]; rfl
  | succ n ih =>
    have hsucc : s.inPos + (n + 1) = s.inPos + 1 + n := by omega
    have hlen : (codeAt s (inputAt s s.inPos).toNat) = codeOfInput s s.inPos := rfl
    simp only [measureLoop, hlen]
    split
    · next h0 =>
      have hnil := List.length_eq_zero_iff.mp h0
      rw [ih (skipByte s)]
      · rw [hsucc]; rfl
      · show s.totalBits = bitsOfFirst s (s.inPos + 1)
        rw [bitsOfFirst_succ, hnil, hb]; rfl
      · show s.skipCount + 1 = missingInFirst s (s.inPos + 1)
        rw [missingInFirst_succ, hnil, hm]; rfl
    · next h0 =>
      rw [ih (countCode _ s)]
      · rw [hsucc]; rfl
      · show s.totalBits + _ = bitsOfFirst s (s.inPos + 1)
        rw [bitsOfFirst_succ, hb]
      · show s.skipCount = missingInFirst s (s.inPos + 1)
        have : (codeOfInput s s.inPos).isEmpty = false := by
          cases h : codeOfInput s s.inPos with
          | nil => simp [h] at h0
          | cons _ _ => rfl
        rw [missingInFirst_succ, this, hm]; rfl

/-- OUT_COUNT and SKIP_COUNT are those of the input bytes before IN_POS, and OUT holds their codes. -/
structure Emitted (s : State) (out : List Host.Cell) (k : Nat) : Prop where
  text : ∀ i b, (textOfFirst s k)[i]? = some b → cellGet out i = some (outSymbol b)
  rest : ∀ i, bitsOfFirst s k ≤ i → cellGet out i = cellGet s.out i
  rising : cellsRising s.out → cellsRising out
  below : cellsBelow s.params.outCap s.out → cellsBelow s.params.outCap out

theorem Emitted.skip {s : State} {out : List Host.Cell} {k : Nat} (h : Emitted s out k)
    (hnil : codeOfInput s k = []) : Emitted s out (k + 1) where
  text := by rw [textOfFirst_succ, hnil, List.append_nil]; exact h.text
  rest := by rw [bitsOfFirst_succ, hnil]; exact h.rest
  rising := h.rising
  below := h.below

theorem Emitted.append {s : State} {out : List Host.Cell} {k : Nat} (h : Emitted s out k)
    (hfit : bitsOfFirst s (k + 1) ≤ s.params.outCap) :
    Emitted s (writeRun out (bitsOfFirst s k) (codeOfInput s k)) (k + 1) where
  text := by
    intro i b hi
    rw [textOfFirst_succ, List.getElem?_append, textOfFirst_length] at hi
    rw [cellGet_writeRun]
    by_cases hlt : i < bitsOfFirst s k
    · rw [if_neg (by omega)]
      rw [if_pos hlt] at hi
      exact h.text i b hi
    · rw [if_neg hlt] at hi
      have := (List.getElem?_eq_some_iff.mp hi).1
      rw [if_pos (by omega), hi]; rfl
  rest := by
    intro i hi
    rw [bitsOfFirst_succ] at hi
    rw [cellGet_writeRun, if_neg (by omega)]
    exact h.rest i (by omega)
  rising hr := writeRun_rising _ _ (h.rising hr)
  below hb := writeRun_below (by rw [bitsOfFirst_succ] at hfit; exact hfit) (h.below hb)

/-- ENCODE after the given number of input bytes have been done. -/
def encodeAfter (s : State) (out : List Host.Cell) (k : Nat) : State :=
  { s with out := out, outCount := bitsOfFirst s k, inPos := k, skipCount := missingInFirst s k }

/-- The loop of ENCODE, from a point where `k` input bytes of `s` have been done: it does all of them, or stops at the
first whose code does not fit. -/
theorem encodeLoop_spec (s : State) (n k : Nat) (out : List Host.Cell) (hk : bitsOfFirst s k ≤ s.params.outCap)
    (he : Emitted s out k) :
    (bitsOfFirst s (k + n) ≤ s.params.outCap ∧
      ∃ out', Emitted s out' (k + n) ∧ encodeLoop n (encodeAfter s out k) = finish (encodeAfter s out' (k + n))) ∨
    (∃ m out', k ≤ m ∧ m < k + n ∧ bitsOfFirst s m ≤ s.params.outCap ∧ s.params.outCap < bitsOfFirst s (m + 1) ∧
      Emitted s out' m ∧ encodeLoop n (encodeAfter s out k) = raiseError .bufferExhausted (encodeAfter s out' m)) := by
  induction n generalizing k out with
  | zero => exact .inl ⟨hk, out, he, rfl⟩
  | succ n ih =>
    have hsucc : k + (n + 1) = k + 1 + n := by omega
    have hcode : codeAt (encodeAfter s out k) (inputAt (encodeAfter s out k) (encodeAfter s out k).inPos).toNat =
      codeOfInput s k := rfl
    have hcnt : (encodeAfter s out k).outCount = bitsOfFirst s k := rfl
    have hcap : (encodeAfter s out k).params = s.params := rfl
    simp only [encodeLoop, hcode, hcnt, hcap]
    split
    · next h0 =>
      have hnil := List.length_eq_zero_iff.mp h0
      have hstep : skipByte (encodeAfter s out k) = encodeAfter s out (k + 1) := by
        simp only [encodeAfter, bitsOfFirst_succ, missingInFirst_succ, hnil]; rfl
      rw [hstep, hsucc]
      have hk' : bitsOfFirst s (k + 1) ≤ s.params.outCap := by rw [bitsOfFirst_succ, hnil]; exact hk
      refine (ih (k + 1) out hk' (he.skip hnil)).imp id ?_
      rintro ⟨m, out', h1, h2⟩
      exact ⟨m, out', by omega, h2⟩
    · next h0 =>
      split
      · next hfull =>
        exact .inr ⟨k, out, Nat.le_refl _, by omega, hk, by rw [bitsOfFirst_succ]; exact hfull, he, rfl⟩
      · next hfit =>
        have hk' : bitsOfFirst s (k + 1) ≤ s.params.outCap := by rw [bitsOfFirst_succ]; omega
        have hne : (codeOfInput s k).isEmpty = false := by
          cases h : codeOfInput s k with
          | nil => simp [h] at h0
          | cons _ _ => rfl
        have hstep : appendCode (codeOfInput s k) (encodeAfter s out k) =
            encodeAfter s (writeRun out (bitsOfFirst s k) (codeOfInput s k)) (k + 1) := by
          simp only [encodeAfter, bitsOfFirst_succ, missingInFirst_succ, hne]; rfl
        rw [hstep, hsucc]
        refine (ih (k + 1) _ hk' (he.append hk')).imp id ?_
        rintro ⟨m, out', h1, h2⟩
        exact ⟨m, out', by omega, h2⟩

end Sys2Proof.Machine
end

