-- ==== Sys2Proof/Laws/Tree.lean ====
section
/-! SUPPORT. Tree.lean: what the tree case of rule R42 says of kinds, children and paths. -/

namespace Sys2Proof.Machine

/-- A node below NODE_COUNT is a leaf below LEAF_COUNT or an internal node above, whose children stand before it. -/
theorem treeCase_kinds {t : Tree} (h : TreeCase t) {i} (hi : i < t.nodeCount) :
    (i < t.leafCount ∧ ∃ sym w, nodeAt t i = .leaf sym w) ∨
    (t.leafCount ≤ i ∧ ∃ w l r, nodeAt t i = .internal w l r ∧ l < i ∧ r < i ∧ l ≠ r) := by
  by_cases hl : i < t.leafCount
  · obtain ⟨s, w, e, _⟩ := h.leafNodes i hl; exact .inl ⟨hl, s, w, e⟩
  · obtain ⟨l, r, e, h1⟩ := h.internalNodes i (by omega) hi; exact .inr ⟨by omega, _, l, r, e, h1⟩

/-- An internal node stands between LEAF_COUNT and NODE_COUNT, behind its two different children. -/
theorem treeCase_internal {t : Tree} (h : TreeCase t) {i w l r} (e : nodeAt t i = .internal w l r) :
    t.leafCount ≤ i ∧ i < t.nodeCount ∧ l < i ∧ r < i ∧ l ≠ r := by
  have hi : i < t.nodeCount := by
    by_contra hc; rw [h.freeNodes i (by omega)] at e; cases e
  rcases treeCase_kinds h hi with ⟨_, s, w', e'⟩ | ⟨h1, w', l', r', e', h2⟩
  · rw [e'] at e; cases e
  · rw [e'] at e; cases e; exact ⟨h1, hi, h2⟩

/-- Every edge leads to a smaller index. -/
theorem descend_index_le {t : Tree} (h : TreeCase t) :
    ∀ (c : Bits) (i j : Nat), descend t i c = some j → j + c.length ≤ i ∨ (c = [] ∧ j = i) := by
  intro c
  induction c with
  | nil => intro i j e; right; simp [descend] at e; exact ⟨rfl, e.symm⟩
  | cons b bs ih =>
    intro i j e
    left
    simp only [descend] at e
    split at e
    · cases e
    · cases e
    · next w l r hn =>
      have := treeCase_internal h hn
      rcases ih _ _ e with h1 | ⟨rfl, rfl⟩
      · have : (if b then r else l) < i := by split <;> omega
        simp; omega
      · simp; split <;> omega

/-- A path is no longer than the number of internal nodes it can pass. -/
theorem descend_length_le {t : Tree} (h : TreeCase t) :
    ∀ (c : Bits) (i j : Nat), descend t i c = some j → c ≠ [] → c.length + t.leafCount ≤ i + 1 := by
  intro c
  induction c with
  | nil => intro i j e hc; exact absurd rfl hc
  | cons b bs ih =>
    intro i j e _
    simp only [descend] at e
    split at e
    · cases e
    · cases e
    · next w l r hn =>
      have h1 := treeCase_internal h hn
      have h2 : (if b then r else l) < i := by split <;> omega
      by_cases hb : bs = []
      · subst hb; simp; omega
      · have := ih _ _ e hb; simp; omega

/-- A path of two parts. -/
theorem descend_append (t : Tree) :
    ∀ (c d : Bits) (i : Nat), descend t i (c ++ d) = (descend t i c).bind fun j => descend t j d := by
  intro c d
  induction c with
  | nil => intro i; rfl
  | cons b bs ih =>
    intro i
    simp only [List.cons_append, descend]
    split <;> simp [ih]

/-- The last edge of a path. -/
theorem descend_snoc {t i j c b} (e : descend t i (c ++ [b]) = some j) :
    ∃ k w l r, descend t i c = some k ∧ nodeAt t k = .internal w l r ∧ j = if b then r else l := by
  rw [descend_append] at e
  cases hk : descend t i c with
  | none => simp [hk] at e
  | some k =>
    simp only [hk, Option.bind_some, descend] at e
    split at e
    · cases e
    · cases e
    · next w l r hn => simp at e; exact ⟨k, w, l, r, rfl, hn, e.symm⟩

/-- A node has one parent only. -/
theorem treeCase_parent_unique {t : Tree} (h : TreeCase t) {c i j : Nat} (hi : childOf t c i)
    (hj : childOf t c j) : i = j := by
  have hc : c + 1 < t.nodeCount := by
    obtain ⟨w, l, r, e, hc⟩ := hi
    have := treeCase_internal h e
    have : c < i := by rcases hc with rfl | rfl <;> omega
    omega
  obtain ⟨k, _, hk⟩ := h.oneParent c hc
  rw [hk i hi, hk j hj]

/-- Two paths between the same nodes are the same. -/
theorem descend_unique {t : Tree} (h : TreeCase t) :
    ∀ (c d : Bits) (i j : Nat), descend t i c = some j → descend t i d = some j → c = d := by
  intro c
  induction c using List.reverseRecOn with
  | nil =>
    intro d i j e1 e2
    simp [descend] at e1; subst e1
    rcases descend_index_le h d _ _ e2 with h1 | ⟨h1, _⟩
    · exact (List.length_eq_zero_iff.mp (by omega)).symm
    · exact h1.symm
  | append_singleton c b ih =>
    intro d i j e1 e2
    rcases List.eq_nil_or_concat d with rfl | ⟨d, b', rfl⟩
    · simp [descend] at e2; subst e2
      rcases descend_index_le h _ _ _ e1 with h1 | ⟨h1, _⟩
      · simp at h1
      · simp at h1
    · rw [List.concat_eq_append] at *
      obtain ⟨k, w, l, r, h1, h2, h3⟩ := descend_snoc e1
      obtain ⟨k', w', l', r', h1', h2', h3'⟩ := descend_snoc e2
      have hc : childOf t j k := ⟨w, l, r, h2, by rw [h3]; cases b <;> simp⟩
      have hc' : childOf t j k' := ⟨w', l', r', h2', by rw [h3']; cases b' <;> simp⟩
      have := treeCase_parent_unique h hc hc'; subst this
      rw [h2'] at h2; cases h2
      have hne := (treeCase_internal h h2').2.2.2.2
      have hb : b = b' := by
        subst h3
        cases b <;> cases b' <;> simp_all
      rw [ih d i k h1 h1', hb]

/-- A leaf stands below LEAF_COUNT. -/
theorem treeCase_leaf_lt {t : Tree} (h : TreeCase t) {i : Nat} {s : Byte} {w : Nat}
    (e : nodeAt t i = .leaf s w) : i < t.leafCount := by
  have hi : i < t.nodeCount := by
    by_contra hc; rw [h.freeNodes i (by omega)] at e; cases e
  rcases treeCase_kinds h hi with ⟨h1, _⟩ | ⟨h1, w', l', r', e', h2⟩
  · exact h1
  · rw [e'] at e; cases e

/-- Two leaves of one symbol are the same leaf. -/
theorem treeCase_symbol_unique {t : Tree} (h : TreeCase t) {i j s w s' w'} (e : nodeAt t i = .leaf s w)
    (e' : nodeAt t j = .leaf s' w') (hs : s.toNat = s'.toNat) : i = j := by
  have hi := treeCase_leaf_lt h e
  have hj := treeCase_leaf_lt h e'
  rcases Nat.lt_trichotomy i j with hlt | rfl | hlt
  · have := h.symbolsRise i j hlt hj; rw [e, e'] at this; simp [Node.sym] at this; omega
  · rfl
  · have := h.symbolsRise j i hlt hi; rw [e, e'] at this; simp [Node.sym] at this; omega

/-- Every node can be reached from ROOT. -/
theorem treeCase_reaches {t : Tree} (h : TreeCase t) :
    ∀ d c, c + d + 1 = t.nodeCount → ∃ p, descend t t.root p = some c := by
  intro d
  induction d using Nat.strongRecOn with
  | _ d ih =>
    intro c hc
    by_cases hd : d = 0
    · have : c = t.root := by have := h.root; have := h.nodeCount; have := h.leaves; omega
      exact ⟨[], by simp [descend, this]⟩
    · obtain ⟨i, hi, _⟩ := h.oneParent c (by omega)
      obtain ⟨w, l, r, e, hc'⟩ := hi
      have := treeCase_internal h e
      obtain ⟨p, hp⟩ := ih (t.nodeCount - 1 - i) (by rcases hc' with rfl | rfl <;> omega) i (by omega)
      rcases hc' with rfl | rfl
      · exact ⟨p ++ [false], by rw [descend_append, hp]; simp [descend, e]⟩
      · exact ⟨p ++ [true], by rw [descend_append, hp]; simp [descend, e]⟩

/-- `c` leads from node `i` down to the leaf of byte value `b`. -/
def leafBelow (t : Tree) (i b : Nat) (c : Bits) : Prop :=
  ∃ j sym w, descend t i c = some j ∧ nodeAt t j = .leaf sym w ∧ sym.toNat = b

/-- One path to each symbol. -/
theorem leafBelow_unique {t : Tree} (h : TreeCase t) {i b c d} (h1 : leafBelow t i b c)
    (h2 : leafBelow t i b d) : c = d := by
  obtain ⟨j, s, w, e1, e2, e3⟩ := h1
  obtain ⟨j', s', w', e1', e2', e3'⟩ := h2
  have := treeCase_symbol_unique h e2 e2' (by omega); subst this
  exact descend_unique h c d i j e1 e1'

/-- Below an internal node the paths start with 0 to the left and with 1 to the right. -/
theorem leafBelow_internal {t i w l r} (hn : nodeAt t i = .internal w l r) (b : Nat) (c : Bits) :
    leafBelow t i b c ↔ (∃ d, c = false :: d ∧ leafBelow t l b d) ∨ (∃ d, c = true :: d ∧ leafBelow t r b d) := by
  constructor
  · rintro ⟨j, s, w', e1, e2, e3⟩
    cases c with
    | nil => simp [descend] at e1; subst e1; rw [hn] at e2; cases e2
    | cons x xs =>
      simp only [descend, hn] at e1
      cases x
      · exact .inl ⟨xs, rfl, j, s, w', by simpa using e1, e2, e3⟩
      · exact .inr ⟨xs, rfl, j, s, w', by simpa using e1, e2, e3⟩
  · rintro (⟨d, rfl, j, s, w', e1, e2, e3⟩ | ⟨d, rfl, j, s, w', e1, e2, e3⟩)
    · exact ⟨j, s, w', by simp [descend, hn, e1], e2, e3⟩
    · exact ⟨j, s, w', by simp [descend, hn, e1], e2, e3⟩

/-- No symbol stands on both sides of an internal node. -/
theorem leafBelow_disjoint {t : Tree} (h : TreeCase t) {i w l r} (hn : nodeAt t i = .internal w l r) {b c d}
    (h1 : leafBelow t l b c) (h2 : leafBelow t r b d) : False := by
  have := leafBelow_unique h ((leafBelow_internal hn b (false :: c)).mpr (.inl ⟨c, rfl, h1⟩))
    ((leafBelow_internal hn b (true :: d)).mpr (.inr ⟨d, rfl, h2⟩))
  cases this

end Sys2Proof.Machine
end

