-- ==== Sys2Proof/Laws/CodeDerivator.lean ====
section
/-! SUPPORT. CodeDerivator.lean: what `walk` does on a subtree (rules R142, R148), and what writing a bit of PATH does to
the bit-string PATH holds (rules R39, R152). -/

namespace Sys2Proof.Machine

/-- Writing one bit of PATH. -/
theorem setPathBit_get (path : BitVec 255) (b : Bool) {j k : Nat} (hk : k < 255) (hj : j < 255) :
    (setPathBit path k b).getLsbD j = if j = k then b else path.getLsbD j := by
  have h1 : (1#255 <<< k).getLsbD j = decide (j = k) := by
    rw [BitVec.getLsbD_shiftLeft]
    by_cases e : j = k
    · subst e; simp [hj]
    · rcases Nat.lt_or_gt_of_ne e with h | h
      · simp [h, e]
      · have : j - k ≠ 0 := by omega
        simp [e, BitVec.getLsbD_one, this]
  unfold setPathBit
  cases b
  · simp only [Bool.false_eq_true, if_false, BitVec.getLsbD_and, BitVec.getLsbD_not, h1, hj]
    by_cases e : j = k <;> simp [e]
  · simp only [if_true, BitVec.getLsbD_or, h1]
    by_cases e : j = k <;> simp [e]

theorem pathCode_length (path : BitVec 255) (depth : Nat) : (pathCode path depth).length = depth := by
  simp [pathCode]

/-- The bits from DEPTH on are not part of the path. -/
theorem pathCode_congr {p q : BitVec 255} {d : Nat} (h : ∀ j, j < d → p.getLsbD j = q.getLsbD j) :
    pathCode p d = pathCode q d :=
  List.map_congr_left fun j hj => h j (List.mem_range.mp hj)

/-- Going one edge down appends its bit. -/
theorem pathCode_setPathBit (path : BitVec 255) {d : Nat} (b : Bool) (hd : d < 255) :
    pathCode (setPathBit path d b) (d + 1) = pathCode path d ++ [b] := by
  have h1 : pathCode (setPathBit path d b) (d + 1) =
      pathCode (setPathBit path d b) d ++ [(setPathBit path d b).getLsbD d] := by
    simp [pathCode, List.range_succ]
  rw [h1, setPathBit_get path b hd hd, if_pos rfl]
  congr 1
  exact pathCode_congr fun j hj => by rw [setPathBit_get path b hd (by omega), if_neg (by omega)]

/-- `walk` from a node of a tree ends, gives every symbol below the node its path behind the one walked so far, and
writes no other entry. -/
theorem walk_spec {t : Tree} (h : TreeCase t) (fuel i : Nat) (p : Bits) (codes : Cells Bits) (hi : i < t.nodeCount)
    (hf : i < fuel) (hp : p ≠ [] ∨ t.leafCount ≤ i) :
    ∃ codes', walk t fuel i p codes = some codes' ∧
      (∀ b c, leafBelow t i b c → storeCode codes' b = p ++ c) ∧
      (∀ b, (∀ c, ¬ leafBelow t i b c) → storeCode codes' b = storeCode codes b) := by
  induction fuel generalizing i p codes with
  | zero => omega
  | succ fuel ih =>
    rcases treeCase_kinds h hi with ⟨hl, s, w, e⟩ | ⟨hl, w, l, r, e, h1, h2, hne⟩
    · have hp : p ≠ [] := hp.resolve_right (by omega)
      have hlp : ∀ b c, leafBelow t i b c ↔ c = [] ∧ s.toNat = b := by
        intro b c
        constructor
        · rintro ⟨j, s', w', e1, e2, e3⟩
          cases c with
          | nil => simp [descend] at e1; subst e1; rw [e] at e2; cases e2; exact ⟨rfl, e3⟩
          | cons x xs => simp [descend, e] at e1
        · rintro ⟨rfl, hb⟩; exact ⟨i, s, w, rfl, e, hb⟩
      refine ⟨setCode codes s.toNat p, by simp only [walk, e], ?_, ?_⟩
      · intro b c hc; obtain ⟨rfl, rfl⟩ := (hlp b c).mp hc; simp [storeCode_setCode hp]
      · intro b hb
        rw [storeCode_setCode hp, if_neg]; intro hb'; exact hb [] ((hlp _ _).mpr ⟨rfl, hb'.symm⟩)
    · obtain ⟨c1, w1, a1, a2⟩ := ih l (p ++ [false]) codes (by omega) (by omega) (.inl (by simp))
      obtain ⟨c2, w2, b1, b2⟩ := ih r (p ++ [true]) c1 (by omega) (by omega) (.inl (by simp))
      refine ⟨c2, by simp only [walk, e, w1, w2], ?_, ?_⟩
      · intro b c hc
        rcases (leafBelow_internal e b c).mp hc with ⟨d, rfl, hd⟩ | ⟨d, rfl, hd⟩
        · rw [b2 b (fun c hc => leafBelow_disjoint h e hd hc), a1 b d hd]; simp
        · rw [b1 b d hd]; simp
      · intro b hb
        rw [b2 b (fun c hc => hb _ ((leafBelow_internal e b _).mpr (.inr ⟨c, rfl, hc⟩))),
          a2 b (fun c hc => hb _ ((leafBelow_internal e b _).mpr (.inl ⟨c, rfl, hc⟩)))]

end Sys2Proof.Machine
end

