-- ==== Sys2Proof/Laws/Issue.lean ====
section
/-! SUPPORT. Issue.lean: everything the issue of a command, a host access and a turn of the machine can do, said once
each, so that no proof about a step unfolds them. -/

namespace Sys2Proof.Machine

variable {s t : State}

/-- What the issue of a legal word can answer (rule R102). -/
theorem issueCommand_cases {i : Instr} {start : EngState} {body : State → Out}
    (h : issueCommand i start body s = .next t) :
    s.busy = false ∧
      ((∃ e, issueError i s = some e ∧ t = refuseCommand e s) ∨
        (issueError i s = none ∧ s.params.level = .command ∧ body (acceptCommand i s) = .next t) ∨
        (issueError i s = none ∧ s.params.level = .step ∧ t = { acceptCommand i s with engState := start })) := by
  unfold issueCommand at h
  split at h
  · cases h
  · next hb =>
    refine ⟨by simpa using hb, ?_⟩
    split at h
    · next e he => cases h; exact .inl ⟨e, he, rfl⟩
    · next he =>
      split at h
      · next hl => exact .inr (.inl ⟨he, hl, h⟩)
      · next hl => cases h; exact .inr (.inr ⟨he, hl, rfl⟩)

/-- What the issue of any word can answer (rule R102). -/
theorem issueWord_cases {w : BitVec 8} (h : issueWord w s = .next t) :
    s.busy = false ∧
      ((decode w = none ∧ t = refuseCommand .illegalCommand s) ∨ ∃ i, decode w = some i ∧ exec i s = .next t) := by
  unfold issueWord at h
  split at h
  · cases h
  · next hb =>
    refine ⟨by simpa using hb, ?_⟩
    split at h
    · next hd => cases h; exact .inl ⟨hd, rfl⟩
    · next i hd => exact .inr ⟨i, hd, h⟩

/-- What a host read can answer (rule R100). -/
theorem hostRead_cases {space index : Nat} (h : hostRead space index s = .next t) :
    ∃ pl, decodePlace s.params space index = some pl ∧ (s.busy = true → pl = .csr .status) ∧
      t = { s with reads := s.reads ++ [placeRead s pl] } := by
  unfold hostRead at h
  split at h
  · cases h
  · next pl hp =>
    split at h
    · cases h
    · next hb =>
      cases h
      exact ⟨pl, hp, fun hbusy => Classical.byContradiction fun hne => hb ⟨hbusy, hne⟩, rfl⟩

/-- What a host write can answer (rules R101, R102). -/
theorem hostWrite_cases {space index v : Nat} (h : hostWrite space index v s = .next t) :
    ∃ pl, decodePlace s.params space index = some pl ∧ v < 2 ^ placeWidth s.params pl ∧ s.busy = false ∧
      ((pl = .csr .cmd ∧ issueWord (BitVec.ofNat 8 v) s = .next t) ∨ (pl ≠ .csr .cmd ∧ t = writePlace pl v s)) := by
  unfold hostWrite at h
  split at h
  · cases h
  · next pl hp =>
    split at h
    · cases h
    · next hw =>
      split at h
      · cases h
      · next hb =>
        refine ⟨pl, hp, Nat.lt_of_not_le hw, by simpa using hb, ?_⟩
        split at h
        · next hc => exact .inl ⟨hc, h⟩
        · next hc => cases h; exact .inr ⟨hc, rfl⟩

/-- What a host write changes when its place is not CMD: one of FREQ, IN and IN_LEN (rules R70, R101). -/
theorem writePlace_cases (pl : Place) (v : Nat) (s : State) :
    writePlace pl v s = s ∨ (pl = .csr .inLen ∧ writePlace pl v s = { s with inLen := v }) ∨
      (∃ b, pl = .freq b ∧ writePlace pl v s = { s with freq := cellSet s.freq b v }) ∨
      (∃ i, pl = .input i ∧ writePlace pl v s = { s with input := cellSet s.input i (BitVec.ofNat 8 v) }) := by
  cases pl with
  | csr r =>
    by_cases hr : r = .inLen
    · subst hr; exact .inr (.inl ⟨rfl, rfl⟩)
    · exact .inl (by simp [writePlace, hr])
  | freq b => exact .inr (.inr (.inl ⟨b, rfl, rfl⟩))
  | input i => exact .inr (.inr (.inr ⟨i, rfl, rfl⟩))
  | out _ => exact .inl rfl
  | codeLen _ => exact .inl rfl
  | codeBits _ => exact .inl rfl
  | node _ => exact .inl rfl
  | work _ => exact .inl rfl

/-- Everything a step can be: a step of the engine, a host read, a host write of data, an illegal word, a command, the
end of a WAIT, or the reset event. -/
theorem step_cases (h : step s = .next t) :
    ∃ rest, (s.script = [] ∧ rest = [] ∨ (∃ op, s.script = op :: rest) ∨ (s.busy = true ∧ rest = s.script)) ∧
      let s' := { s with script := rest }
      (engineStep s' = .next t) ∨
      (∃ space index pl, decodePlace s.params space index = some pl ∧ (s.busy = true → pl = .csr .status) ∧
        t = { s' with reads := s.reads ++ [placeRead s' pl] }) ∨
      (∃ space index pl v, decodePlace s.params space index = some pl ∧ v < 2 ^ placeWidth s.params pl ∧
        s.busy = false ∧ pl ≠ .csr .cmd ∧ t = writePlace pl v s') ∨
      (s.busy = false ∧ t = refuseCommand .illegalCommand s') ∨
      (∃ i, s.busy = false ∧ exec i s' = .next t) ∨
      (s.busy = false ∧ t = s') ∨
      (t = resetEvent s') := by
  simp only [step, turn] at h
  split at h
  · next hs => exact ⟨[], .inl ⟨hs, rfl⟩, .inl (by rw [← hs]; exact h)⟩
  · next op rest hs =>
    cases op with
    | read space index =>
      obtain ⟨pl, h1, h2, h3⟩ := hostRead_cases h
      exact ⟨rest, .inr (.inl ⟨_, hs⟩), .inr (.inl ⟨space, index, pl, h1, h2, h3⟩)⟩
    | write space index v =>
      refine ⟨rest, .inr (.inl ⟨_, hs⟩), ?_⟩
      obtain ⟨pl, h1, h2, h3, ⟨_, h4⟩ | ⟨h4, h5⟩⟩ := hostWrite_cases h
      · rcases issueWord_cases h4 with ⟨_, ⟨_, h5⟩ | ⟨i, _, h5⟩⟩
        · exact .inr (.inr (.inr (.inl ⟨h3, h5⟩)))
        · exact .inr (.inr (.inr (.inr (.inl ⟨i, h3, h5⟩))))
      · exact .inr (.inr (.inl ⟨space, index, pl, v, h1, h2, h3, h4, h5⟩))
    | wait =>
      simp only [hostTurn] at h
      split at h
      · next hb => exact ⟨s.script, .inr (.inr ⟨hb, rfl⟩), .inl h⟩
      · next hb =>
        cases h
        exact ⟨rest, .inr (.inl ⟨_, hs⟩), .inr (.inr (.inr (.inr (.inr (.inl ⟨by simpa using hb, rfl⟩)))))⟩
    | pass => exact ⟨rest, .inr (.inl ⟨_, hs⟩), .inl h⟩
    | reset =>
      cases h
      exact ⟨rest, .inr (.inl ⟨_, hs⟩), .inr (.inr (.inr (.inr (.inr (.inr rfl)))))⟩

end Sys2Proof.Machine
end

