-- ==== Sys2Proof/Laws/Run.lean ====
section
/-! SUPPORT. Run.lean: runs of several steps, and what one step of the engine can do at Level B where the state of the
engine alone does not say it. -/

namespace Sys2Proof.Machine

variable {s t u : State}

/-- Two runs, one behind the other. -/
theorem runFor_trans {a b : Nat} (h1 : runFor a s = .next t) (h2 : runFor b t = .next u) :
    runFor (a + b) s = .next u := by
  induction a generalizing s with
  | zero => cases h1; rw [Nat.zero_add]; exact h2
  | succ a ih =>
    rw [Nat.succ_add]
    simp only [runFor] at h1 ⊢
    split at h1
    · exact ih h1
    · cases h1
    · cases h1

/-- With nothing left for the host to do, a step is a step of the engine. -/
theorem step_of_script_nil (hs : s.script = []) : step s = engineStep s := by
  simp only [step, turn, hs]

theorem runFor_engine {b : Nat} (hs : s.script = []) (h1 : engineStep s = .next t) (h2 : runFor b t = .next u) :
    runFor (b + 1) s = .next u := by
  simp only [runFor, step_of_script_nil hs, h1]; exact h2

/-- `n` steps lead from `s` to `t`, and BUSY = 1 in `s` and after every smaller number of steps. -/
def BusyRun (n : Nat) (s t : State) : Prop :=
  runFor n s = .next t ∧ ∀ k, k < n → ∃ m, runFor k s = .next m ∧ m.busy = true

/-- No step at all. -/
theorem BusyRun.nil (s : State) : BusyRun 0 s s := ⟨rfl, nofun⟩

/-- Two busy runs, one behind the other. -/
theorem BusyRun.trans {a b : Nat} (h1 : BusyRun a s t) (h2 : BusyRun b t u) : BusyRun (a + b) s u := by
  refine ⟨runFor_trans h1.1 h2.1, fun k hk => ?_⟩
  by_cases hka : k < a
  · exact h1.2 k hka
  · obtain ⟨m, hm, hb⟩ := h2.2 (k - a) (by omega)
    have := runFor_trans h1.1 hm
    rw [show a + (k - a) = k by omega] at this
    exact ⟨m, this, hb⟩

/-- One step of a running engine, the host having nothing left to do. -/
theorem BusyRun.one (hs : s.script = [] ∧ s.busy = true) (h : engineStep s = .next t) : BusyRun 1 s t :=
  ⟨by simp only [runFor, step_of_script_nil hs.1, h], fun k hk => by
    obtain rfl : k = 0 := by omega
    exact ⟨s, rfl, hs.2⟩⟩

/-- One step of a running engine in front of a busy run. -/
theorem BusyRun.cons {b : Nat} (hs : s.script = [] ∧ s.busy = true) (h1 : engineStep s = .next t)
    (h2 : BusyRun b t u) : BusyRun (b + 1) s u := by
  rw [Nat.add_comm]; exact (BusyRun.one hs h1).trans h2

/-- A command that ends at its issue takes one step. -/
theorem takesSteps_one (h : step s = .next t) (ht : t.busy = false) : TakesSteps 1 s t :=
  ⟨by simp only [runFor, h], ht, fun k h1 hk => by omega⟩

/-- A command whose issue is followed by a busy run of `n` steps takes `n + 1`. -/
theorem takesSteps_of_busyRun {n : Nat} (h1 : step s = .next t) (h2 : BusyRun n t u) (hu : u.busy = false) :
    TakesSteps (n + 1) s u := by
  refine ⟨by simp only [runFor, h1]; exact h2.1, hu, fun k hk hkn => ?_⟩
  obtain ⟨m, hm, hb⟩ := h2.2 (k - 1) (by omega)
  refine ⟨m, ?_, hb⟩
  rw [show k = k - 1 + 1 by omega]
  simp only [runFor, h1]
  exact hm

/-- B_SEED (rule R125). -/
theorem stepBSeed_cases (h : stepBSeed s = .next t) :
    s.hidden.scan ≤ 255 ∧ s.tree.nodeCount ≤ 510 ∧ s.tree.work.length ≤ 255 ∧
      t =
        { s with
          tree := seedByte s.hidden.scan (freqAt s s.hidden.scan) s.tree
          hidden := { s.hidden with scan := s.hidden.scan + 1 }
          engState := if s.hidden.scan = 255 then .bCheck else s.engState } := by
  unfold stepBSeed at h
  simp only [] at h
  split at h
  · cases h
  · refine ⟨by omega, by omega, by omega, ?_⟩
    split at h <;> next hb => cases h; simp only [hb, if_true, if_false]

/-- B_MERGE (rule R128). -/
theorem stepBMerge_cases (h : stepBMerge s = .next t) :
    2 ≤ s.tree.work.length ∧ s.tree.nodeCount ≤ 510 ∧
      t = { s with tree := mergeFirstTwo s.tree, engState := .bCheck } := by
  unfold stepBMerge at h
  split at h
  · cases h
  · cases h; exact ⟨by omega, by omega, rfl⟩

/-- D_VISIT (rule R152). -/
theorem stepDVisit_cases (h : stepDVisit s = .next t) :
    (∃ sym w, nodeAt s.tree s.hidden.cur = .leaf sym w ∧ s.hidden.stack = [] ∧
      t = finish { s with codes := setCode s.codes sym.toNat (pathCode s.hidden.path s.hidden.depth) }) ∨
    (∃ sym w e rest, nodeAt s.tree s.hidden.cur = .leaf sym w ∧ s.hidden.stack = e :: rest ∧
      1 ≤ e.depth ∧ e.depth ≤ 255 ∧
      t =
        { s with
          codes := setCode s.codes sym.toNat (pathCode s.hidden.path s.hidden.depth)
          hidden :=
            { s.hidden with
              stack := rest
              cur := e.node
              path := setPathBit s.hidden.path (e.depth - 1) true
              depth := e.depth } }) ∨
    (∃ w l r, nodeAt s.tree s.hidden.cur = .internal w l r ∧ s.hidden.stack.length ≤ 254 ∧ s.hidden.depth ≤ 254 ∧
      t =
        { s with
          hidden :=
            { s.hidden with
              stack := ⟨r, s.hidden.depth + 1⟩ :: s.hidden.stack
              path := setPathBit s.hidden.path s.hidden.depth false
              cur := l
              depth := s.hidden.depth + 1 } }) := by
  unfold stepDVisit at h
  simp only [] at h
  split at h
  · cases h
  · next sym w hn =>
    split at h
    · next hs => cases h; exact .inl ⟨sym, w, hn, hs, rfl⟩
    · next e rest hs =>
      split at h
      · cases h
      · cases h; exact .inr (.inl ⟨sym, w, e, rest, hn, hs, by omega, by omega, rfl⟩)
  · next w l r hn =>
    split at h
    · cases h
    · cases h; exact .inr (.inr ⟨w, l, r, hn, by omega, by omega, rfl⟩)

/-- X_FETCH (rule R172). -/
theorem stepXFetch_cases (h : stepXFetch s = .next t) :
    (s.inPos = s.inLen ∧ t = finish s) ∨
    (s.inPos ≠ s.inLen ∧ s.inPos < s.params.inCap ∧
      ((codeOfInput s s.inPos = [] ∧ t = skipByte s) ∨
        (codeOfInput s s.inPos ≠ [] ∧
          ((s.hidden.op = 4 ∧ t = countCode (codeOfInput s s.inPos).length s) ∨
            (s.hidden.op ≠ 4 ∧
              ((s.params.outCap < s.outCount + (codeOfInput s s.inPos).length ∧ t = raiseError .bufferExhausted s) ∨
                (s.outCount + (codeOfInput s s.inPos).length ≤ s.params.outCap ∧
                  t =
                    { s with
                      hidden := { s.hidden with csym := inputAt s s.inPos, bitpos := 0 }
                      engState := .xEmit }))))))) := by
  have hcode : codeAt s (inputAt s s.inPos).toNat = codeOfInput s s.inPos := rfl
  unfold stepXFetch at h
  simp only [hcode] at h
  split at h
  · next hp => cases h; exact .inl ⟨hp, rfl⟩
  · next hp =>
    split at h
    · cases h
    · next hc =>
      refine .inr ⟨hp, Nat.lt_of_not_le hc, ?_⟩
      split at h
      · next h0 => cases h; exact .inl ⟨List.length_eq_zero_iff.mp h0, rfl⟩
      · next h0 =>
        refine .inr ⟨fun e => h0 (by rw [e]; rfl), ?_⟩
        split at h
        · next ho => cases h; exact .inl ⟨ho, rfl⟩
        · next ho =>
          refine .inr ⟨ho, ?_⟩
          split at h
          · next hf => cases h; exact .inl ⟨hf, rfl⟩
          · next hf => cases h; exact .inr ⟨Nat.not_lt.mp hf, rfl⟩

/-- X_EMIT (rule R173). -/
theorem stepXEmit_cases (h : stepXEmit s = .next t) :
    ∃ b, (codeAt s s.hidden.csym.toNat)[s.hidden.bitpos]? = some b ∧ s.outCount < s.params.outCap ∧
      t =
        { s with
          out := cellSet s.out s.outCount (outSymbol b)
          outCount := s.outCount + 1
          hidden := { s.hidden with bitpos := s.hidden.bitpos + 1 }
          inPos := if s.hidden.bitpos + 1 = (codeAt s s.hidden.csym.toNat).length then s.inPos + 1 else s.inPos
          engState :=
            if s.hidden.bitpos + 1 = (codeAt s s.hidden.csym.toNat).length then .xFetch else s.engState } := by
  unfold stepXEmit at h
  simp only [] at h
  split at h
  · cases h
  · next b hb =>
    split at h
    · cases h
    · next hc =>
      refine ⟨b, hb, Nat.lt_of_not_le hc, ?_⟩
      split at h <;> next he => cases h; simp only [he, if_true, if_false]

/-- No step of the engine touches the host's script. -/
theorem engineStep_script (h : engineStep s = .next t) : t.script = s.script := by
  unfold engineStep at h
  split at h
  · cases h; rfl
  · simp only [stepPClear] at h
    split at h <;> cases h <;> rfl
  · obtain ⟨_, _, _, rfl⟩ := stepBSeed_cases h; rfl
  · simp only [stepBCheck] at h
    split at h
    · cases h; rfl
    · split at h <;> cases h <;> rfl
  · cases h; rfl
  · obtain ⟨_, _, rfl⟩ := stepBMerge_cases h; rfl
  · cases h; rfl
  · simp only [stepDRoot] at h
    split at h <;> cases h <;> rfl
  · rcases stepDVisit_cases h with ⟨_, _, _, _, rfl⟩ | ⟨_, _, _, _, _, _, _, _, rfl⟩ | ⟨_, _, _, _, _, _, rfl⟩ <;> rfl
  · simp only [stepXInit] at h
    split at h <;> cases h <;> rfl
  · rcases stepXFetch_cases h with
      ⟨_, rfl⟩ | ⟨_, _, ⟨_, rfl⟩ | ⟨_, ⟨_, rfl⟩ | ⟨_, ⟨_, rfl⟩ | ⟨_, rfl⟩⟩⟩⟩ <;> rfl
  · obtain ⟨_, _, _, rfl⟩ := stepXEmit_cases h; rfl

end Sys2Proof.Machine
end

