-- ==== Sys2Proof/Laws/Hidden.lean ====
section
/-! SUPPORT. Hidden.lean: which hidden registers the engine reads before it writes them, state by state, and that a step
depends on no other (rules R38 to R40, U4 of 93_implementation_defined.md). -/

namespace Sys2Proof.Machine

/-- `g` and `h` agree on every hidden register that a command standing in `e` still reads before it writes it. -/
def Hidden.agreeAt (e : EngState) (g h : Hidden) : Prop :=
  match e with
  | .idle => True
  | .pClear => g.op = h.op
  | .bSeed => g.scan = h.scan
  | .bCheck => True
  | .bSort => True
  | .bMerge => True
  | .dClear => True
  | .dRoot => True
  | .dVisit => g.cur = h.cur ∧ g.depth = h.depth ∧ g.path = h.path ∧ g.stack = h.stack
  | .xInit => g.op = h.op
  | .xFetch => g.op = h.op
  | .xEmit => g.op = h.op ∧ g.csym = h.csym ∧ g.bitpos = h.bitpos

/-- Two outcomes that differ in nothing but hidden registers no later step reads. -/
def Out.agree : Out → Out → Prop
  | .next t, o => ∃ h, o = .next { t with hidden := h } ∧ t.hidden.agreeAt t.engState h
  | .fault f, o => o = .fault f
  | .refused r, o => o = .refused r

/-- A command accepted at Level B starts in a state that reads nothing but OP, which the issue writes. -/
theorem acceptCommand_agree (i : Instr) (s : State) (h : Hidden) :
    (acceptCommand i s).hidden.agreeAt (startState i) (acceptCommand i { s with hidden := h }).hidden := by
  cases i <;> first | rfl | trivial

/-- A step of the engine depends on no other hidden register. -/
theorem engineStep_agree {s : State} {h : Hidden} (ha : s.hidden.agreeAt s.engState h) :
    Out.agree (engineStep s) (engineStep { s with hidden := h }) := by
  obtain ⟨params, freq, input, out, codes, tree, inLen, inPos, outCount, skipCount, totalBits, busy, done, err, eng,
    ⟨op', scan', cur', depth', path', stack', csym', bitpos'⟩, script, reads, resets, workEra⟩ := s
  obtain ⟨op, scan, cur, depth, path, stack, csym, bitpos⟩ := h
  cases eng <;> simp only [Hidden.agreeAt] at ha <;> simp only [engineStep]
  case idle => exact ⟨_, rfl, trivial⟩
  case pClear =>
    subst ha
    show Out.agree (if op' = opcodeOf .clear then _ else _) (if op' = opcodeOf .clear then _ else _)
    split
    · exact ⟨_, rfl, trivial⟩
    · exact ⟨_, rfl, rfl⟩
  case bSeed =>
    subst ha
    simp only [stepBSeed, freqAt]
    split
    · rfl
    · split
      · exact ⟨_, rfl, trivial⟩
      · exact ⟨_, rfl, rfl⟩
  case bCheck =>
    simp only [stepBCheck]
    split
    · exact ⟨_, rfl, trivial⟩
    · split <;> exact ⟨_, rfl, trivial⟩
  case bSort => exact ⟨_, rfl, trivial⟩
  case bMerge =>
    simp only [stepBMerge]
    split
    · rfl
    · exact ⟨_, rfl, trivial⟩
  case dClear => exact ⟨_, rfl, trivial⟩
  case dRoot =>
    simp only [stepDRoot]
    split
    · rfl
    · exact ⟨_, rfl, trivial⟩
    · exact ⟨_, rfl, rfl, rfl, rfl, rfl⟩
  case dVisit =>
    obtain ⟨rfl, rfl, rfl, rfl⟩ := ha
    simp only [stepDVisit]
    split
    · rfl
    · split
      · exact ⟨_, rfl, trivial⟩
      · split
        · rfl
        · exact ⟨_, rfl, rfl, rfl, rfl, rfl⟩
    · split
      · rfl
      · exact ⟨_, rfl, rfl, rfl, rfl, rfl⟩
  case xInit =>
    subst ha
    simp only [stepXInit]
    split <;> exact ⟨_, rfl, rfl⟩
  case xFetch =>
    subst ha
    simp only [stepXFetch, inputAt, codeAt]
    split
    · exact ⟨_, rfl, trivial⟩
    · split
      · rfl
      · show Out.agree (if List.length _ = 0 then _ else _) (if List.length _ = 0 then _ else _)
        split
        · exact ⟨_, rfl, rfl⟩
        · show Out.agree (if op' = opcodeOf .measure then _ else _) (if op' = opcodeOf .measure then _ else _)
          split
          · exact ⟨_, rfl, rfl⟩
          · show Out.agree (if params.outCap < outCount + List.length _ then _ else _)
              (if params.outCap < outCount + List.length _ then _ else _)
            split
            · exact ⟨_, rfl, trivial⟩
            · exact ⟨_, rfl, rfl, rfl, rfl⟩
  case xEmit =>
    obtain ⟨rfl, rfl, rfl⟩ := ha
    simp only [stepXEmit, codeAt]
    split
    · rfl
    · split
      · rfl
      · show Out.agree (if bitpos' + 1 = (storeCode codes csym'.toNat).length then _ else _)
          (if bitpos' + 1 = (storeCode codes csym'.toNat).length then _ else _)
        split
        · exact ⟨_, rfl, rfl⟩
        · exact ⟨_, rfl, rfl, rfl, rfl⟩

end Sys2Proof.Machine
end

