-- ==== Sys2Proof/Laws/Sort.lean ====
section
/-! SUPPORT. Sort.lean: one insertion of the stable sort, and what the sort keeps of a pool (rule R16). -/

namespace Sys2Proof.Machine

theorem insertByWeight_perm (wt : Nat → Nat) (x : Nat) (pool : List Nat) :
    (insertByWeight wt x pool).Perm (x :: pool) := by
  induction pool with
  | nil => exact .refl _
  | cons y ys ih =>
    simp only [insertByWeight]
    split
    · exact .refl _
    · exact (ih.cons y).trans (.swap x y ys)

theorem insertByWeight_sorted {wt : Nat → Nat} (x : Nat) {pool : List Nat}
    (h : pool.Pairwise fun a b => wt a ≤ wt b) :
    (insertByWeight wt x pool).Pairwise fun a b => wt a ≤ wt b := by
  induction pool with
  | nil => simp [insertByWeight]
  | cons y ys ih =>
    have hy := List.pairwise_cons.mp h
    simp only [insertByWeight]
    split
    · next hle =>
      refine List.pairwise_cons.mpr ⟨fun z hz => ?_, h⟩
      rcases List.mem_cons.mp hz with rfl | hz
      · exact hle
      · exact hle.trans (hy.1 z hz)
    · next hlt =>
      refine List.pairwise_cons.mpr ⟨fun z hz => ?_, ih hy.2⟩
      rcases List.mem_cons.mp ((insertByWeight_perm wt x ys).mem_iff.mp hz) with rfl | hz
      · omega
      · exact hy.1 z hz

/-- An insertion puts the new element before the equal ones already there. -/
theorem insertByWeight_filter (wt : Nat → Nat) (x : Nat) (pool : List Nat) (w : Nat) :
    (insertByWeight wt x pool).filter (fun z => wt z == w) = (x :: pool).filter (fun z => wt z == w) := by
  induction pool with
  | nil => rfl
  | cons y ys ih =>
    simp only [insertByWeight]
    split
    · rfl
    · next hlt =>
      rw [List.filter_cons, ih]
      simp only [List.filter_cons, beq_iff_eq]
      by_cases hx : wt x = w <;> by_cases hy : wt y = w <;> simp [hx, hy]
      omega

theorem stableSort_perm (wt : Nat → Nat) (pool : List Nat) : (stableSort wt pool).Perm pool := by
  induction pool with
  | nil => exact .refl _
  | cons x xs ih => exact (insertByWeight_perm wt x _).trans (ih.cons x)

theorem stableSort_sorted (wt : Nat → Nat) (pool : List Nat) :
    (stableSort wt pool).Pairwise fun a b => wt a ≤ wt b := by
  induction pool with
  | nil => exact .nil
  | cons x xs ih => exact insertByWeight_sorted x ih

@[simp] theorem stableSort_length (wt : Nat → Nat) (pool : List Nat) : (stableSort wt pool).length = pool.length :=
  (stableSort_perm wt pool).length_eq

/-- The sort looks at the weights of the pool's elements only. -/
theorem stableSort_congr {wt wt' : Nat → Nat} {pool : List Nat} (h : ∀ x ∈ pool, wt x = wt' x) :
    stableSort wt pool = stableSort wt' pool := by
  induction pool with
  | nil => rfl
  | cons x xs ih =>
    have hx := List.forall_mem_cons.mp h
    simp only [stableSort, ih hx.2]
    have : ∀ y ∈ stableSort wt' xs, wt y = wt' y := fun y hy => hx.2 y ((stableSort_perm wt' xs).mem_iff.mp hy)
    generalize stableSort wt' xs = ys at this
    induction ys with
    | nil => rfl
    | cons y ys ihy =>
      have hy := List.forall_mem_cons.mp this
      simp only [insertByWeight, hx.1, hy.1, ihy hy.2]

end Sys2Proof.Machine
end

