-- ==== Sys2Proof/Laws/Memory.lean ====
section
/-! SUPPORT. Memory.lean: every operation that writes a space keeps its canonical form and stays inside its size. -/

namespace Sys2Proof.Machine

/-- The canonical form of a node store. -/
abbrev nodesWf (nodes : Cells Node) : Prop :=
  cellsRising nodes ∧ cellsBelow 511 nodes ∧ ∀ x ∈ nodes, x.2 ≠ .free

/-- The canonical form of a code table. -/
abbrev codesWf (codes : Cells Bits) : Prop :=
  cellsRising codes ∧ cellsBelow 256 codes ∧ ∀ x ∈ codes, x.2 ≠ []

theorem nodesWf_nil : nodesWf [] := ⟨.nil, nofun, nofun⟩

theorem codesWf_nil : codesWf [] := ⟨.nil, nofun, nofun⟩

/-! ### The host's writes -/

/-- A host write to a place that exists keeps the form. -/
theorem writePlace_wf {s : State} {space index : Nat} {pl : Place} (v : Nat)
    (hp : decodePlace s.params space index = some pl) (h : Memory.wf s) : Memory.wf (writePlace pl v s) := by
  obtain ⟨hf, hi, hrest⟩ := h
  simp only [decodePlace] at hp
  split at hp
  · cases hp
  · next sp _ =>
    split at hp
    · next hlt =>
      cases sp <;> simp only [placeIn, Option.some.injEq] at hp
      · obtain ⟨r, _, rfl⟩ := Option.map_eq_some_iff.mp hp
        simp only [writePlace]
        split <;> exact ⟨hf, hi, hrest⟩
      · subst hp; exact ⟨⟨cellSet_rising _ _ hf.1, cellSet_below _ hlt hf.2⟩, hi, hrest⟩
      · subst hp; exact ⟨hf, ⟨cellSet_rising _ _ hi.1, cellSet_below _ hlt hi.2⟩, hrest⟩
      all_goals subst hp; exact ⟨hf, hi, hrest⟩
    · cases hp

theorem poolReset_wf {s : State} (h : Memory.wf s) : Memory.wf (poolReset s) :=
  ⟨h.1, h.2.1, h.2.2.1, h.2.2.2.1, nodesWf_nil⟩

theorem resetEvent_wf (s : State) : Memory.wf (resetEvent s) :=
  ⟨⟨.nil, nofun⟩, ⟨.nil, nofun⟩, ⟨.nil, nofun⟩, codesWf_nil, nodesWf_nil⟩

/-! ### The node store -/

theorem seedByte_nodesWf {t : Tree} (b count : Nat) (hn : t.nodeCount < 511) (h : nodesWf t.nodes) :
    nodesWf (seedByte b count t).nodes := by
  unfold seedByte
  split
  · exact h
  · exact setNode_wf (.leaf (BitVec.ofNat 8 b) count) hn h

theorem seedByte_counts (b count : Nat) (t : Tree) :
    (seedByte b count t).nodeCount ≤ t.nodeCount + 1 ∧
    (t.work.length = t.nodeCount → (seedByte b count t).work.length = (seedByte b count t).nodeCount) := by
  unfold seedByte
  split
  · exact ⟨Nat.le_succ _, id⟩
  · exact ⟨Nat.le_refl _, fun h => by simp [h]⟩

theorem seedUpTo_counts (freq : Nat → Nat) (n : Nat) :
    (seedUpTo freq n Tree.empty).nodeCount ≤ n ∧
    (seedUpTo freq n Tree.empty).work.length = (seedUpTo freq n Tree.empty).nodeCount := by
  induction n with
  | zero => exact ⟨Nat.le_refl _, rfl⟩
  | succ n ih =>
    have hs := seedByte_counts n (freq n) (seedUpTo freq n Tree.empty)
    exact ⟨hs.1.trans (Nat.succ_le_succ ih.1), hs.2 ih.2⟩

/-- Seeding an empty pool keeps the form: it makes at most one node for a byte value. -/
theorem seedUpTo_nodesWf (freq : Nat → Nat) {n : Nat} (hn : n ≤ 511) :
    nodesWf (seedUpTo freq n Tree.empty).nodes := by
  induction n with
  | zero => exact nodesWf_nil
  | succ n ih => exact seedByte_nodesWf n _ (by have := (seedUpTo_counts freq n).1; omega) (ih (by omega))

theorem mergeFirstTwo_nodesWf {t : Tree} (hn : t.nodeCount < 511) (h : nodesWf t.nodes) :
    nodesWf (mergeFirstTwo t).nodes := by
  unfold mergeFirstTwo
  split
  · next a b _ _ => exact setNode_wf (.internal (weightAt t a + weightAt t b) a b) hn h
  · exact h

theorem mergeFirstTwo_counts {t : Tree} (hw : 2 ≤ t.work.length) :
    (mergeFirstTwo t).nodeCount = t.nodeCount + 1 ∧ (mergeFirstTwo t).work.length = t.work.length - 1 := by
  unfold mergeFirstTwo
  split
  · next h => rw [h]; exact ⟨rfl, by simp⟩
  · next h =>
    match hwork : t.work with
    | [] => simp [hwork] at hw
    | [_] => simp [hwork] at hw
    | a :: b :: rest => exact absurd hwork (h a b rest)

/-- The merge loop keeps the form while there is room for one node fewer than the pool has members. -/
theorem mergeWhile_nodesWf (fuel : Nat) {t : Tree} (hn : t.nodeCount + t.work.length ≤ 512) (h : nodesWf t.nodes) :
    nodesWf (mergeWhile fuel t).nodes := by
  induction fuel generalizing t with
  | zero => exact h
  | succ fuel ih =>
    simp only [mergeWhile]
    split
    · next hw =>
      have hlen : (sortPool t).work.length = t.work.length := stableSort_length _ _
      have hc := mergeFirstTwo_counts (t := sortPool t) (by omega)
      have h1 : (sortPool t).nodeCount = t.nodeCount := rfl
      exact ih (t := mergeOnce t) (by simp only [mergeOnce, hc.1, hc.2]; omega)
        (mergeFirstTwo_nodesWf (t := sortPool t) (by omega) h)
    · exact h

/-! ### The code table -/

/-- `walk` keeps the form. -/
theorem walk_codesWf {t : Tree} {fuel i : Nat} {p : Bits} {codes codes' : Cells Bits}
    (he : walk t fuel i p codes = some codes') (h : codesWf codes) : codesWf codes' := by
  induction fuel generalizing i p codes codes' with
  | zero => cases he
  | succ fuel ih =>
    simp only [walk] at he
    split at he
    · cases he
    · next sym _ _ => cases he; exact setCode_wf _ sym.isLt h
    · split at he
      · cases he
      · next h1 => exact ih he (ih h1 h)

theorem deriveTable_codesWf {t : Tree} {codes : Cells Bits} (h : deriveTable t = some codes) : codesWf codes := by
  unfold deriveTable at h
  split at h
  · next sym _ _ => cases h; exact setCode_wf _ sym.isLt codesWf_nil
  · exact walk_codesWf h codesWf_nil
  · exact walk_codesWf h codesWf_nil

end Sys2Proof.Machine
end

