-- ==== Sys2Proof/Laws/PerInstr.lean ====
section
/-! SUPPORT. PerInstr.lean: what is said of each command as syntax, one lemma per constructor. -/

namespace Sys2Proof.Laws.EncodeLegal

/-- The encoding of a command is a legal word (rules R81, R82): the zero field is 0 and the opcode is the command's. -/
def Statement (i : Instr) : Prop :=
  legalWord (encode i) = true ∧ wordZeroField (encode i) = 0 ∧ wordOpcode (encode i) = opcodeOf i

theorem clear : Statement .clear := by unfold Statement; decide

theorem build : Statement .build := by unfold Statement; decide

theorem derive : Statement .derive := by unfold Statement; decide

theorem measure : Statement .measure := by unfold Statement; decide

theorem encode : Statement .encode := by unfold Statement; decide

end Sys2Proof.Laws.EncodeLegal
end

