-- ==== Sys2Proof/Laws/TreeBuilder.lean ====
section
/-! SUPPORT. TreeBuilder.lean: one turn of seeding and one merge, said by the nodes they leave (rules R113, R114). -/

namespace Sys2Proof.Machine

/-- What one turn of `seed()` does to the store. -/
theorem nodeAt_seedByte (b count i : Nat) (t : Tree) :
    nodeAt (seedByte b count t) i =
      if count ≠ 0 ∧ i = t.nodeCount then .leaf (BitVec.ofNat 8 b) count else nodeAt t i := by
  unfold seedByte
  by_cases h : count = 0
  · simp [h]
  · rw [if_neg h]
    simp only [nodeAt]
    rw [storeNode_setNode (by simp)]
    by_cases hi : i = t.nodeCount <;> simp [h, hi]

/-- A pool of two or more has a first and a second element when sorted. -/
theorem stableSort_two (wt : Nat → Nat) {pool : List Nat} (h : 2 ≤ pool.length) :
    ∃ a b rest, stableSort wt pool = a :: b :: rest := by
  have hl := stableSort_length wt pool
  match hs : stableSort wt pool with
  | [] => rw [hs] at hl; simp at hl; omega
  | [_] => rw [hs] at hl; simp at hl; omega
  | a :: b :: rest => exact ⟨a, b, rest, rfl⟩

/-- `merge_once()` on a pool whose sorted form is known. -/
theorem mergeOnce_eq (t : Tree) {a b : Nat} {rest : List Nat}
    (hs : stableSort (weightAt t) t.work = a :: b :: rest) :
    mergeOnce t =
      { t with
        nodes := setNode t.nodes t.nodeCount (.internal (weightAt t a + weightAt t b) a b)
        work := rest ++ [t.nodeCount]
        nodeCount := t.nodeCount + 1 } := by
  simp only [mergeOnce, mergeFirstTwo, sortPool, hs]; rfl

end Sys2Proof.Machine
end

