-- ==== Sys2Proof/Tests/Slice0.lean ====
section
/-! SUPPORT. Slice0.lean: tests against the encodings and the vectors of the spec (each test names its source), the
smoke tests of WellFormed, and for every statement with hypotheses a state that meets them. -/

namespace Sys2Proof.Tests

open Sys2Proof Sys2Proof.Machine

/-! ### WellFormed refuses ill-formed terms -/

/-- Rule R82: opcode 0, opcode 6, and a set bit in cmd[7:4] are no commands. -/
theorem test_wf_words :
    legalWord 0x00 = false ∧ legalWord 0x06 = false ∧ legalWord 0x0F = false ∧ legalWord 0x11 = false ∧
      legalWord 0x80 = false ∧ legalWord 0x01 = true ∧ legalWord 0x05 = true := by decide

/-- Rule R8: a capacity must be below 2^LEN_W. -/
theorem test_wf_params :
    Params.wf { Params.initial with lenW := 8, inCap := 256, outCap := 0 } = false ∧
      Params.wf { Params.initial with lenW := 8, inCap := 0, outCap := 256 } = false ∧
      Params.wf { Params.initial with lenW := 8, inCap := 255, outCap := 255 } = true := by decide +kernel

/-- Vector H9 and rule R101: a register, element or space that does not exist, and a value that is too wide. -/
theorem test_wf_hostOps :
    HostOp.wf .initial (.read 0 12) = false ∧ HostOp.wf .initial (.read 1 256) = false ∧
      HostOp.wf .initial (.read 6 511) = false ∧ HostOp.wf .initial (.read 8 0) = false ∧
      HostOp.wf .initial (.write 9 0 0) = false ∧ HostOp.wf .initial (.write 2 0 256) = false ∧
      HostOp.wf .initial (.write 2 0 255) = true ∧ HostOp.wf .initial (.read 6 510) = true := by decide +kernel

/-! ### Encodings, written out from rule R81 and section 2.3 of 95_test_vectors.md -/

theorem test_decode_clear : decode 0b00000001#8 = some .clear := by decide

theorem test_decode_build : decode 0b00000010#8 = some .build := by decide

theorem test_decode_derive : decode 0b00000011#8 = some .derive := by decide

theorem test_decode_measure : decode 0b00000100#8 = some .measure := by decide

theorem test_decode_encode : decode 0b00000101#8 = some .encode := by decide

/-- Vectors I1 to I3, I5: none of these words is a command. -/
theorem test_decode_illegal :
    ([0x00, 0x06, 0x07, 0x0F, 0x10, 0x11, 0x12, 0x13, 0x20, 0x80, 0x81, 0xFF] : List (BitVec 8)).all
      (fun w => (decode w).isNone) = true := by decide

/-- The node records of section 2.3. -/
theorem test_node_records :
    packNode .free = 0 ∧ packNode (.leaf 0x61 3) = 0x30000185 ∧ packNode (.leaf 0 2) = 0x20000001 ∧
      packNode (.leaf 0x72 2) = 0x200001C9 ∧ packNode (.internal 4 1 0) = 0x40000402 ∧
      packNode (.internal 11 0 7) = 0xB0380002 ∧ packNode (.internal (2 ^ 31) 31 61) = 0x800000001E87C02 := by
  decide

/-- The code entries of section 2.3. -/
theorem test_code_bits :
    codeBits [true, false] = 1 ∧ codeBits [false, true] = 2 ∧ codeBits [true, true, true, false] = 7 ∧
      codeBits [false, false, false, false, false, false, false, true] = 0x80 := by decide

/-! ### States the tests run on -/

/-- The state after RESET and `LOADF` (rule R91). -/
def counts (l : List (Nat × Nat)) : State :=
  { State.reset with freq := (List.range 256).map fun b => (b, (l.lookup b).getD 0) }

theorem cellGet_range' (g : Nat → Nat) (start n b : Nat) (h1 : start ≤ b) (h2 : b < start + n) :
    cellGet ((List.range' start n).map fun b => (b, g b)) b = some (g b) := by
  induction n generalizing start with
  | zero => omega
  | succ n ih =>
    rw [List.range'_succ, List.map_cons, cellGet]
    split
    · next h => rw [h]
    · exact ih (start + 1) (by omega) (by omega)

theorem freqAt_counts (l : List (Nat × Nat)) {b : Nat} (h : b < 256) : freqAt (counts l) b = (l.lookup b).getD 0 := by
  have := cellGet_range' (fun b => (l.lookup b).getD 0) 0 256 b (Nat.zero_le _) (by omega)
  simp only [freqAt, counts, List.range_eq_range', this, Option.getD_some]

/-- `LOADIN` (rule R91). -/
def withInput (bytes : List Nat) (s : State) : State :=
  { s with input := bytes.zipIdx.map (fun x => (x.2, BitVec.ofNat 8 x.1)), inLen := bytes.length }

/-- The tree of vector V1. -/
def treeV1 : Tree where
  nodes := [(0, .leaf 0x61 3), (1, .leaf 0x62 1), (2, .internal 4 1 0)]
  nodeCount := 3
  leafCount := 2
  work := [2]
  root := 2
  rootValid := true

/-- The tree of vector V7. -/
def treeV7 : Tree where
  nodes := [(0, .leaf 0x61 1), (1, .leaf 0x62 1), (2, .leaf 0x63 2), (3, .internal 2 0 1), (4, .internal 4 2 3)]
  nodeCount := 5
  leafCount := 3
  work := [4]
  root := 4
  rootValid := true

/-- The tree of vector V3. -/
def treeV3 : Tree where
  nodes := [(0, .leaf 0x61 4)]
  nodeCount := 1
  leafCount := 1
  work := [0]
  root := 0
  rootValid := true

/-- The code table of vector V7. -/
def codesV7 : Cells Bits := [(0x61, [true, false]), (0x62, [true, true]), (0x63, [false])]

/-- The code table of vector V1. -/
def codesV1 : Cells Bits := [(0x61, [true]), (0x62, [false])]

/-- The characters of a string of bits (rule R87). -/
def chars (bits : List Nat) : List Host.Cell := bits.zipIdx.map fun x => (x.2, BitVec.ofNat 8 (0x30 + x.1))

/-- A parameter choice with the given OUT_CAP. -/
def outCapacity (n : Nat) (s : State) : State := { s with params := { s.params with outCap := n } }

/-- What a test looks at in an outcome. -/
def looks (o : Out) (p : State → Bool) : Bool :=
  match o with
  | .next t => p t
  | .fault _ => false
  | .refused _ => false

/-! ### The commands, by the vectors of 95_test_vectors.md -/

/-- Vector V1, BUILD. -/
theorem test_build_v1 :
    looks (exec .build (counts [(0x61, 3), (0x62, 1)])) (fun t => t.tree == treeV1 && statusWord t == 0x0042) = true := by
  decide +kernel

/-- Vector V7, BUILD: the leaf of weight 2 comes before the fresh internal node of weight 2. -/
theorem test_build_v7 :
    looks (exec .build (counts [(0x61, 1), (0x62, 1), (0x63, 2)])) (fun t => t.tree == treeV7) = true := by
  decide +kernel

/-- CLEAR after V7 with SKIP_COUNT not zero: STATUS 0x0022, the code table stays (section 2.4). -/
theorem test_clear :
    looks (exec .clear { State.reset with tree := treeV7, codes := codesV7, skipCount := 1 })
      (fun t => t.tree == Tree.empty && t.codes == codesV7 && statusWord t == 0x0022) = true := by decide +kernel

/-- Vector V7, DERIVE. -/
theorem test_derive_v7 :
    looks (exec .derive { State.reset with tree := treeV7 })
      (fun t => t.codes == codesV7 && statusWord t == 0x0042) = true := by decide +kernel

/-- Vector V3, DERIVE: the fallback code, and DEGENERATE. -/
theorem test_derive_v3 :
    looks (exec .derive { State.reset with tree := treeV3, codes := codesV7 })
      (fun t => t.codes == [(0x61, [false])] && statusWord t == 0x00C2) = true := by decide +kernel

/-- Vector V10, MEASURE: "abza" with the table of V1. -/
theorem test_measure_v10 :
    looks (exec .measure (withInput [0x61, 0x62, 0x7A, 0x61] { State.reset with codes := codesV1, tree := treeV1 }))
      (fun t => t.totalBits == 3 && t.skipCount == 1 && t.inPos == 4 && statusWord t == 0x0062) = true := by
  decide +kernel

/-- Vector V11e, ENCODE: "abcza" with OUT_CAP 5; 'z' is skipped, then 'a' does not fit. -/
theorem test_encode_v11e :
    looks
      (exec .encode
        (outCapacity 5
          (withInput [0x61, 0x62, 0x63, 0x7A, 0x61] { State.reset with codes := codesV7, tree := treeV7 })))
      (fun t => t.out == chars [1, 0, 1, 1, 0] && t.outCount == 5 && t.skipCount == 1 && t.inPos == 4 &&
        statusWord t == 0x006A) = true := by decide +kernel

/-- Vector V11b, ENCODE: "abc" with OUT_CAP 5; the last code ends exactly at OUT_CAP. -/
theorem test_encode_v11b :
    looks
      (exec .encode
        (outCapacity 5 (withInput [0x61, 0x62, 0x63] { State.reset with codes := codesV7, tree := treeV7 })))
      (fun t => t.out == chars [1, 0, 1, 1, 0] && t.outCount == 5 && t.inPos == 3 && statusWord t == 0x0042) = true := by
  decide +kernel

/-! ### Level B, by the traces of section 2.7 -/

/-- A state in the middle of a command at Level B. -/
def running (e : EngState) (op : BitVec 4) (s : State) : State :=
  { s with
    params := { s.params with level := .step }
    busy := true
    done := false
    err := .none
    engState := e
    hidden := { s.hidden with op := op } }

/-- Trace T1, step 264: B_MERGE makes NODE[4]. -/
theorem test_engine_merge :
    looks
      (step
        (running .bMerge 2
          { State.reset with
            tree :=
              { nodes := [(0, .leaf 0x61 1), (1, .leaf 0x62 1), (2, .leaf 0x63 2), (3, .internal 2 0 1)]
                nodeCount := 4
                leafCount := 3
                work := [2, 3]
                root := 0
                rootValid := false } }))
      (fun t => t.tree.nodes == treeV7.nodes && t.tree.work == [4] && t.engState == .bCheck) = true := by
  decide +kernel

/-- Trace T2, step 7: the leaf 'b' gets "01"; (5,1) is popped and PATH[0] becomes 1. -/
theorem test_engine_visit :
    looks
      (step
        (running .dVisit 3
          { State.reset with
            tree := { treeV7 with nodes := [(1, .leaf 0x62 1)] }
            hidden := { Hidden.initial with cur := 1, depth := 2, path := 0b10, stack := [⟨5, 1⟩] } }))
      (fun t => t.codes == [(0x62, [false, true])] && t.hidden.cur == 5 && t.hidden.depth == 1 &&
        t.hidden.stack == [] && t.hidden.path == 0b11 && t.engState == .dVisit) = true := by decide +kernel

/-- Trace T4, step 5: the last bit of the code of 'a'. -/
theorem test_engine_emit :
    looks
      (step
        (running .xEmit 5
          { State.reset with
            codes := codesV7
            out := chars [1]
            outCount := 1
            hidden := { Hidden.initial with csym := 0x61, bitpos := 1 } }))
      (fun t => t.out == chars [1, 0] && t.outCount == 2 && t.inPos == 1 && t.engState == .xFetch) = true := by
  decide +kernel

/-- Rule R102: `withFetchWord` puts the issue of the word first. -/
theorem test_fetch_word : looks (step (State.reset.withFetchWord 8 3)) (fun t => statusWord t == 0x0012) = true := by
  decide +kernel

/-! ### Hypotheses of the statements, met -/

/-- `IllegalWordIsReported`: the words 0, 6 and 255. -/
theorem witness_illegalWord :
    State.reset.busy = false ∧ (0 < 256 ∧ (0 = 0 ∨ 5 < 0)) ∧ (6 < 256 ∧ (6 = 0 ∨ 5 < 6)) ∧
      (255 < 256 ∧ (255 = 0 ∨ 5 < 255)) := by decide

/-- `StepRunsTheDecodedCommand`: the least and the greatest command word. -/
theorem witness_decodedCommand :
    State.reset.busy = false ∧ (1 < 256 ∧ decode (BitVec.ofNat 8 1) = some .clear) ∧
      (5 < 256 ∧ decode (BitVec.ofNat 8 5) = some .encode) := by decide

/-- `DeriveWithoutTreeIsRefused`. -/
theorem witness_deriveRefused : State.reset.busy = false ∧ State.reset.tree.rootValid = false := by decide

/-- IN_LEN one above IN_CAP. -/
def tooLong : State := { State.reset with inLen := 65537 }

/-- `TooLongInputIsRefused`. -/
theorem witness_tooLong : tooLong.busy = false ∧ tooLong.params.inCap < tooLong.inLen := by decide

/-- `HostReadReturnsTheElement`: the last element of spaces 0, 6 and 7. -/
theorem witness_hostRead :
    State.reset.busy = false ∧ decodePlace State.reset.params 0 11 = some (.csr .engState) ∧
      decodePlace State.reset.params 6 510 = some (.node 510) ∧
      decodePlace State.reset.params 7 255 = some (.work 255) := by decide

/-- `HostReadReturnsTheElement`, its values: the last element of every space, and the last live element of WORK. -/
theorem witness_hostValues :
    255 < 256 ∧ 65535 < State.reset.params.inCap ∧ 1048575 < State.reset.params.outCap ∧ 510 < 511 ∧
      (({ State.reset with tree := treeV7 } : State).tree.work[0]? = some 4 ∧ 0 < 256) := by decide +kernel

/-- `HostWriteThenRead`: the last FREQ, IN and the register IN_LEN, each with its greatest value. -/
theorem witness_hostWrite :
    State.reset.busy = false ∧
      (decodePlace State.reset.params 1 255 = some (.freq 255) ∧ Place.freq 255 ≠ .csr .cmd ∧
        readOnly (.freq 255) = false ∧ 2 ^ 32 - 1 < 2 ^ placeWidth State.reset.params (.freq 255)) ∧
      (decodePlace State.reset.params 2 65535 = some (.input 65535) ∧ Place.input 65535 ≠ .csr .cmd ∧
        readOnly (.input 65535) = false ∧ 255 < 2 ^ placeWidth State.reset.params (.input 65535)) ∧
      (decodePlace State.reset.params 0 2 = some (.csr .inLen) ∧ Place.csr .inLen ≠ .csr .cmd ∧
        readOnly (.csr .inLen) = false ∧ 2 ^ 32 - 1 < 2 ^ placeWidth State.reset.params (.csr .inLen)) := by
  decide +kernel

/-- `ReadOnlyWriteIsIgnored`: the last OUT and STATUS. -/
theorem witness_readOnly :
    State.reset.busy = false ∧
      (decodePlace State.reset.params 3 1048575 = some (.out 1048575) ∧ readOnly (.out 1048575) = true ∧
        255 < 2 ^ placeWidth State.reset.params (.out 1048575)) ∧
      (decodePlace State.reset.params 0 1 = some (.csr .status) ∧ readOnly (.csr .status) = true ∧
        0xFFFF < 2 ^ placeWidth State.reset.params (.csr .status)) := by decide +kernel

/-- `IllegalRequestIsRefused`: the first space and in each space the first element that do not exist, the last element
of each space, and the least value too wide. -/
theorem witness_illegalRequest :
    decodePlace State.reset.params 8 0 = none ∧ decodePlace State.reset.params 0 12 = none ∧
      decodePlace State.reset.params 1 256 = none ∧ decodePlace State.reset.params 2 65536 = none ∧
      decodePlace State.reset.params 3 1048576 = none ∧ decodePlace State.reset.params 4 256 = none ∧
      decodePlace State.reset.params 5 256 = none ∧ decodePlace State.reset.params 6 511 = none ∧
      decodePlace State.reset.params 7 256 = none ∧
      decodePlace State.reset.params 1 255 = some (.freq 255) ∧
      decodePlace State.reset.params 2 65535 = some (.input 65535) ∧
      decodePlace State.reset.params 3 1048575 = some (.out 1048575) ∧
      decodePlace State.reset.params 4 255 = some (.codeLen 255) ∧
      decodePlace State.reset.params 5 255 = some (.codeBits 255) ∧
      decodePlace State.reset.params 6 510 = some (.node 510) ∧
      decodePlace State.reset.params 7 255 = some (.work 255) ∧
      decodePlace State.reset.params 2 0 = some (.input 0) ∧
      2 ^ placeWidth State.reset.params (.input 0) ≤ 256 := by decide +kernel

/-- A state of Level B in the middle of BUILD. -/
def midBuild : State := running .bSeed 2 State.reset

theorem witness_statusInv : StatusInv midBuild := by
  refine ⟨by decide, by decide, by decide⟩

/-- `BusyAllowsOnlyStatusReads`: CMD and STATUS themselves, and the last node. -/
theorem witness_busy :
    midBuild.busy = true ∧ StatusInv midBuild ∧ decodePlace midBuild.params 0 0 = some (.csr .cmd) ∧
      decodePlace midBuild.params 0 1 = some (.csr .status) ∧ decodePlace midBuild.params 6 510 = some (.node 510) ∧
      Place.csr .cmd ≠ .csr .status ∧ 255 < 2 ^ placeWidth midBuild.params (.csr .cmd) :=
  ⟨rfl, witness_statusInv, by decide, by decide, by decide, by decide, by decide⟩

/-- `WaitStaysUntilNotBusy`: one state for each of the two clauses; the engine's step answers a next state. -/
theorem witness_wait :
    (({ State.reset with script := [.wait] } : State).script = [.wait] ∧
        ({ State.reset with script := [.wait] } : State).busy = false) ∧
      (({ midBuild with script := [.wait] } : State).script = [.wait] ∧
        ({ midBuild with script := [.wait] } : State).busy = true ∧
        ∃ t, step { midBuild with script := [.wait] } = .next t) := ⟨by decide, rfl, rfl, _, rfl⟩

/-- `LoadScriptsWriteTheTables`: the greatest count and byte, an empty input, and the first element behind the bytes. -/
theorem witness_loadScripts :
    State.reset.busy = false ∧
      (∀ x ∈ [(0, 2 ^ 32 - 1), (255, 1)], x.2 < 2 ^ State.reset.params.freqW) ∧
      ((∀ v ∈ [0, 255], v < 256) ∧ [0, 255].length ≤ State.reset.params.inCap ∧
        [0, 255].length < 2 ^ State.reset.params.lenW) ∧
      ((∀ v ∈ ([] : List Nat), v < 256) ∧ ([] : List Nat).length ≤ State.reset.params.inCap) ∧
      [0, 255].length ≤ 2 := by decide +kernel

/-- `NodeRecordRoundTrip`: the greatest children and the greatest weight. -/
theorem witness_nodeRecord :
    511 < 512 ∧ (Node.internal (2 ^ 40 - 1) 511 511).left < 512 ∧ (Node.internal (2 ^ 40 - 1) 511 511).right < 512 ∧
      (Node.internal (2 ^ 40 - 1) 511 511).weight < 2 ^ Params.initial.weightW := by decide

/-- `CodeEntryRoundTrip`: a byte value with a code. -/
theorem witness_codeEntry :
    (codeAt { State.reset with codes := codesV7 } 0x61).length = 2 ∧
      (codeAt { State.reset with codes := codesV7 } 0x61).length ≤ codeMax := by decide

/-- `SortIsStable`, its uniqueness: the pool [0, 2, 1] of V7's leaves, sorted by hand, the two equal weights in order. -/
theorem witness_stableOther :
    ([0, 1, 2] : List Nat).Perm [0, 2, 1] ∧
      ([0, 1, 2] : List Nat).Pairwise (fun x y => weightAt treeV7 x ≤ weightAt treeV7 y) ∧
      ∀ w, ([0, 1, 2] : List Nat).filter (fun x => weightAt treeV7 x == w) =
        ([0, 2, 1] : List Nat).filter (fun x => weightAt treeV7 x == w) := by
  refine ⟨by decide, by decide, fun w => ?_⟩
  have e0 : weightAt treeV7 0 = 1 := by decide
  have e1 : weightAt treeV7 1 = 1 := by decide
  have e2 : weightAt treeV7 2 = 2 := by decide
  simp only [List.filter, e0, e1, e2]
  rcases Nat.decEq 1 w with h | h
  · have : ((1 : Nat) == w) = false := by simpa using h
    simp [this]
  · subst h; rfl

/-- `ClearEmptiesTheTree` and the others over a ready machine at Level A. -/
theorem witness_ready : Ready .command State.reset := ⟨rfl, rfl⟩

/-- `SortMovesOnlyTheNewNode`: vector V7's second pool, weights 2 and 2. -/
theorem witness_sortedPool : ([2, 3] : List Nat).Pairwise fun x y => weightAt treeV7 x ≤ weightAt treeV7 y := by
  decide

/-- `MergeTakesTheTwoLightest`: a pool of exactly two. -/
theorem witness_mergePool : 2 ≤ ({ treeV7 with work := [2, 3] } : Tree).work.length := by decide

/-- `BuildOfNothingIsEmptyAlphabet`. -/
theorem witness_noCounts : Ready .command (counts []) ∧ ∀ b, b < 256 → freqAt (counts []) b = 0 :=
  ⟨⟨rfl, rfl⟩, fun _ hb => freqAt_counts [] hb⟩

/-- `BuildOfOneSymbol`: the last byte value, with the count 1. -/
theorem witness_oneCount :
    Ready .command (counts [(255, 1)]) ∧ 255 < 256 ∧ freqAt (counts [(255, 1)]) 255 ≠ 0 ∧
      ∀ c, c < 256 → c ≠ 255 → freqAt (counts [(255, 1)]) c = 0 :=
  ⟨⟨rfl, rfl⟩, by decide, by rw [freqAt_counts _ (by decide)]; decide, fun n hn hne => by
    rw [freqAt_counts _ hn]
    revert n
    decide +kernel⟩

/-- The counts of V1, the greater one at the greatest value a count has. -/
def bigCounts : State := counts [(0x61, 2 ^ 32 - 1), (0x62, 1)]

/-- `BuildCompletes`, `BuildMakesTheTree`, `RootWeightIsTheSum`, `CodedExactlyWhenCounted`. -/
theorem witness_someCounts :
    Ready .command bigCounts ∧ freqSymbols bigCounts ≠ 0 ∧
      ∀ b, b < 256 → freqAt bigCounts b < 2 ^ bigCounts.params.freqW := by
  refine ⟨⟨rfl, rfl⟩, ?_, fun b hb => ?_⟩
  · refine Nat.pos_iff_ne_zero.mp (List.countP_pos_iff.mpr ⟨0x61, by decide, ?_⟩)
    rw [bigCounts, freqAt_counts _ (by decide)]
    decide
  · rw [bigCounts, freqAt_counts _ hb]
    revert b
    decide +kernel

/-- `BuildReadsFreqAlone`: two states that differ in everything but FREQ. -/
theorem witness_sameFreq :
    Ready .command (counts [(0x61, 3)]) ∧
      Ready .command { counts [(0x61, 3)] with inLen := 7, tree := treeV7, codes := codesV7 } ∧
      ∀ b, b < 256 →
        freqAt (counts [(0x61, 3)]) b = freqAt { counts [(0x61, 3)] with inLen := 7, tree := treeV7, codes := codesV7 } b :=
  ⟨⟨rfl, rfl⟩, ⟨rfl, rfl⟩, fun _ _ => rfl⟩

theorem nodeAt_treeV1 (i : Nat) :
    nodeAt treeV1 i =
      if i = 0 then .leaf 0x61 3 else if i = 1 then .leaf 0x62 1 else if i = 2 then .internal 4 1 0 else .free := by
  match i with
  | 0 => rfl
  | 1 => rfl
  | 2 => rfl
  | i + 3 => simp [nodeAt, treeV1, storeNode, cellGet]

theorem childOf_treeV1 (n i : Nat) : childOf treeV1 n i ↔ i = 2 ∧ (n = 0 ∨ n = 1) := by
  constructor
  · rintro ⟨w, l, r, e, hc⟩
    rw [nodeAt_treeV1] at e
    split at e
    · cases e
    · split at e
      · cases e
      · split at e
        · cases e; exact ⟨‹_›, by omega⟩
        · cases e
  · rintro ⟨rfl, hc⟩
    exact ⟨4, 1, 0, rfl, by omega⟩

/-- The tree of V1 is a tree in the sense of rule R42. -/
theorem witness_treeCase : TreeCase treeV1 where
  rootValid := rfl
  leaves := by decide
  nodeCount := rfl
  root := rfl
  work := rfl
  leafNodes := by
    intro i hi
    have hi : i < 2 := hi
    rcases (by omega : i = 0 ∨ i = 1) with rfl | rfl
    · exact ⟨0x61, 3, rfl, by decide⟩
    · exact ⟨0x62, 1, rfl, by decide⟩
  symbolsRise := by
    intro i j hij hj
    have hj : j < 2 := hj
    obtain ⟨rfl, rfl⟩ : i = 0 ∧ j = 1 := by omega
    decide
  internalNodes := by
    intro i h1 h2
    have h1 : 2 ≤ i := h1
    have h2 : i < 3 := h2
    obtain rfl : i = 2 := by omega
    exact ⟨1, 0, rfl, by decide, by decide, by decide⟩
  freeNodes := by
    intro i hi
    have hi : 3 ≤ i := hi
    rw [nodeAt_treeV1, if_neg (by omega), if_neg (by omega), if_neg (by omega)]
  oneParent := by
    intro n hn
    have hn : n + 1 < 3 := hn
    exact ⟨2, (childOf_treeV1 n 2).mpr ⟨rfl, by omega⟩, fun j hj => ((childOf_treeV1 n j).mp hj).1⟩
  rootNoParent := by
    intro i hi
    have := ((childOf_treeV1 treeV1.root i).mp hi).2
    rcases this with h | h <;> cases h

theorem nodeAt_treeV3 (i : Nat) : nodeAt treeV3 i = if i = 0 then .leaf 0x61 4 else .free := by
  match i with
  | 0 => rfl
  | i + 1 => simp [nodeAt, treeV3, storeNode, cellGet]

theorem not_childOf_treeV3 (n i : Nat) : ¬ childOf treeV3 n i := by
  rintro ⟨w, l, r, e, -⟩
  rw [nodeAt_treeV3] at e
  split at e <;> cases e

/-- The tree of V3, one leaf, is a tree in the sense of rule R42. -/
theorem witness_treeCaseOne : TreeCase treeV3 where
  rootValid := rfl
  leaves := by decide
  nodeCount := rfl
  root := rfl
  work := rfl
  leafNodes := by
    intro i hi
    have hi : i < 1 := hi
    obtain rfl : i = 0 := by omega
    exact ⟨0x61, 4, rfl, by decide⟩
  symbolsRise := by
    intro i j hij hj
    have hj : j < 1 := hj
    omega
  internalNodes := by
    intro i h1 h2
    have h1 : 1 ≤ i := h1
    have h2 : i < 1 := h2
    omega
  freeNodes := by
    intro i hi
    have hi : 1 ≤ i := hi
    rw [nodeAt_treeV3, if_neg (by omega)]
  oneParent := by
    intro n hn
    have hn : n + 1 < 1 := hn
    omega
  rootNoParent := fun i => not_childOf_treeV3 _ i

/-- The state after program P1, line 7 (95_test_vectors.md), "aaab" compressed, but for the counts that are 0. -/
def afterP1 : State :=
  { withInput [0x61, 0x61, 0x61, 0x62] State.reset with
    freq := [(0x61, 3), (0x62, 1)]
    tree := treeV1
    codes := codesV1
    out := chars [1, 1, 1, 0]
    outCount := 4
    inPos := 4
    totalBits := 4
    done := true }

/-- `DeriveGivesThePaths`, `DeriveMakesAPrefixCode`, `CodeLengthIsBounded`. -/
theorem witness_derive : Ready .command afterP1 ∧ TreeCase afterP1.tree ∧ 2 ≤ afterP1.tree.leafCount :=
  ⟨⟨rfl, rfl⟩, witness_treeCase, by decide⟩

/-- `DeriveMakesAPrefixCode`, `CodeLengthIsBounded`: LEAF_COUNT 1, where `max 1 (LEAF_COUNT − 1)` turns. -/
theorem witness_deriveOne :
    Ready .command { State.reset with tree := treeV3 } ∧ TreeCase ({ State.reset with tree := treeV3 } : State).tree ∧
      ({ State.reset with tree := treeV3 } : State).tree.leafCount = 1 := ⟨⟨rfl, rfl⟩, witness_treeCaseOne, rfl⟩

/-- `DeriveOfOneLeaf`: vector V3. -/
theorem witness_oneLeaf :
    Ready .command { State.reset with tree := treeV3 } ∧ treeV3.rootValid = true ∧
      nodeAt treeV3 treeV3.root = .leaf 0x61 4 := ⟨⟨rfl, rfl⟩, rfl, rfl⟩

/-- `DeriveAgainChangesNothing`: an accepted DERIVE. -/
theorem witness_deriveAgain :
    Ready .command { State.reset with tree := treeV3 } ∧
      ∃ t, exec .derive { State.reset with tree := treeV3 } = .next t := ⟨⟨rfl, rfl⟩, _, rfl⟩

/-- `MeasureAddsUpTheLengths`, `EncodeWritesTheCodes`, `MeasureForetellsEncode`: "aaab" with OUT_CAP exactly 4. -/
theorem witness_encode :
    Ready .command (outCapacity 4 afterP1) ∧ (outCapacity 4 afterP1).inLen ≤ (outCapacity 4 afterP1).params.inCap ∧
      bitsOfFirst (outCapacity 4 afterP1) (outCapacity 4 afterP1).inLen ≤ (outCapacity 4 afterP1).params.outCap :=
  ⟨⟨rfl, rfl⟩, by decide, by decide +kernel⟩

/-- `EncodeStopsWhenFull`: "aaab" with OUT_CAP 3. -/
theorem witness_encodeStops :
    Ready .command (outCapacity 3 afterP1) ∧ (outCapacity 3 afterP1).inLen ≤ (outCapacity 3 afterP1).params.inCap ∧
      (outCapacity 3 afterP1).params.outCap < bitsOfFirst (outCapacity 3 afterP1) (outCapacity 3 afterP1).inLen :=
  ⟨⟨rfl, rfl⟩, by decide, by decide +kernel⟩

/-- "aaab" with the counts of V1. -/
def compressV1 : State := withInput [0x61, 0x61, 0x61, 0x62] (counts [(0x61, 3), (0x62, 1)])

/-- `CompressedLengthIsTheWeightedSum`, `CompressScriptRunsTheCommands`: the counts of V1 are the histogram of "aaab". -/
theorem witness_histogram :
    Ready .command compressV1 ∧ FreqIsHistogram compressV1 ∧ 1 ≤ compressV1.inLen ∧
      compressV1.inLen ≤ compressV1.params.inCap := by
  refine ⟨⟨rfl, rfl⟩, fun b hb => ?_, by decide, by decide⟩
  rw [show freqAt compressV1 b = freqAt (counts [(0x61, 3), (0x62, 1)]) b from rfl, freqAt_counts _ hb]
  revert b
  decide +kernel

theorem storeCode_codesV1 (b : Nat) :
    storeCode codesV1 b = if b = 0x61 then [true] else if b = 0x62 then [false] else [] := by
  simp only [storeCode, codesV1, cellGet]
  by_cases h1 : b = 0x61
  · subst h1; rfl
  · rw [if_neg (Ne.symm h1), if_neg h1]
    by_cases h2 : b = 0x62
    · subst h2; rfl
    · rw [if_neg (Ne.symm h2), if_neg h2]; rfl

theorem prefixCode_codesV1 : PrefixCode codesV1 := by
  intro a b hab ha hb
  rw [storeCode_codesV1] at ha hb ⊢
  rw [storeCode_codesV1]
  split at ha
  · split at hb
    · omega
    · split at hb
      · simp_all
      · exact absurd rfl hb
  · split at ha
    · split at hb
      · simp_all
      · split at hb
        · omega
        · exact absurd rfl hb
    · exact absurd rfl ha

/-- `OutputGivesTheInputBack`: two inputs under the table of V1, none of their bytes skipped. -/
theorem witness_givesBack :
    Ready .command afterP1 ∧ Ready .command (withInput [0x62] afterP1) ∧
      afterP1.inLen ≤ afterP1.params.inCap ∧ (withInput [0x62] afterP1).inLen ≤ (withInput [0x62] afterP1).params.inCap ∧
      bitsOfFirst afterP1 afterP1.inLen ≤ afterP1.params.outCap ∧
      bitsOfFirst (withInput [0x62] afterP1) (withInput [0x62] afterP1).inLen ≤
        (withInput [0x62] afterP1).params.outCap ∧
      missingInFirst afterP1 afterP1.inLen = 0 ∧
      missingInFirst (withInput [0x62] afterP1) (withInput [0x62] afterP1).inLen = 0 ∧
      PrefixCode afterP1.codes ∧ afterP1.codes = (withInput [0x62] afterP1).codes :=
  ⟨⟨rfl, rfl⟩, ⟨rfl, rfl⟩, by decide, by decide, by decide +kernel, by decide +kernel, by decide +kernel,
    by decide +kernel, prefixCode_codesV1, rfl⟩

/-- `CommandsKeepTheRest`, `ErrorsAreReported`: an accepted CLEAR and a refused DERIVE. -/
theorem witness_commands :
    (Ready .command afterP1 ∧ afterP1.engState = .idle ∧ ∃ t, exec .clear afterP1 = .next t) ∧
      (Ready .command State.reset ∧ State.reset.engState = .idle ∧ issueError .derive State.reset = some .noTree ∧
        ∃ t, exec .derive State.reset = .next t) :=
  ⟨⟨⟨rfl, rfl⟩, rfl, _, rfl⟩, ⟨⟨rfl, rfl⟩, rfl, rfl, _, rfl⟩⟩

/-- `HiddenRegistersDoNotMatter`: one state for each level. -/
theorem witness_hidden :
    afterP1.params.level = .command ∧ Ready .step (atLevel .step afterP1) ∧ (atLevel .step afterP1).engState = .idle :=
  ⟨rfl, ⟨rfl, rfl⟩, rfl⟩

theorem weightAt_treeV1 (i : Nat) : weightAt treeV1 i ≤ 4 := by
  simp only [weightAt, nodeAt_treeV1]
  split
  · decide
  · split
    · decide
    · split <;> decide

/-- `StepKeepsTheInvariant`, `NoStepFaults`, `StepKeepsTheSpacesCanonical`: the state after P1 meets the invariant, and
steps. -/
theorem witness_inv :
    afterP1.params.level = .command ∧ Inv afterP1 ∧ Memory.wf afterP1 ∧ ∃ t, step afterP1 = .next t := by
  have hm : Memory.wf afterP1 := by decide +kernel
  refine ⟨rfl, ?_, hm, _, rfl⟩
  exact
    { params := by decide +kernel
      memory := hm
      idle := ⟨rfl, rfl⟩
      freqFits := by decide +kernel
      inLenFits := by decide +kernel
      tree := .inr witness_treeCase
      weightsFit := fun i => Nat.lt_of_le_of_lt (weightAt_treeV1 i) (by decide +kernel)
      codesShort := fun b => by
        show (storeCode codesV1 b).length ≤ 255
        rw [storeCode_codesV1]
        split
        · decide
        · split <;> decide
      codesPrefixFree := prefixCode_codesV1
      skipCount := by decide
      inPos := by decide
      outCount := by decide
      totalBits := by decide
      outSymbols := by decide }

/-- `StepKeepsStatusInv`, `StepKeepsTheParameters`, `EngineFollowsTheTable`: a step of the engine. -/
theorem witness_engineStep :
    StatusInv (running .pClear 2 State.reset) ∧ (∃ t, step (running .pClear 2 State.reset) = .next t) ∧
      ∃ t, engineStep (running .pClear 2 State.reset) = .next t :=
  ⟨⟨by decide, by decide, by decide⟩, ⟨_, rfl⟩, ⟨_, rfl⟩⟩

/-- `LevelBIssueStartsTheEngine`: an accepted DERIVE. -/
theorem witness_issueB :
    Ready .step (atLevel .step afterP1) ∧ issueError .derive (atLevel .step afterP1) = none := ⟨⟨rfl, rfl⟩, rfl⟩

/-- `LevelBClearRefines` to `LevelBEncodeRefines`: with a tree of two leaves, with one leaf, and with the empty case. -/
theorem witness_readyB :
    (Ready .step (atLevel .step afterP1) ∧ TreeInv (atLevel .step afterP1).tree) ∧
      (Ready .step (atLevel .step { State.reset with tree := treeV3 }) ∧
        TreeInv (atLevel .step { State.reset with tree := treeV3 }).tree) ∧
      (Ready .step (atLevel .step State.reset) ∧ TreeInv (atLevel .step State.reset).tree) :=
  ⟨⟨⟨rfl, rfl⟩, .inr witness_treeCase⟩, ⟨⟨rfl, rfl⟩, .inr witness_treeCaseOne⟩, ⟨rfl, rfl⟩, .inl rfl⟩

/-- `LevelBBuildRefines`: all counts 0, and some not. -/
theorem witness_buildB :
    (Ready .step (atLevel .step (counts [])) ∧ freqSymbols (atLevel .step (counts [])) = 0) ∧
      (Ready .step (atLevel .step bigCounts) ∧ freqSymbols (atLevel .step bigCounts) ≠ 0) := by
  refine ⟨⟨⟨rfl, rfl⟩, List.countP_eq_zero.mpr fun b hb => ?_⟩, ⟨rfl, rfl⟩, witness_someCounts.2.1⟩
  have h0 : freqAt (atLevel .step (counts [])) b = 0 := freqAt_counts [] (List.mem_range.mp hb)
  rw [h0]
  decide

/-- `LevelBMeasureRefines`, `LevelBEncodeRefines`: an input that is refused, and one that does not fit OUT. -/
theorem witness_encodeB :
    (Ready .step (atLevel .step tooLong) ∧ (atLevel .step tooLong).params.inCap < (atLevel .step tooLong).inLen) ∧
      (Ready .step (atLevel .step (outCapacity 3 afterP1)) ∧
        (atLevel .step (outCapacity 3 afterP1)).inLen ≤ (atLevel .step (outCapacity 3 afterP1)).params.inCap ∧
        (atLevel .step (outCapacity 3 afterP1)).params.outCap <
          bitsOfFirst (atLevel .step (outCapacity 3 afterP1)) (atLevel .step (outCapacity 3 afterP1)).inLen) :=
  ⟨⟨⟨rfl, rfl⟩, by decide⟩, ⟨rfl, rfl⟩, by decide, by decide +kernel⟩

end Sys2Proof.Tests
end

section
/-! Every command is an issue (rule R102): the state it starts the engine in, and what it does whole at Level A. -/

namespace Sys2Proof.Machine

/-- A command after its acceptance, whole (rules R112, R116, R144, R165, R166). -/
def commandBody : Instr → State → Out
  | .clear => clearBody
  | .build => buildBody
  | .derive => deriveBody
  | .measure => measureBody
  | .encode => encodeBody

theorem exec_eq_issueCommand (i : Instr) (s : State) :
    exec i s = issueCommand i (startState i) (commandBody i) s := by
  cases i <;> rfl

theorem startState_ne_idle (i : Instr) : startState i ≠ .idle := by
  cases i <;> decide

end Sys2Proof.Machine
end

section
/-! The stable sort (rule R16): what it keeps of a pool, and that nothing else keeps as much. -/

namespace Sys2Proof.Machine

/-- The elements of one weight stand in the sorted pool as they stood in the pool. -/
theorem stableSort_filter (wt : Nat → Nat) (pool : List Nat) (w : Nat) :
    (stableSort wt pool).filter (fun z => wt z == w) = pool.filter (fun z => wt z == w) := by
  induction pool with
  | nil => rfl
  | cons x xs ih => rw [stableSort, insertByWeight_filter, List.filter_cons, List.filter_cons, ih]

/-- Sequences whose elements of each weight are the same, in the same order, have the same elements. -/
theorem mem_iff_of_filter_weight_eq {wt : Nat → Nat} {xs ys : List Nat}
    (h : ∀ w, xs.filter (fun z => wt z == w) = ys.filter (fun z => wt z == w)) (a : Nat) : a ∈ xs ↔ a ∈ ys := by
  have ha := congrArg (a ∈ ·) (h (wt a))
  simpa using ha

/-- The head of an ascending sequence is a lightest element. -/
theorem head_weight_le {wt : Nat → Nat} {x a : Nat} {xs : List Nat}
    (h : (x :: xs).Pairwise fun a b => wt a ≤ wt b) (ha : a ∈ x :: xs) : wt x ≤ wt a := by
  rcases List.mem_cons.mp ha with rfl | ha
  · exact Nat.le_refl _
  · exact List.rel_of_pairwise_cons h ha

/-- An ascending sequence is known by its elements of each weight: the head is the first of the lightest ones. -/
theorem eq_of_sorted_of_filter_weight_eq {wt : Nat → Nat} {xs ys : List Nat}
    (hx : xs.Pairwise fun a b => wt a ≤ wt b) (hy : ys.Pairwise fun a b => wt a ≤ wt b)
    (h : ∀ w, xs.filter (fun z => wt z == w) = ys.filter (fun z => wt z == w)) : xs = ys := by
  have hmem := mem_iff_of_filter_weight_eq h
  induction xs generalizing ys with
  | nil => exact (List.eq_nil_iff_forall_not_mem.mpr fun a ha => List.not_mem_nil ((hmem a).mpr ha)).symm
  | cons x xs ih =>
    cases ys with
    | nil => exact absurd ((hmem x).mp List.mem_cons_self) List.not_mem_nil
    | cons y ys =>
      have hw : wt x = wt y :=
        Nat.le_antisymm (head_weight_le hx ((hmem y).mpr List.mem_cons_self))
          (head_weight_le hy ((hmem x).mp List.mem_cons_self))
      have hhead : x = y := by
        have h0 := h (wt x)
        rw [List.filter_cons_of_pos (by simp), List.filter_cons_of_pos (by simp [hw])] at h0
        exact (List.cons.inj h0).1
      subst hhead
      have htail : ∀ w, xs.filter (fun z => wt z == w) = ys.filter (fun z => wt z == w) := fun w => by
        have h0 := h w
        rw [List.filter_cons, List.filter_cons] at h0
        split at h0
        · exact (List.cons.inj h0).2
        · exact h0
      rw [ih hx.of_cons hy.of_cons htail (mem_iff_of_filter_weight_eq htail)]

/-- Settles O22: an insertion keeps the order of equal weights, and an ascending sequence is known by its elements of
each weight. -/
theorem sortIsStable : Obligations.SortIsStable := by
  unfold Obligations.SortIsStable
  intro wt pool
  refine ⟨⟨stableSort_perm wt pool, stableSort_sorted wt pool, stableSort_filter wt pool⟩, ?_⟩
  intro other _ hsorted hfilter
  exact eq_of_sorted_of_filter_weight_eq hsorted (stableSort_sorted wt pool) fun w =>
    (hfilter w).trans (stableSort_filter wt pool w).symm

end Sys2Proof.Machine
end

section
/-! The weights of the node store while BUILD runs (rules R113 to R116, R121): the pool's members weigh together what
has been seeded, and no node weighs more. -/

namespace Sys2Proof.Machine

/-- The members of the pool are nodes of the store and weigh `total` together, and no node weighs more. -/
structure PoolWeighs (t : Tree) (total : Nat) : Prop where
  members : ∀ i ∈ t.work, i < t.nodeCount
  sum : (t.work.map (weightAt t)).sum = total
  bound : ∀ i, weightAt t i ≤ total

theorem weightAt_seedByte (b count i : Nat) (t : Tree) :
    weightAt (seedByte b count t) i = if count ≠ 0 ∧ i = t.nodeCount then count else weightAt t i := by
  simp only [weightAt, nodeAt_seedByte]
  split <;> rfl

theorem weightAt_mergeOnce {t : Tree} {a b : Nat} {rest : List Nat}
    (hs : stableSort (weightAt t) t.work = a :: b :: rest) (i : Nat) :
    weightAt (mergeOnce t) i = if i = t.nodeCount then weightAt t a + weightAt t b else weightAt t i := by
  simp only [mergeOnce_eq t hs, weightAt, nodeAt]
  rw [storeNode_setNode (by simp)]
  split <;> rfl

/-- A write to the first free node changes no weight in a pool of nodes below it. -/
theorem map_weight_eq_of_below {t t' : Tree} {pool : List Nat} (hpool : ∀ i ∈ pool, i < t.nodeCount)
    (h : ∀ i, i ≠ t.nodeCount → weightAt t' i = weightAt t i) : pool.map (weightAt t') = pool.map (weightAt t) :=
  List.map_congr_left fun i hi => h i (Nat.ne_of_lt (hpool i hi))

theorem poolWeighs_empty : PoolWeighs Tree.empty 0 where
  members := nofun
  sum := rfl
  bound _ := Nat.le_refl _

/-- Seeding a byte value adds its count to the weight of the pool. -/
theorem seedByte_poolWeighs {t : Tree} {total : Nat} (b count : Nat) (h : PoolWeighs t total) :
    PoolWeighs (seedByte b count t) (total + count) := by
  by_cases hc : count = 0
  · simpa [seedByte, hc] using h
  · have hwork : (seedByte b count t).work = t.work ++ [t.nodeCount] := by simp [seedByte, hc]
    have hcount : (seedByte b count t).nodeCount = t.nodeCount + 1 := by simp [seedByte, hc]
    refine ⟨fun i hi => ?_, ?_, fun i => ?_⟩
    · rw [hwork, List.mem_append, List.mem_singleton] at hi
      rw [hcount]
      rcases hi with hi | rfl
      · exact Nat.lt_succ_of_lt (h.members i hi)
      · exact Nat.lt_succ_self _
    · have hold := map_weight_eq_of_below (t' := seedByte b count t) h.members fun i hi => by
        simp [weightAt_seedByte, hi]
      rw [hwork, List.map_append, List.sum_append, hold, h.sum]
      simp [weightAt_seedByte, hc]
    · have hi := h.bound i
      rw [weightAt_seedByte]
      split <;> omega

/-- Seeding the first `n` byte values makes a pool that weighs the sum of their counts. -/
theorem seedUpTo_poolWeighs (freq : Nat → Nat) (n : Nat) :
    PoolWeighs (seedUpTo freq n Tree.empty) ((List.range n).map freq).sum := by
  induction n with
  | zero => exact poolWeighs_empty
  | succ n ih =>
    rw [List.range_succ, List.map_append, List.sum_append, List.map_singleton, List.sum_singleton]
    exact seedByte_poolWeighs n (freq n) ih

/-- A merge keeps the weight of the pool: the new node weighs what the two it replaces weighed. -/
theorem mergeOnce_poolWeighs {t : Tree} {total : Nat} (hw : 2 ≤ t.work.length) (h : PoolWeighs t total) :
    PoolWeighs (mergeOnce t) total := by
  obtain ⟨a, b, rest, hs⟩ := stableSort_two (weightAt t) hw
  have hperm : (a :: b :: rest).Perm t.work := hs ▸ stableSort_perm (weightAt t) t.work
  have hmem : ∀ i ∈ rest, i < t.nodeCount := fun i hi => h.members i (hperm.mem_iff.mp (by simp [hi]))
  have hsum : weightAt t a + (weightAt t b + (rest.map (weightAt t)).sum) = total := by
    simpa [← h.sum] using (hperm.map (weightAt t)).sum_eq
  have hwork : (mergeOnce t).work = rest ++ [t.nodeCount] := by rw [mergeOnce_eq t hs]
  have hcount : (mergeOnce t).nodeCount = t.nodeCount + 1 := by rw [mergeOnce_eq t hs]
  refine ⟨fun i hi => ?_, ?_, fun i => ?_⟩
  · rw [hwork, List.mem_append, List.mem_singleton] at hi
    rw [hcount]
    rcases hi with hi | rfl
    · exact Nat.lt_succ_of_lt (hmem i hi)
    · exact Nat.lt_succ_self _
  · have hold := map_weight_eq_of_below (t' := mergeOnce t) hmem fun i hi => by
      rw [weightAt_mergeOnce hs, if_neg hi]
    rw [hwork, List.map_append, List.sum_append, hold, List.map_singleton, List.sum_singleton,
      weightAt_mergeOnce hs, if_pos rfl]
    omega
  · have hi := h.bound i
    rw [weightAt_mergeOnce hs]
    split <;> omega

theorem mergeWhile_poolWeighs (fuel : Nat) {t : Tree} {total : Nat} (h : PoolWeighs t total) :
    PoolWeighs (mergeWhile fuel t) total := by
  induction fuel generalizing t with
  | zero => exact h
  | succ fuel ih =>
    rw [mergeWhile]
    split
    · next hw => exact ih (mergeOnce_poolWeighs hw h)
    · exact h

/-- A merge takes one member off a pool of two or more. -/
theorem mergeOnce_work_length {t : Tree} (hw : 2 ≤ t.work.length) :
    (mergeOnce t).work.length = t.work.length - 1 := by
  have hlen : (sortPool t).work.length = t.work.length := stableSort_length _ _
  rw [mergeOnce, (mergeFirstTwo_counts (hlen.symm ▸ hw)).2, hlen]

/-- Enough turns of the merge loop leave at most one member in the pool. -/
theorem mergeWhile_work_length_le_one {fuel : Nat} {t : Tree} (hf : t.work.length ≤ fuel + 1) :
    (mergeWhile fuel t).work.length ≤ 1 := by
  induction fuel generalizing t with
  | zero => exact hf
  | succ fuel ih =>
    rw [mergeWhile]
    split
    · next hw => exact ih (by rw [mergeOnce_work_length hw]; omega)
    · next hw => exact Nat.le_of_not_lt hw

theorem mergeAll_poolWeighs {t : Tree} {total : Nat} (h : PoolWeighs t total) : PoolWeighs (mergeAll t) total :=
  mergeWhile_poolWeighs t.work.length h

theorem mergeAll_work_length_le_one (t : Tree) : (mergeAll t).work.length ≤ 1 :=
  mergeWhile_work_length_le_one (Nat.le_succ _)

@[simp] theorem weightAt_setRoot (t : Tree) (i : Nat) : weightAt (setRoot t) i = weightAt t i := rfl

/-- A pool of one member makes it the root, which weighs what the pool weighs. -/
theorem setRoot_root_weight {t : Tree} {total : Nat} (h : PoolWeighs t total) (hlen : t.work.length ≤ 1)
    (hne : total ≠ 0) : weightAt (setRoot t) (setRoot t).root = total := by
  have hsum := h.sum
  show weightAt t (t.work.headD 0) = total
  match hwork : t.work with
  | [] => simp [hwork, hne.symm] at hsum
  | [r] => simpa [hwork] using hsum
  | _ :: _ :: _ => simp [hwork] at hlen

/-- The tree BUILD makes of some counts (rule R116). -/
def builtTree (freq : Nat → Nat) : Tree := setRoot (mergeAll (seedUpTo freq 256 Tree.empty))

/-- No node of the built tree weighs more than all counts together. -/
theorem builtTree_weight_le (freq : Nat → Nat) (i : Nat) :
    weightAt (builtTree freq) i ≤ ((List.range 256).map freq).sum :=
  (mergeAll_poolWeighs (seedUpTo_poolWeighs freq 256)).bound i

/-- The root of the built tree weighs all counts together. -/
theorem builtTree_root_weight {freq : Nat → Nat} (hne : ((List.range 256).map freq).sum ≠ 0) :
    weightAt (builtTree freq) (builtTree freq).root = ((List.range 256).map freq).sum :=
  setRoot_root_weight (mergeAll_poolWeighs (seedUpTo_poolWeighs freq 256)) (mergeAll_work_length_le_one _) hne

/-- All counts are 0 exactly when no byte value has a non-zero count. -/
theorem freqTotal_eq_zero_iff (s : State) : freqTotal s = 0 ↔ freqSymbols s = 0 := by
  simp [freqTotal, freqSymbols, List.sum_eq_zero_iff, List.countP_eq_zero]

/-- BUILD of some non-zero count at Level A, with everything it leaves (rule R116). -/
theorem exec_build_of_symbols {s : State} (hr : Ready .command s) (hn : freqSymbols s ≠ 0) :
    exec .build s =
      .next { ended .build .none s with tree := builtTree (freqAt s), workEra := s.workEra + 1 } := by
  have hpool : (seedUpTo (freqAt s) 256 Tree.empty).work.length ≠ 0 := fun h0 => by
    have hsum := (seedUpTo_poolWeighs (freqAt s) 256).sum
    rw [List.length_eq_zero_iff.mp h0] at hsum
    exact hn ((freqTotal_eq_zero_iff s).mp hsum.symm)
  obtain ⟨hbusy, hlevel⟩ := hr
  have hissue : exec .build s = buildBody (acceptCommand .build s) := by
    simp [exec_eq_issueCommand, issueCommand, issueError, commandBody, hbusy, hlevel]
  rw [hissue]
  exact if_neg hpool

/-- Counts of FREQ_W bits add up to a total of WEIGHT_W bits (rule R9). -/
theorem freqTotal_lt {s : State} (h : ∀ b, b < 256 → freqAt s b < 2 ^ s.params.freqW) :
    freqTotal s < 2 ^ s.params.weightW := by
  have hle : freqTotal s ≤ 256 * (2 ^ s.params.freqW - 1) := by
    simpa [freqTotal] using List.sum_le_card_nsmul ((List.range 256).map (freqAt s)) (2 ^ s.params.freqW - 1)
      (by simpa using fun b hb => Nat.le_sub_one_of_lt (h b hb))
  have hpos : 0 < 2 ^ s.params.freqW := Nat.two_pow_pos _
  rw [Params.weightW, Nat.pow_add]
  omega

/-- Settles O30: while BUILD runs, the pool weighs all counts seeded and no node weighs more; at the end the root is the
pool's one member. -/
theorem rootWeightIsTheSum : Obligations.RootWeightIsTheSum := by
  unfold Obligations.RootWeightIsTheSum
  intro s hr hn
  have hbound := builtTree_weight_le (freqAt s)
  have htotal : freqTotal s ≠ 0 := mt (freqTotal_eq_zero_iff s).mp hn
  exact ⟨_, exec_build_of_symbols hr hn, builtTree_root_weight htotal, hbound,
    fun hfits i => Nat.lt_of_le_of_lt (hbound i) (freqTotal_lt hfits)⟩

end Sys2Proof.Machine
end

section
/-! The parameters, BUSY, DONE, ERR and ENG_STATE through a step (rules R8, R20, R35, R36): what a step of the engine and
what a command can do to them, said once each. -/

namespace Sys2Proof.Machine

variable {s t : State}

/-- No command is running: BUSY = 0 and ENG_STATE = IDLE. -/
def EngineAtRest (t : State) : Prop := t.busy = false ∧ t.engState = .idle

/-- A command that was running in `s` goes on in `t`, with BUSY, DONE and ERR as they were. -/
def StillRunning (s t : State) : Prop :=
  s.engState ≠ .idle ∧ t.engState ≠ .idle ∧ t.busy = s.busy ∧ t.done = s.done ∧ t.err = s.err

theorem finish_atRest (s : State) : EngineAtRest (finish s) := ⟨rfl, rfl⟩

theorem raiseError_atRest (e : Err) (s : State) : EngineAtRest (raiseError e s) := ⟨rfl, rfl⟩

/-- What a step of the engine can do to the parameters, BUSY, DONE, ERR and ENG_STATE: nothing, end the command, or let
it run on (rule R105). -/
def EngineControl (s t : State) : Prop :=
  t.params = s.params ∧ (t = s ∨ EngineAtRest t ∨ StillRunning s t)

theorem EngineControl.ends (hp : t.params = s.params) (hr : EngineAtRest t) : EngineControl s t :=
  ⟨hp, .inr (.inl hr)⟩

theorem EngineControl.runsOn (hp : t.params = s.params) (hr : StillRunning s t) : EngineControl s t :=
  ⟨hp, .inr (.inr hr)⟩

theorem engineStep_control (h : engineStep s = .next t) : EngineControl s t := by
  unfold engineStep at h
  generalize hs : s.engState = e at h
  cases e with
  | idle => cases h; exact ⟨rfl, .inl rfl⟩
  | pClear =>
    simp only [stepPClear] at h
    split at h <;> cases h
    · exact .ends rfl (finish_atRest _)
    · exact .runsOn rfl (by simp [StillRunning, hs])
  | bSeed =>
    obtain ⟨_, _, _, rfl⟩ := stepBSeed_cases h
    exact .runsOn rfl (by simp [StillRunning, hs, ite_eq_iff])
  | bCheck =>
    simp only [stepBCheck] at h
    split at h
    · cases h; exact .ends rfl (raiseError_atRest _ _)
    · split at h <;> cases h
      · exact .ends rfl (finish_atRest _)
      · exact .runsOn rfl (by simp [StillRunning, hs])
  | bSort => cases h; exact .runsOn rfl (by simp [StillRunning, hs])
  | bMerge =>
    obtain ⟨_, _, rfl⟩ := stepBMerge_cases h
    exact .runsOn rfl (by simp [StillRunning, hs])
  | dClear => cases h; exact .runsOn rfl (by simp [StillRunning, hs])
  | dRoot =>
    simp only [stepDRoot] at h
    split at h <;> cases h
    · exact .ends rfl (finish_atRest _)
    · exact .runsOn rfl (by simp [StillRunning, hs])
  | dVisit =>
    rcases stepDVisit_cases h with ⟨_, _, _, _, rfl⟩ | ⟨_, _, _, _, _, _, _, _, rfl⟩ | ⟨_, _, _, _, _, _, rfl⟩
    · exact .ends rfl (finish_atRest _)
    · exact .runsOn rfl (by simp [StillRunning, hs])
    · exact .runsOn rfl (by simp [StillRunning, hs])
  | xInit =>
    simp only [stepXInit] at h
    split at h <;> cases h <;> exact .runsOn rfl (by simp [StillRunning, hs])
  | xFetch =>
    rcases stepXFetch_cases h with ⟨_, rfl⟩ | ⟨_, _, ⟨_, rfl⟩ | ⟨_, ⟨_, rfl⟩ | ⟨_, ⟨_, rfl⟩ | ⟨_, rfl⟩⟩⟩⟩
    · exact .ends rfl (finish_atRest _)
    · exact .runsOn rfl (by simp [StillRunning, hs])
    · exact .runsOn rfl (by simp [StillRunning, hs])
    · exact .ends rfl (raiseError_atRest _ _)
    · exact .runsOn rfl (by simp [StillRunning, hs])
  | xEmit =>
    obtain ⟨_, _, _, rfl⟩ := stepXEmit_cases h
    exact .runsOn rfl (by simp [StillRunning, hs, ite_eq_iff])

theorem measureLoop_params (n : Nat) (s : State) : (measureLoop n s).params = s.params := by
  induction n generalizing s with
  | zero => rfl
  | succ n ih =>
    simp only [measureLoop]
    split <;> rw [ih] <;> rfl

/-- The loop of ENCODE ends the command, whichever way it ends. -/
theorem encodeLoop_control (n : Nat) (s : State) :
    (encodeLoop n s).params = s.params ∧ EngineAtRest (encodeLoop n s) := by
  induction n generalizing s with
  | zero => exact ⟨rfl, finish_atRest s⟩
  | succ n ih =>
    simp only [encodeLoop]
    split
    · exact ih (skipByte s)
    · split
      · exact ⟨rfl, raiseError_atRest _ s⟩
      · exact ih (appendCode _ s)

/-- A whole command at Level A keeps the parameters and leaves the engine at rest. -/
def EndsCommand (body : State → Out) : Prop :=
  ∀ s t, body s = .next t → t.params = s.params ∧ EngineAtRest t

theorem clearBody_ends : EndsCommand clearBody := by
  intro s t h
  cases h
  exact ⟨rfl, finish_atRest _⟩

theorem buildBody_ends : EndsCommand buildBody := by
  intro s t h
  simp only [buildBody] at h
  split at h <;> cases h
  · exact ⟨rfl, raiseError_atRest _ _⟩
  · exact ⟨rfl, finish_atRest _⟩

theorem deriveBody_ends : EndsCommand deriveBody := by
  intro s t h
  simp only [deriveBody] at h
  split at h <;> cases h
  exact ⟨rfl, finish_atRest _⟩

theorem measureBody_ends : EndsCommand measureBody := by
  intro s t h
  cases h
  exact ⟨measureLoop_params s.inLen (measureInit s), finish_atRest _⟩

theorem encodeBody_ends : EndsCommand encodeBody := by
  intro s t h
  cases h
  exact encodeLoop_control s.inLen (encodeInit s)

theorem commandBody_ends (i : Instr) : EndsCommand (commandBody i) := by
  cases i with
  | clear => exact clearBody_ends
  | build => exact buildBody_ends
  | derive => exact deriveBody_ends
  | measure => exact measureBody_ends
  | encode => exact encodeBody_ends

/-- What the issue of a command can do to the parameters, BUSY, DONE, ERR and ENG_STATE: refuse it, run it whole, or set
the engine going (rules R10, R102). -/
def IssueControl (s t : State) : Prop :=
  t.params = s.params ∧
    ((t.busy = s.busy ∧ t.engState = s.engState) ∨ EngineAtRest t ∨
      (s.params.level = .step ∧ t.busy = true ∧ t.done = false ∧ t.err = .none ∧ t.engState ≠ .idle))

theorem issueCommand_control {i : Instr} {start : EngState} {body : State → Out} (hstart : start ≠ .idle)
    (hbody : EndsCommand body) (h : issueCommand i start body s = .next t) : IssueControl s t := by
  rcases issueCommand_cases h with ⟨_, ⟨e, _, rfl⟩ | ⟨_, _, hb⟩ | ⟨_, hl, rfl⟩⟩
  · exact ⟨rfl, .inl ⟨rfl, rfl⟩⟩
  · obtain ⟨hp, hr⟩ := hbody _ _ hb
    exact ⟨hp, .inr (.inl hr)⟩
  · exact ⟨rfl, .inr (.inr ⟨hl, rfl, rfl, rfl, hstart⟩)⟩

theorem exec_control {i : Instr} (h : exec i s = .next t) : IssueControl s t := by
  rw [exec_eq_issueCommand] at h
  exact issueCommand_control (startState_ne_idle i) (commandBody_ends i) h

/-- A host write of data changes none of the registers of control. -/
theorem writePlace_control (pl : Place) (v : Nat) (s : State) :
    (writePlace pl v s).params = s.params ∧ (writePlace pl v s).busy = s.busy ∧ (writePlace pl v s).done = s.done ∧
      (writePlace pl v s).err = s.err ∧ (writePlace pl v s).engState = s.engState := by
  rcases writePlace_cases pl v s with h | ⟨_, h⟩ | ⟨_, _, h⟩ | ⟨_, _, h⟩ <;> rw [h] <;> exact ⟨rfl, rfl, rfl, rfl, rfl⟩

/-! ### The agreement of BUSY, DONE, ERR and ENG_STATE -/

theorem statusInv_of_atRest (h : EngineAtRest t) : StatusInv t := by
  obtain ⟨hbusy, heng⟩ := h
  simp [StatusInv, hbusy, heng]

theorem StatusInv.atRest_of_not_busy (hi : StatusInv s) (hb : s.busy = false) : EngineAtRest s := by
  obtain ⟨hbusy, _, _⟩ := hi
  exact ⟨hb, Classical.byContradiction fun hne => by simp [hbusy.mpr hne] at hb⟩

/-- The agreement speaks of the level and of four registers only. -/
theorem StatusInv.congr (hi : StatusInv s) (hp : t.params = s.params) (hb : t.busy = s.busy) (hd : t.done = s.done)
    (he : t.err = s.err) (hs : t.engState = s.engState) : StatusInv t := by
  simpa only [StatusInv, hp, hb, hd, he, hs] using hi

theorem engineStep_statusInv (hi : StatusInv s) (h : engineStep s = .next t) : StatusInv t := by
  obtain ⟨hp, rfl | hr | ⟨hs, ht, hb, hd, he⟩⟩ := engineStep_control h
  · exact hi
  · exact statusInv_of_atRest hr
  · obtain ⟨hbusy, hquiet, hlevel⟩ := hi
    have hrun : s.busy = true := hbusy.mpr hs
    exact ⟨iff_of_true (hb.trans hrun) ht, fun _ => by rw [hd, he]; exact hquiet hrun,
      fun hl => absurd (hlevel (hp ▸ hl)) hs⟩

theorem exec_statusInv {i : Instr} (hi : StatusInv s) (hb : s.busy = false) (h : exec i s = .next t) :
    StatusInv t := by
  obtain ⟨hp, ⟨hbusy, heng⟩ | hr | ⟨hl, hbusy, hdone, herr, heng⟩⟩ := exec_control h
  · obtain ⟨_, hidle⟩ := hi.atRest_of_not_busy hb
    exact statusInv_of_atRest ⟨hbusy.trans hb, heng.trans hidle⟩
  · exact statusInv_of_atRest hr
  · exact ⟨iff_of_true hbusy heng, fun _ => ⟨hdone, herr⟩, fun hc => by rw [hp, hl] at hc; cases hc⟩

/-- Settles O51, by the cases of a step: only the engine and the issue of a command move the status registers. -/
theorem stepKeepsStatusInv : Obligations.StepKeepsStatusInv := by
  unfold Obligations.StepKeepsStatusInv
  intro s t hi h
  obtain ⟨rest, _, hcase⟩ := step_cases h
  have hi' : StatusInv { s with script := rest } := hi
  rcases hcase with hengine | ⟨_, _, _, _, _, rfl⟩ | ⟨_, _, pl, v, _, _, _, _, rfl⟩ | ⟨hb, rfl⟩ | ⟨i, hb, hexec⟩ |
    ⟨_, rfl⟩ | rfl
  · exact engineStep_statusInv hi' hengine
  · exact hi
  · obtain ⟨hp, hb, hd, he, hs⟩ := writePlace_control pl v { s with script := rest }
    exact hi'.congr hp hb hd he hs
  · exact statusInv_of_atRest (hi.atRest_of_not_busy hb)
  · exact exec_statusInv hi' hb hexec
  · exact hi
  · exact statusInv_of_atRest ⟨rfl, rfl⟩

/-- Settles O52, by the cases of a step; a reset event keeps the parameters too. -/
theorem stepKeepsTheParameters : Obligations.StepKeepsTheParameters := by
  unfold Obligations.StepKeepsTheParameters
  intro s t h
  obtain ⟨rest, _, hcase⟩ := step_cases h
  rcases hcase with hengine | ⟨_, _, _, _, _, rfl⟩ | ⟨_, _, pl, v, _, _, _, _, rfl⟩ | ⟨_, rfl⟩ | ⟨i, _, hexec⟩ |
    ⟨_, rfl⟩ | rfl
  · exact (engineStep_control hengine).1
  · rfl
  · exact (writePlace_control pl v _).1
  · rfl
  · exact (exec_control hexec).1
  · rfl
  · rfl

end Sys2Proof.Machine
end

section
/-! The issue of a command (rules R71, R81, R102), said once for each thing it can do, and the host's write to CMD that
leads to it. -/

namespace Sys2Proof.Machine

variable {s : State} {i : Instr}

theorem exec_of_busy (hb : s.busy = true) : exec i s = .refused .busyAccess := by
  simp [exec_eq_issueCommand, issueCommand, hb]

theorem exec_of_error {e : Err} (hb : s.busy = false) (he : issueError i s = some e) :
    exec i s = .next (refuseCommand e s) := by
  simp [exec_eq_issueCommand, issueCommand, hb, he]

/-- At Level A an accepted command runs whole. -/
theorem exec_of_command (hr : Ready .command s) (he : issueError i s = none) :
    exec i s = commandBody i (acceptCommand i s) := by
  obtain ⟨hb, hlevel⟩ := hr
  simp [exec_eq_issueCommand, issueCommand, hb, he, hlevel]

/-- At Level B an accepted command starts the engine. -/
theorem exec_of_step (hr : Ready .step s) (he : issueError i s = none) :
    exec i s = .next { acceptCommand i s with engState := startState i } := by
  obtain ⟨hb, hlevel⟩ := hr
  simp [exec_eq_issueCommand, issueCommand, hb, he, hlevel]

/-- The tests of rule R102 read nothing the acceptance writes. -/
theorem issueError_acceptCommand (i j : Instr) (s : State) : issueError i (acceptCommand j s) = issueError i s := by
  cases i <;> rfl

/-- The tests of rule R102 read no hidden register. -/
theorem issueError_withHidden (i : Instr) (s : State) (h : Hidden) :
    issueError i { s with hidden := h } = issueError i s := by
  cases i <;> rfl

theorem decode_encode (i : Instr) : decode (encode i) = some i := by
  cases i <;> decide

theorem issueWord_encode (hb : s.busy = false) : issueWord (encode i) s = exec i s := by
  simp [issueWord, hb, decode_encode]

/-- A host write to CMD is the issue of its word. -/
theorem hostWrite_cmd (hb : s.busy = false) (w : BitVec 8) : hostWrite 0 0 w.toNat s = issueWord w s := by
  have hplace : decodePlace s.params 0 0 = some (.csr .cmd) := rfl
  have hfits : ¬ 2 ^ placeWidth s.params (.csr .cmd) ≤ w.toNat := Nat.not_le.mpr w.isLt
  simp [hostWrite, hplace, hfits, hb]

/-- The next step of a state that waits for the issue of a command is that command. -/
theorem step_withIssue (hb : s.busy = false) : step (withIssue i s) = exec i { s with script := [] } :=
  (hostWrite_cmd (s := { s with script := [] }) hb (encode i)).trans (issueWord_encode hb)

end Sys2Proof.Machine
end

section
/-! The tree BUILD makes (rules R42, R113 to R116): the seeded leaves, and the forest the merges keep until one tree is
left. -/

namespace Sys2Proof.Machine

/-! ### Seeding (rule R113) -/

/-- The byte values below `n` with a non-zero count, in ascending order. -/
def countedBelow (freq : Nat → Nat) (n : Nat) : List Nat := (List.range n).filter fun b => freq b != 0

/-- The leaf seeded for a byte value. -/
def seedLeaf (freq : Nat → Nat) (b : Nat) : Node := .leaf (BitVec.ofNat 8 b) (freq b)

theorem countedBelow_succ (freq : Nat → Nat) (n : Nat) :
    countedBelow freq (n + 1) = if freq n = 0 then countedBelow freq n else countedBelow freq n ++ [n] := by
  by_cases h : freq n = 0 <;> simp [countedBelow, List.range_succ, List.filter_append, h]

theorem mem_countedBelow {freq : Nat → Nat} {n b : Nat} : b ∈ countedBelow freq n ↔ b < n ∧ freq b ≠ 0 := by
  simp [countedBelow]

theorem countedBelow_length_le (freq : Nat → Nat) (n : Nat) : (countedBelow freq n).length ≤ n :=
  (List.length_filter_le _ _).trans_eq List.length_range

theorem countedBelow_ascending (freq : Nat → Nat) (n : Nat) : (countedBelow freq n).Pairwise (· < ·) :=
  List.pairwise_lt_range.filter _

/-- Nothing but the leaves of the first `n` byte values, with all of them in the pool. -/
structure Seeded (freq : Nat → Nat) (n : Nat) (t : Tree) : Prop where
  leafCount : t.leafCount = (countedBelow freq n).length
  nodeCount : t.nodeCount = t.leafCount
  work : t.work = List.range t.leafCount
  nodes : ∀ i, nodeAt t i = (((countedBelow freq n)[i]?).map (seedLeaf freq)).getD .free

theorem seeded_empty (freq : Nat → Nat) : Seeded freq 0 Tree.empty := ⟨rfl, rfl, rfl, fun _ => rfl⟩

theorem seedByte_seeded {freq : Nat → Nat} {n : Nat} {t : Tree} (h : Seeded freq n t) :
    Seeded freq (n + 1) (seedByte n (freq n) t) := by
  obtain ⟨hleaf, hnode, hwork, hnodes⟩ := h
  by_cases h0 : freq n = 0
  · have hsame : seedByte n (freq n) t = t := if_pos h0
    rw [hsame]
    exact ⟨by simp [countedBelow_succ, h0, hleaf], hnode, hwork, by simpa [countedBelow_succ, h0] using hnodes⟩
  · have hcounted : countedBelow freq (n + 1) = countedBelow freq n ++ [n] := by simp [countedBelow_succ, h0]
    have hleaf' : (seedByte n (freq n) t).leafCount = t.leafCount + 1 := by simp [seedByte, h0]
    refine ⟨by simp [hleaf', hcounted, hleaf], by simp [seedByte, h0, hnode],
      by simp [seedByte, h0, hwork, hnode, List.range_succ], fun i => ?_⟩
    rw [nodeAt_seedByte, hnodes, hcounted, List.getElem?_append]
    rcases Nat.lt_trichotomy i (countedBelow freq n).length with hi | hi | hi
    · rw [if_neg (by omega), if_pos hi]
    · rw [if_pos ⟨h0, by omega⟩, if_neg (by omega)]
      simp [hi, seedLeaf]
    · rw [if_neg (by omega), if_neg (by omega), List.getElem?_eq_none (by omega),
        List.getElem?_eq_none (by simp; omega)]

theorem seedUpTo_seeded (freq : Nat → Nat) (n : Nat) : Seeded freq n (seedUpTo freq n Tree.empty) := by
  induction n with
  | zero => exact seeded_empty freq
  | succ n ih => exact seedByte_seeded ih

/-- Seeding counts that are all 0 changes nothing. -/
theorem seedUpTo_of_zero {freq : Nat → Nat} {n : Nat} (t : Tree) (h : ∀ b, b < n → freq b = 0) :
    seedUpTo freq n t = t := by
  induction n with
  | zero => rfl
  | succ n ih =>
    rw [seedUpTo, seedByte, if_pos (h n (Nat.lt_succ_self n))]
    exact ih fun b hb => h b (Nat.lt_succ_of_lt hb)

/-! ### The merges (rules R114, R115) -/

/-- The store while BUILD merges: the seeded leaves first, then internal nodes behind their children; the pool holds
the roots of the forest, the newest node among them. -/
structure Forest (freq : Nat → Nat) (t : Tree) : Prop where
  leafCount : t.leafCount = (countedBelow freq 256).length
  leaves : ∀ i b, (countedBelow freq 256)[i]? = some b → nodeAt t i = seedLeaf freq b
  internalNodes : ∀ i, t.leafCount ≤ i → i < t.nodeCount →
    ∃ l r, nodeAt t i = .internal (weightAt t l + weightAt t r) l r ∧ l < i ∧ r < i ∧ l ≠ r
  freeNodes : ∀ i, t.nodeCount ≤ i → nodeAt t i = .free
  counts : t.nodeCount + t.work.length = 2 * t.leafCount
  leafCount_le : t.leafCount ≤ t.nodeCount
  nodup : t.work.Nodup
  members : ∀ i ∈ t.work, i < t.nodeCount
  newest : t.nodeCount - 1 ∈ t.work
  oneParent : ∀ c, c < t.nodeCount → c ∉ t.work → ∃ i, childOf t c i ∧ ∀ j, childOf t c j → j = i
  noParent : ∀ c ∈ t.work, ∀ i, ¬ childOf t c i

variable {freq : Nat → Nat} {t : Tree}

theorem Forest.leaf_of_lt (h : Forest freq t) {i : Nat} (hi : i < t.leafCount) :
    ∃ b, b < 256 ∧ freq b ≠ 0 ∧ (countedBelow freq 256)[i]? = some b ∧ nodeAt t i = seedLeaf freq b := by
  have hlt : i < (countedBelow freq 256).length := h.leafCount ▸ hi
  have hget := List.getElem?_eq_getElem hlt
  obtain ⟨hb, hne⟩ := mem_countedBelow.mp (List.getElem_mem hlt)
  exact ⟨_, hb, hne, hget, h.leaves i _ hget⟩

/-- A child stands before its parent, which is a node. -/
theorem Forest.child_lt (h : Forest freq t) {c i : Nat} (hc : childOf t c i) : c < i ∧ i < t.nodeCount := by
  obtain ⟨w, l, r, hn, hc⟩ := hc
  have hlt : i < t.nodeCount := by
    by_contra hge
    rw [h.freeNodes i (Nat.le_of_not_lt hge)] at hn
    cases hn
  have hge : t.leafCount ≤ i := by
    by_contra hleaf
    obtain ⟨b, _, _, _, hb⟩ := h.leaf_of_lt (Nat.lt_of_not_le hleaf)
    rw [hb, seedLeaf] at hn
    cases hn
  obtain ⟨l', r', hn', hl, hr, _⟩ := h.internalNodes i hge hlt
  cases hn.symm.trans hn'
  exact ⟨by rcases hc with rfl | rfl <;> assumption, hlt⟩

/-- The seeded leaves are a forest of single nodes. -/
theorem Seeded.forest (h : Seeded freq 256 t) (hpos : 0 < t.leafCount) : Forest freq t := by
  obtain ⟨hleaf, hnode, hwork, hnodes⟩ := h
  have hno : ∀ c i, ¬ childOf t c i := by
    rintro c i ⟨w, l, r, hn, _⟩
    rw [hnodes] at hn
    cases hget : (countedBelow freq 256)[i]? <;> simp [hget, seedLeaf] at hn
  exact {
    leafCount := hleaf
    leaves := fun i b hb => by simp [hnodes, hb]
    internalNodes := fun i h1 h2 => by omega
    freeNodes := fun i hi => by simp [hnodes, List.getElem?_eq_none (hleaf ▸ hnode ▸ hi)]
    counts := by simp [hwork]; omega
    leafCount_le := hnode.ge
    nodup := hwork ▸ List.nodup_range
    members := fun i hi => by simpa [hwork, hnode] using hi
    newest := by simp [hwork]; omega
    oneParent := fun c hc hmem => absurd (by simpa [hwork, hnode] using hc) hmem
    noParent := fun c _ i => hno c i }

/-- `a` and `b` are the two lightest of the pool, which the merge takes off it, and `rest` are the others. -/
structure FirstTwo (t : Tree) (a b : Nat) (rest : List Nat) : Prop where
  sorted : stableSort (weightAt t) t.work = a :: b :: rest
  mem : ∀ c, c ∈ t.work ↔ c = a ∨ c = b ∨ c ∈ rest
  length : t.work.length = rest.length + 2
  ne : a ≠ b
  left_notMem : a ∉ rest
  right_notMem : b ∉ rest
  nodup : rest.Nodup

theorem Forest.firstTwo (h : Forest freq t) (hw : 2 ≤ t.work.length) : ∃ a b rest, FirstTwo t a b rest := by
  obtain ⟨a, b, rest, hs⟩ := stableSort_two (weightAt t) hw
  have hperm : (a :: b :: rest).Perm t.work := hs ▸ stableSort_perm (weightAt t) t.work
  have hnodup := hperm.nodup_iff.mpr h.nodup
  simp only [List.nodup_cons, List.mem_cons, not_or] at hnodup
  obtain ⟨⟨hab, har⟩, hbr, hrest⟩ := hnodup
  exact ⟨a, b, rest, hs, fun c => by simp [← hperm.mem_iff], hperm.length_eq.symm, hab, har, hbr, hrest⟩

section
variable {a b : Nat} {rest : List Nat}

theorem FirstTwo.work_mergeOnce (m : FirstTwo t a b rest) : (mergeOnce t).work = rest ++ [t.nodeCount] := by
  rw [mergeOnce_eq t m.sorted]

theorem FirstTwo.nodeCount_mergeOnce (m : FirstTwo t a b rest) : (mergeOnce t).nodeCount = t.nodeCount + 1 := by
  rw [mergeOnce_eq t m.sorted]

theorem FirstTwo.leafCount_mergeOnce (m : FirstTwo t a b rest) : (mergeOnce t).leafCount = t.leafCount := by
  rw [mergeOnce_eq t m.sorted]

theorem FirstTwo.mem_work_mergeOnce (m : FirstTwo t a b rest) (c : Nat) :
    c ∈ (mergeOnce t).work ↔ c ∈ rest ∨ c = t.nodeCount := by
  simp [m.work_mergeOnce]

/-- A merge writes the new node and no other. -/
theorem FirstTwo.nodeAt_mergeOnce (m : FirstTwo t a b rest) (i : Nat) :
    nodeAt (mergeOnce t) i =
      if i = t.nodeCount then .internal (weightAt t a + weightAt t b) a b else nodeAt t i := by
  simp only [mergeOnce_eq t m.sorted, nodeAt]
  exact storeNode_setNode (by simp)

theorem FirstTwo.nodeAt_of_lt (m : FirstTwo t a b rest) {i : Nat} (hi : i < t.nodeCount) :
    nodeAt (mergeOnce t) i = nodeAt t i := by
  rw [m.nodeAt_mergeOnce, if_neg (Nat.ne_of_lt hi)]

theorem FirstTwo.weightAt_of_lt (m : FirstTwo t a b rest) {i : Nat} (hi : i < t.nodeCount) :
    weightAt (mergeOnce t) i = weightAt t i :=
  congrArg Node.weight (m.nodeAt_of_lt hi)

/-- A merge gives the two merged nodes a parent and no other node a new one. -/
theorem FirstTwo.childOf_iff (m : FirstTwo t a b rest) (h : Forest freq t) (c i : Nat) :
    childOf (mergeOnce t) c i ↔ (i = t.nodeCount ∧ (c = a ∨ c = b)) ∨ childOf t c i := by
  by_cases hi : i = t.nodeCount
  · subst hi
    simp [childOf, m.nodeAt_mergeOnce, h.freeNodes _ (Nat.le_refl _)]
  · simp [childOf, m.nodeAt_mergeOnce, hi]

theorem FirstTwo.rest_lt (m : FirstTwo t a b rest) (h : Forest freq t) {c : Nat} (hc : c ∈ rest) : c < t.nodeCount :=
  h.members c ((m.mem c).mpr (.inr (.inr hc)))

theorem FirstTwo.internalNodes (m : FirstTwo t a b rest) (h : Forest freq t) {i : Nat} (h1 : t.leafCount ≤ i)
    (h2 : i ≤ t.nodeCount) :
    ∃ l r, nodeAt (mergeOnce t) i = .internal (weightAt (mergeOnce t) l + weightAt (mergeOnce t) r) l r ∧
      l < i ∧ r < i ∧ l ≠ r := by
  rcases Nat.lt_or_eq_of_le h2 with h2 | rfl
  · obtain ⟨l, r, hn, hl, hr, hne⟩ := h.internalNodes i h1 h2
    refine ⟨l, r, ?_, hl, hr, hne⟩
    rw [m.nodeAt_of_lt h2, hn, m.weightAt_of_lt (Nat.lt_trans hl h2), m.weightAt_of_lt (Nat.lt_trans hr h2)]
  · have ha := h.members a ((m.mem a).mpr (.inl rfl))
    have hb := h.members b ((m.mem b).mpr (.inr (.inl rfl)))
    exact ⟨a, b, by rw [m.nodeAt_mergeOnce, if_pos rfl, m.weightAt_of_lt ha, m.weightAt_of_lt hb], ha, hb, m.ne⟩

/-- A node that is no root keeps its parent, and a merged root has the new node for its parent. -/
theorem FirstTwo.oneParent (m : FirstTwo t a b rest) (h : Forest freq t) {c : Nat} (hc : c < t.nodeCount)
    (hout : c ∉ rest) : ∃ i, childOf (mergeOnce t) c i ∧ ∀ j, childOf (mergeOnce t) c j → j = i := by
  have hchild := m.childOf_iff h c
  by_cases hroot : c ∈ t.work
  · have hmerged : c = a ∨ c = b := by
      have := (m.mem c).mp hroot
      tauto
    refine ⟨t.nodeCount, (hchild _).mpr (.inl ⟨rfl, hmerged⟩), fun j hj => ?_⟩
    rcases (hchild j).mp hj with ⟨hj, _⟩ | hj
    · exact hj
    · exact absurd hj (h.noParent c hroot j)
  · obtain ⟨i, hi, huniq⟩ := h.oneParent c hc hroot
    refine ⟨i, (hchild i).mpr (.inr hi), fun j hj => ?_⟩
    rcases (hchild j).mp hj with ⟨_, hmerged⟩ | hj
    · exact absurd ((m.mem c).mpr (by tauto)) hroot
    · exact huniq j hj

/-- The roots a merge leaves have no parent, nor has the new node. -/
theorem FirstTwo.noParent (m : FirstTwo t a b rest) (h : Forest freq t) {c : Nat}
    (hc : c ∈ rest ∨ c = t.nodeCount) (i : Nat) : ¬ childOf (mergeOnce t) c i := by
  rw [m.childOf_iff h c i]
  rcases hc with hc | rfl
  · rintro (⟨_, rfl | rfl⟩ | hold)
    · exact m.left_notMem hc
    · exact m.right_notMem hc
    · exact h.noParent c ((m.mem c).mpr (.inr (.inr hc))) i hold
  · rintro (⟨_, hmerged⟩ | hold)
    · exact Nat.lt_irrefl _ (h.members _ ((m.mem _).mpr (by tauto)))
    · obtain ⟨hlt, hlt'⟩ := h.child_lt hold
      exact Nat.lt_asymm hlt hlt'

end

theorem mergeOnce_forest (h : Forest freq t) (hw : 2 ≤ t.work.length) : Forest freq (mergeOnce t) := by
  obtain ⟨a, b, rest, m⟩ := h.firstTwo hw
  have hcount := m.nodeCount_mergeOnce
  have hleafCount := m.leafCount_mergeOnce
  exact {
    leafCount := hleafCount.trans h.leafCount
    leaves := fun i c hc => by
      have hi : i < t.leafCount := h.leafCount.symm ▸ (List.getElem?_eq_some_iff.mp hc).1
      rw [m.nodeAt_of_lt (Nat.lt_of_lt_of_le hi h.leafCount_le), h.leaves i c hc]
    internalNodes := fun i h1 h2 => m.internalNodes h (by omega) (by omega)
    freeNodes := fun i hi => by rw [m.nodeAt_mergeOnce, if_neg (by omega), h.freeNodes i (by omega)]
    counts := by
      have := h.counts
      have := m.length
      rw [m.work_mergeOnce, hcount, hleafCount, List.length_append, List.length_singleton]
      omega
    leafCount_le := by
      have := h.leafCount_le
      omega
    nodup := by
      rw [m.work_mergeOnce, ← List.concat_eq_append]
      exact m.nodup.concat fun hc => Nat.lt_irrefl _ (m.rest_lt h hc)
    members := fun i hi => by
      rw [hcount]
      rcases (m.mem_work_mergeOnce i).mp hi with hi | rfl
      · exact Nat.lt_succ_of_lt (m.rest_lt h hi)
      · exact Nat.lt_succ_self _
    newest := (m.mem_work_mergeOnce _).mpr (.inr (by omega))
    oneParent := fun c hc hout => by
      rw [m.mem_work_mergeOnce, not_or] at hout
      obtain ⟨hout, hnew⟩ := hout
      exact m.oneParent h (by omega) hout
    noParent := fun c hc => m.noParent h ((m.mem_work_mergeOnce c).mp hc) }

theorem mergeWhile_forest (fuel : Nat) (h : Forest freq t) : Forest freq (mergeWhile fuel t) := by
  induction fuel generalizing t with
  | zero => exact h
  | succ fuel ih =>
    rw [mergeWhile]
    split
    · next hw => exact ih (mergeOnce_forest h hw)
    · exact h

/-! ### The tree (rule R116) -/

/-- A forest of one tree is case tree of rule R42, once its root is set. -/
theorem Forest.treeCase (h : Forest freq t) (hone : t.work.length ≤ 1) : TreeCase (setRoot t) := by
  obtain ⟨r, hr⟩ : ∃ r, t.work = [r] := List.length_eq_one_iff.mp (by
    have := List.length_pos_of_mem h.newest
    omega)
  have hroot : r = t.nodeCount - 1 := (List.mem_singleton.mp (hr ▸ h.newest)).symm
  have hsetRoot : (setRoot t).root = r := by simp [setRoot, hr]
  have hcounts : t.nodeCount + 1 = 2 * t.leafCount := by simpa [hr] using h.counts
  have hle := h.leafCount_le
  have hrlt : r < t.nodeCount := h.members r (by simp [hr])
  exact {
    rootValid := rfl
    leaves := ⟨by show 1 ≤ t.leafCount; omega, h.leafCount.trans_le (countedBelow_length_le freq 256)⟩
    nodeCount := by show t.nodeCount = 2 * t.leafCount - 1; omega
    root := by rw [hsetRoot]; show r = 2 * t.leafCount - 2; omega
    work := by rw [hsetRoot]; exact hr
    leafNodes := fun i hi => by
      obtain ⟨b, _, hne, _, hn⟩ := h.leaf_of_lt hi
      exact ⟨_, _, hn, hne⟩
    symbolsRise := fun i j hij hj => by
      obtain ⟨b, hb, _, hgetb, hnb⟩ := h.leaf_of_lt (Nat.lt_trans hij hj)
      obtain ⟨c, hc, _, hgetc, hnc⟩ := h.leaf_of_lt hj
      obtain ⟨hi', rfl⟩ := List.getElem?_eq_some_iff.mp hgetb
      obtain ⟨hj', rfl⟩ := List.getElem?_eq_some_iff.mp hgetc
      have hlt := List.pairwise_iff_getElem.mp (countedBelow_ascending freq 256) i j hi' hj' hij
      show (nodeAt t i).sym < (nodeAt t j).sym
      simpa [hnb, hnc, seedLeaf, Node.sym, Nat.mod_eq_of_lt hb, Nat.mod_eq_of_lt hc] using hlt
    internalNodes := h.internalNodes
    freeNodes := h.freeNodes
    oneParent := fun c hc => h.oneParent c (Nat.lt_of_succ_lt hc) (by
      have hc : c + 1 < t.nodeCount := hc
      simp [hr]
      omega)
    rootNoParent := by rw [hsetRoot]; exact h.noParent r (by simp [hr]) }

theorem builtTree_forest (hne : ∃ b, b < 256 ∧ freq b ≠ 0) :
    Forest freq (mergeAll (seedUpTo freq 256 Tree.empty)) := by
  obtain ⟨b, hb⟩ := hne
  have hseed := seedUpTo_seeded freq 256
  refine mergeWhile_forest _ (hseed.forest ?_)
  rw [hseed.leafCount]
  exact List.length_pos_of_mem (mem_countedBelow.mpr hb)

/-- BUILD makes case tree of rule R42. -/
theorem builtTree_treeCase (hne : ∃ b, b < 256 ∧ freq b ≠ 0) : TreeCase (builtTree freq) :=
  (builtTree_forest hne).treeCase (mergeAll_work_length_le_one _)

/-- Every leaf of the built tree is the seeded leaf of a byte value with a non-zero count. -/
theorem builtTree_leaf_counted (hne : ∃ b, b < 256 ∧ freq b ≠ 0) {i : Nat} (hi : i < (builtTree freq).leafCount) :
    ∃ b, b < 256 ∧ freq b ≠ 0 ∧ nodeAt (builtTree freq) i = seedLeaf freq b := by
  obtain ⟨b, hb, hb0, _, hn⟩ := (builtTree_forest hne).leaf_of_lt hi
  exact ⟨b, hb, hb0, hn⟩

/-- Every byte value with a non-zero count has its leaf in the built tree. -/
theorem builtTree_counted_leaf {b : Nat} (hb : b < 256) (hb0 : freq b ≠ 0) :
    ∃ i, i < (builtTree freq).leafCount ∧ nodeAt (builtTree freq) i = seedLeaf freq b := by
  have h := builtTree_forest ⟨b, hb, hb0⟩
  obtain ⟨i, hget⟩ := List.mem_iff_getElem?.mp (mem_countedBelow.mpr ⟨hb, hb0⟩)
  exact ⟨i, h.leafCount.symm ▸ (List.getElem?_eq_some_iff.mp hget).1, h.leaves i b hget⟩

theorem freqSymbols_eq_zero_iff (s : State) : freqSymbols s = 0 ↔ ∀ b, b < 256 → freqAt s b = 0 := by
  simp [freqSymbols, List.countP_eq_zero]

theorem freqSymbols_ne_zero_iff (s : State) : freqSymbols s ≠ 0 ↔ ∃ b, b < 256 ∧ freqAt s b ≠ 0 := by
  simp [freqSymbols_eq_zero_iff]

/-- Settles O29: the merges keep a forest behind the seeded leaves, which is one tree when the pool has one member. -/
theorem buildMakesTheTree : Obligations.BuildMakesTheTree := by
  unfold Obligations.BuildMakesTheTree
  intro s hr hn
  have hne := (freqSymbols_ne_zero_iff s).mp hn
  exact ⟨_, exec_build_of_symbols hr hn, builtTree_treeCase hne, fun i hi => builtTree_leaf_counted hne hi,
    fun b hb hb0 => builtTree_counted_leaf hb hb0⟩

end Sys2Proof.Machine
end

section
/-! The code table DERIVE makes of a tree (rules R143, R144, R146, R147): its codes are the paths of the leaves. -/

namespace Sys2Proof.Machine

variable {t : Tree} {codes : Cells Bits}

/-- The root of a tree of two or more leaves is an internal node. -/
theorem treeCase_root_internal (h : TreeCase t) (h2 : 2 ≤ t.leafCount) :
    ∃ w l r, nodeAt t t.root = .internal w l r := by
  have hroot := h.root
  have hcount := h.nodeCount
  obtain ⟨l, r, hn, _⟩ := h.internalNodes t.root (by omega) (by omega)
  exact ⟨_, l, r, hn⟩

/-- The root of a tree of one leaf is its leaf. -/
theorem treeCase_root_leaf (h : TreeCase t) (h1 : t.leafCount = 1) : ∃ sym w, nodeAt t t.root = .leaf sym w := by
  have hroot := h.root
  obtain ⟨sym, w, hn, _⟩ := h.leafNodes t.root (by omega)
  exact ⟨sym, w, hn⟩

/-- DERIVE of one leaf makes the fallback code (rule R143). -/
theorem deriveTable_of_leaf {sym : Byte} {w : Nat} (hn : nodeAt t t.root = .leaf sym w) :
    deriveTable t = some [(sym.toNat, fallbackCode)] := by
  rw [deriveTable, hn]
  rfl

/-- DERIVE of two or more leaves makes the paths from the root (rule R144). -/
theorem deriveTable_of_paths (h : TreeCase t) (h2 : 2 ≤ t.leafCount) :
    ∃ codes, deriveTable t = some codes ∧ ∀ b c, c ≠ [] → (storeCode codes b = c ↔ pathToLeaf t b c) := by
  have hroot := h.root
  have hcount := h.nodeCount
  have hleaves := h.leaves
  obtain ⟨w, l, r, hn⟩ := treeCase_root_internal h h2
  obtain ⟨codes, hwalk, hpath, hother⟩ :=
    walk_spec h (nodeMax + 1) t.root [] [] (by omega) (by simp only [nodeMax]; omega) (.inr (by omega))
  refine ⟨codes, by rw [deriveTable, hn]; exact hwalk, fun b c hc => ⟨fun hcode => ?_, hpath b c⟩⟩
  by_cases hex : ∃ d, leafBelow t t.root b d
  · obtain ⟨d, hd⟩ := hex
    have hcd : d = c := (hpath b d hd).symm.trans hcode
    exact hcd ▸ hd
  · exact absurd (hcode.symm.trans (hother b (not_exists.mp hex))) hc

/-- A tree always has a code table. -/
theorem deriveTable_isSome (h : TreeCase t) : ∃ codes, deriveTable t = some codes := by
  rcases Nat.lt_or_eq_of_le h.leaves.1 with h2 | h1
  · obtain ⟨codes, hd, _⟩ := deriveTable_of_paths h h2
    exact ⟨codes, hd⟩
  · obtain ⟨sym, w, hn⟩ := treeCase_root_leaf h h1.symm
    exact ⟨_, deriveTable_of_leaf hn⟩

/-- What the codes of a tree are: the one fallback code, or the paths from the root. -/
theorem deriveTable_cases (h : TreeCase t) (hd : deriveTable t = some codes) :
    (t.leafCount = 1 ∧ ∃ sym w, nodeAt t t.root = .leaf sym w ∧
      ∀ b, storeCode codes b = if b = sym.toNat then fallbackCode else []) ∨
    (2 ≤ t.leafCount ∧ ∀ b c, c ≠ [] → (storeCode codes b = c ↔ pathToLeaf t b c)) := by
  rcases Nat.lt_or_eq_of_le h.leaves.1 with h2 | h1
  · obtain ⟨codes', hd', hpath⟩ := deriveTable_of_paths h h2
    cases hd.symm.trans hd'
    exact .inr ⟨h2, hpath⟩
  · obtain ⟨sym, w, hn⟩ := treeCase_root_leaf h h1.symm
    cases hd.symm.trans (deriveTable_of_leaf hn)
    exact .inl ⟨h1.symm, sym, w, hn, fun b =>
      storeCode_setCode (codes := []) (b := fallbackCode) (by decide)⟩

/-- The longest code (rule R146). -/
theorem deriveTable_length_le (h : TreeCase t) (hd : deriveTable t = some codes) (b : Nat) :
    (storeCode codes b).length ≤ max 1 (t.leafCount - 1) := by
  rcases deriveTable_cases h hd with ⟨_, sym, w, _, hcode⟩ | ⟨h2, hpath⟩
  · rw [hcode]
    split
    · exact Nat.le_max_left _ _
    · exact Nat.zero_le _
  · by_cases hne : storeCode codes b = []
    · simp [hne]
    · obtain ⟨i, _, _, hi, _, _⟩ := (hpath b _ hne).mp rfl
      have := descend_length_le h _ _ _ hi hne
      have := h.root
      omega

theorem deriveTable_length_le_codeMax (h : TreeCase t) (hd : deriveTable t = some codes) (b : Nat) :
    (storeCode codes b).length ≤ 255 := by
  have := deriveTable_length_le h hd b
  have := h.leaves
  omega

/-- A path that begins with the path of a leaf is the path of that leaf. -/
theorem pathToLeaf_eq_of_prefix {a b : Nat} {c d : Bits} (hc : pathToLeaf t a c) (hd : pathToLeaf t b d)
    (hpre : c <+: d) : a = b := by
  obtain ⟨i, sym, w, hi, hn, rfl⟩ := hc
  obtain ⟨j, sym', w', hj, hn', rfl⟩ := hd
  obtain ⟨e, rfl⟩ := hpre
  rw [descend_append, hi, Option.bind_some] at hj
  cases e with
  | nil =>
    cases hj
    cases hn.symm.trans hn'
    rfl
  | cons x xs => simp [descend, hn] at hj

/-- No code of a tree begins another (rule R147): a path does not go on below a leaf. -/
theorem deriveTable_prefixCode (h : TreeCase t) (hd : deriveTable t = some codes) : PrefixCode codes := by
  intro a b hab ha hb
  rcases deriveTable_cases h hd with ⟨_, sym, w, _, hcode⟩ | ⟨_, hpath⟩
  · simp only [hcode, ne_eq, ite_eq_right_iff, Classical.not_imp] at ha hb
    exact absurd (ha.1.trans hb.1.symm) hab
  · exact fun hpre => hab (pathToLeaf_eq_of_prefix ((hpath a _ ha).mp rfl) ((hpath b _ hb).mp rfl) hpre)

/-- A byte value has a code exactly when it has a leaf (rule R32). -/
theorem deriveTable_coded_iff (h : TreeCase t) (hd : deriveTable t = some codes) (b : Nat) :
    storeCode codes b ≠ [] ↔ ∃ i sym w, nodeAt t i = .leaf sym w ∧ sym.toNat = b := by
  rcases deriveTable_cases h hd with ⟨h1, sym, w, hn, hcode⟩ | ⟨h2, hpath⟩
  · constructor
    · intro hne
      rw [hcode] at hne
      exact ⟨t.root, sym, w, hn, by_contra fun hb => hne (if_neg (Ne.symm hb))⟩
    · rintro ⟨i, sym', w', hn', rfl⟩
      have hi := treeCase_leaf_lt h hn'
      have hroot : i = t.root := by have := h.root; omega
      subst hroot
      cases hn.symm.trans hn'
      rw [hcode, if_pos rfl]
      decide
  · constructor
    · intro hne
      obtain ⟨i, sym, w, _, hleaf⟩ := (hpath b _ hne).mp rfl
      exact ⟨i, sym, w, hleaf⟩
    · rintro ⟨i, sym, w, hn, hb⟩
      obtain ⟨w', l, r, hroot⟩ := treeCase_root_internal h h2
      have hi := treeCase_leaf_lt h hn
      have hcount := h.nodeCount
      obtain ⟨c, hc⟩ := treeCase_reaches h (t.nodeCount - 1 - i) i (by omega)
      have hne : c ≠ [] := by
        rintro rfl
        cases hc
        cases hroot.symm.trans hn
      rw [(hpath b c hne).mpr ⟨i, sym, w, hc, hn, hb⟩]
      exact hne

/-- DERIVE of a tree at Level A, with everything it leaves (rule R144). -/
theorem exec_derive_of_table {s : State} (hr : Ready .command s) (hvalid : s.tree.rootValid = true)
    (hd : deriveTable s.tree = some codes) :
    exec .derive s = .next { ended .derive .none s with codes := codes } := by
  rw [exec_of_command hr (by simp [issueError, hvalid]), commandBody, deriveBody, acceptCommand_tree, hd]
  rfl

/-- The leaves of the built tree carry exactly the byte values with a non-zero count. -/
theorem builtTree_leaf_iff {freq : Nat → Nat} (hne : ∃ b, b < 256 ∧ freq b ≠ 0) {b : Nat} (hb : b < 256) :
    (∃ i sym w, nodeAt (builtTree freq) i = .leaf sym w ∧ sym.toNat = b) ↔ freq b ≠ 0 := by
  constructor
  · rintro ⟨i, sym, w, hn, rfl⟩
    obtain ⟨b, hb', hb0, hn'⟩ := builtTree_leaf_counted hne (treeCase_leaf_lt (builtTree_treeCase hne) hn)
    cases hn.symm.trans hn'
    rwa [BitVec.toNat_ofNat, Nat.mod_eq_of_lt hb']
  · intro hb0
    obtain ⟨i, _, hn⟩ := builtTree_counted_leaf hb hb0
    exact ⟨i, _, _, hn, by rw [BitVec.toNat_ofNat, Nat.mod_eq_of_lt hb]⟩

/-- Settles O37: a byte value has a code exactly when it has a leaf, and a leaf exactly when it has a count. -/
theorem codedExactlyWhenCounted : Obligations.CodedExactlyWhenCounted := by
  unfold Obligations.CodedExactlyWhenCounted
  intro s hr hn
  have hne := (freqSymbols_ne_zero_iff s).mp hn
  have htree := builtTree_treeCase hne
  obtain ⟨codes, hd⟩ := deriveTable_isSome htree
  refine ⟨_, _, exec_build_of_symbols hr hn, exec_derive_of_table ⟨rfl, hr.2⟩ htree.rootValid hd, fun b hb => ?_⟩
  exact not_iff_not.mp ((deriveTable_coded_iff htree hd b).trans (builtTree_leaf_iff hne hb))

end Sys2Proof.Machine
end

section
/-! The invariant of Level A (rules R9, R25, R33, R34, R42, R87, R146, R147): it holds after reset, and every host
operation and every command keeps it. -/

namespace Sys2Proof.Machine

variable {s t : State}

/-! ### Reset (rules R44, R205) -/

theorem prefixCode_nil : PrefixCode [] := fun _ _ _ ha _ => absurd rfl ha

/-- The values of rule R44 meet the invariant, whatever the parameters and the model's own fields. -/
theorem inv_of_reset {p : Params} (hp : p.wf = true) (script : List HostOp) (reads : List Nat) (resets workEra : Nat) :
    Inv { State.reset with params := p, script := script, reads := reads, resets := resets, workEra := workEra } where
  params := hp
  memory := ⟨⟨.nil, nofun⟩, ⟨.nil, nofun⟩, ⟨.nil, nofun⟩, codesWf_nil, nodesWf_nil⟩
  idle := ⟨rfl, rfl⟩
  freqFits := nofun
  inLenFits := Nat.two_pow_pos _
  tree := .inl rfl
  weightsFit _ := Nat.two_pow_pos _
  codesShort _ := Nat.zero_le _
  codesPrefixFree := prefixCode_nil
  skipCount := Nat.le_refl _
  inPos := Nat.zero_le _
  outCount := Nat.zero_le _
  totalBits := Nat.zero_le _
  outSymbols _ hi := absurd hi (Nat.not_lt_zero _)

/-- Settles O2: the values of rule R44 meet the invariant, and the engine is at rest. -/
theorem resetMeetsTheInvariants : Obligations.ResetMeetsTheInvariants := by
  unfold Obligations.ResetMeetsTheInvariants
  have hparams : Params.initial.wf = true := by simp [Params.wf, Params.initial]
  exact ⟨inv_of_reset hparams [] [] 0 0, statusInv_of_atRest ⟨rfl, rfl⟩⟩

/-! ### Host operations (rules R100, R101) -/

/-- The invariant says nothing of the script. -/
theorem Inv.withScript (hi : Inv s) (rest : List HostOp) : Inv { s with script := rest } := { hi with }

/-- The invariant says nothing of the values the host has read. -/
theorem Inv.withReads (hi : Inv s) (reads : List Nat) : Inv { s with reads := reads } := { hi with }

theorem Inv.refuse (hi : Inv s) (e : Err) : Inv (refuseCommand e s) := { hi with }

/-- A host write of a value that fits its element keeps the invariant. -/
theorem writePlace_inv {space index v : Nat} {pl : Place} (hp : decodePlace s.params space index = some pl)
    (hv : v < 2 ^ placeWidth s.params pl) (hi : Inv s) : Inv (writePlace pl v s) := by
  have hm := writePlace_wf v hp hi.memory
  rcases writePlace_cases pl v s with h | ⟨rfl, h⟩ | ⟨b, rfl, h⟩ | ⟨i, rfl, h⟩ <;> rw [h] at hm ⊢
  · exact hi
  · exact { hi with inLenFits := hv }
  · exact { hi with
      memory := hm
      freqFits := fun x hx => by
        rcases mem_cellSet hx with rfl | hx
        · exact hv
        · exact hi.freqFits x hx }
  · exact { hi with memory := hm }

/-! ### The parts of the commands -/

/-- At Level A the state in the middle of a command meets the invariant but for BUSY. -/
theorem Inv.accept (hi : Inv s) (i : Instr) : Inv (finish (acceptCommand i s)) := { hi with idle := ⟨rfl, rfl⟩ }

/-- The invariant says nothing of ERR. -/
theorem Inv.raise (hi : Inv (finish s)) (e : Err) : Inv (raiseError e s) := { hi with }

/-- A count FREQ holds fits FREQ_W bits, written or free. -/
theorem freqAt_lt (h : ∀ x ∈ s.freq, x.2 < 2 ^ s.params.freqW) (b : Nat) : freqAt s b < 2 ^ s.params.freqW := by
  rw [freqAt]
  cases hget : cellGet s.freq b with
  | none => exact Nat.mod_lt _ (Nat.two_pow_pos _)
  | some v => exact h _ (mem_of_cellGet hget)

/-- BUILD makes no more nodes than the store holds. -/
theorem builtTree_nodesWf (freq : Nat → Nat) : nodesWf (builtTree freq).nodes := by
  obtain ⟨hle, hwork⟩ := seedUpTo_counts freq 256
  exact mergeWhile_nodesWf _ (by omega) (seedUpTo_nodesWf freq (by decide))

/-- The codes of the first `k` input bytes, at most 255 bits each (rules R34, R146). -/
theorem bitsOfFirst_le (h : ∀ b, (codeAt s b).length ≤ 255) (k : Nat) : bitsOfFirst s k ≤ k * 255 := by
  induction k with
  | zero => exact Nat.le_refl _
  | succ k ih =>
    have := h (inputAt s k).toNat
    rw [bitsOfFirst_succ, codeOfInput]
    omega

/-- The seeded pool has a member for every non-zero count. -/
theorem seedUpTo_work_length (s : State) : (seedUpTo (freqAt s) 256 Tree.empty).work.length = freqSymbols s := by
  have hseed := seedUpTo_seeded (freqAt s) 256
  rw [hseed.work, List.length_range, hseed.leafCount, freqSymbols, List.countP_eq_length_filter, countedBelow]

/-- BUILD whole: of no counts it leaves the empty tree (rule R118), of some the built tree (rule R116). -/
theorem buildBody_eq (s : State) :
    buildBody s =
      if freqSymbols s = 0 then .next (raiseError .emptyAlphabet (poolReset s))
      else .next (finish { poolReset s with tree := builtTree (freqAt s) }) := by
  have hlen := seedUpTo_work_length s
  by_cases h : freqSymbols s = 0
  · have hseed : seedUpTo (freqAt s) 256 Tree.empty = Tree.empty :=
      seedUpTo_of_zero _ ((freqSymbols_eq_zero_iff s).mp h)
    rw [if_pos h]
    calc buildBody s
        = .next (raiseError .emptyAlphabet { poolReset s with tree := seedUpTo (freqAt s) 256 Tree.empty }) :=
          if_pos (hlen.trans h)
      _ = .next (raiseError .emptyAlphabet (poolReset s)) := by rw [hseed]; rfl
  · rw [if_neg h]
    exact if_neg fun h0 => h (hlen.symm.trans h0)

/-- MEASURE whole (rule R166). -/
theorem measureBody_eq (s : State) :
    measureBody s =
      .next
        (finish
          { s with
            totalBits := bitsOfFirst s s.inLen
            inPos := s.inLen
            skipCount := missingInFirst s s.inLen }) := by
  have hloop := measureLoop_spec s.inLen (measureInit s) rfl rfl
  rw [measureInit_inPos, Nat.zero_add] at hloop
  rw [measureBody, hloop]
  rfl

/-- ENCODE has emitted nothing before its first input byte. -/
theorem emitted_zero (s : State) : Emitted s s.out 0 where
  text i b h := by cases h
  rest _ _ := rfl
  rising := id
  below := id

theorem encodeInit_eq (s : State) : encodeInit s = encodeAfter s s.out 0 := rfl

/-! ### The commands -/

theorem clearBody_inv (hi : Inv (finish s)) : Inv (finish (poolReset s)) :=
  { hi with
    memory := poolReset_wf (s := finish s) hi.memory
    tree := .inl rfl
    weightsFit := fun _ => Nat.two_pow_pos _ }

theorem buildBody_inv (hi : Inv (finish s)) (h : buildBody s = .next t) : Inv t := by
  rw [buildBody_eq] at h
  split at h <;> cases h
  · exact (clearBody_inv hi).raise .emptyAlphabet
  · next hn =>
    have htotal : freqTotal s < 2 ^ s.params.weightW := freqTotal_lt fun b _ => freqAt_lt hi.freqFits b
    obtain ⟨hfreq, hinput, hout, hcodes, _⟩ := hi.memory
    exact { hi with
      memory := ⟨hfreq, hinput, hout, hcodes, builtTree_nodesWf _⟩
      tree := .inr (builtTree_treeCase ((freqSymbols_ne_zero_iff s).mp hn))
      weightsFit := fun i => Nat.lt_of_le_of_lt (builtTree_weight_le (freqAt s) i) htotal }

/-- A valid root is the root of a tree. -/
theorem TreeInv.treeCase {t : Tree} (h : TreeInv t) (hvalid : t.rootValid = true) : TreeCase t := by
  rcases h with rfl | h
  · cases hvalid
  · exact h

theorem deriveBody_inv (hi : Inv (finish s)) (hvalid : s.tree.rootValid = true) (h : deriveBody s = .next t) :
    Inv t := by
  have htree : TreeCase s.tree := hi.tree.treeCase hvalid
  obtain ⟨codes, hd⟩ := deriveTable_isSome htree
  rw [deriveBody, hd] at h
  cases h
  obtain ⟨hfreq, hinput, hout, _, hnodes⟩ := hi.memory
  exact { hi with
    memory := ⟨hfreq, hinput, hout, deriveTable_codesWf hd, hnodes⟩
    codesShort := deriveTable_length_le_codeMax htree hd
    codesPrefixFree := deriveTable_prefixCode htree hd }

theorem measureBody_inv (hi : Inv (finish s)) (hlen : s.inLen ≤ s.params.inCap) (h : measureBody s = .next t) :
    Inv t := by
  cases (measureBody_eq s).symm.trans h
  exact { hi with
    skipCount := missingInFirst_le s s.inLen
    inPos := hlen
    totalBits := (bitsOfFirst_le hi.codesShort s.inLen).trans (Nat.mul_le_mul_right 255 hlen) }

/-- ENCODE keeps the invariant from one input byte to the next. -/
theorem encodeAfter_inv {out : List Host.Cell} {k : Nat} (hi : Inv (finish s)) (he : Emitted s out k)
    (hk : k ≤ s.params.inCap) (hfit : bitsOfFirst s k ≤ s.params.outCap) : Inv (finish (encodeAfter s out k)) := by
  obtain ⟨hfreq, hinput, ⟨hrising, hbelow⟩, hcodes, hnodes⟩ := hi.memory
  exact { hi with
    memory := ⟨hfreq, hinput, ⟨he.rising hrising, he.below hbelow⟩, hcodes, hnodes⟩
    skipCount := missingInFirst_le s k
    inPos := hk
    outCount := hfit
    outSymbols := fun i hlt => by
      have hlt : i < (textOfFirst s k).length := (textOfFirst_length s k).symm ▸ hlt
      have hget := he.text i _ (List.getElem?_eq_getElem hlt)
      cases hbit : (textOfFirst s k)[i] <;> rw [hbit] at hget
      · exact .inl hget
      · exact .inr hget }

theorem encodeBody_inv (hi : Inv (finish s)) (hlen : s.inLen ≤ s.params.inCap) (h : encodeBody s = .next t) :
    Inv t := by
  cases h
  rw [encodeInit_eq]
  rcases encodeLoop_spec s s.inLen 0 s.out (Nat.zero_le _) (emitted_zero s) with
    ⟨hfit, out, he, heq⟩ | ⟨k, out, _, hk, hfit, _, he, heq⟩ <;> rw [heq]
  · rw [Nat.zero_add] at hfit he ⊢
    exact encodeAfter_inv hi he hlen hfit
  · exact (encodeAfter_inv hi he (by omega) hfit).raise .bufferExhausted

/-- A command that passes its tests keeps the invariant. -/
theorem commandBody_inv {i : Instr} (hi : Inv (finish s)) (he : issueError i s = none)
    (h : commandBody i s = .next t) : Inv t := by
  cases i with
  | clear => cases h; exact clearBody_inv hi
  | build => exact buildBody_inv hi h
  | derive => exact deriveBody_inv hi (by simpa [issueError] using he) h
  | measure => exact measureBody_inv hi (by simpa [issueError] using he) h
  | encode => exact encodeBody_inv hi (by simpa [issueError] using he) h

theorem exec_inv {i : Instr} (hlevel : s.params.level = .command) (hi : Inv s) (h : exec i s = .next t) : Inv t := by
  rw [exec_eq_issueCommand] at h
  rcases issueCommand_cases h with ⟨_, ⟨e, _, rfl⟩ | ⟨he, _, hbody⟩ | ⟨_, hstep, _⟩⟩
  · exact hi.refuse e
  · exact commandBody_inv (hi.accept i) ((issueError_acceptCommand i i s).trans he) hbody
  · rw [hlevel] at hstep
    cases hstep

theorem engineStep_of_idle (h : s.engState = .idle) : engineStep s = .next s := by
  simp only [engineStep, h]

/-- Settles O48, by the cases of a step: at Level A the engine rests, so a step is a host operation or a whole
command. -/
theorem stepKeepsTheInvariant : Obligations.StepKeepsTheInvariant := by
  unfold Obligations.StepKeepsTheInvariant
  intro s t hlevel hi h
  obtain ⟨rest, _, hcase⟩ := step_cases h
  have hi' := hi.withScript rest
  rcases hcase with hengine | ⟨_, _, _, _, _, rfl⟩ | ⟨_, _, pl, v, hp, hv, _, _, rfl⟩ | ⟨_, rfl⟩ | ⟨i, _, hexec⟩ |
    ⟨_, rfl⟩ | rfl
  · obtain ⟨_, hidle⟩ := hi'.idle
    cases (engineStep_of_idle hidle).symm.trans hengine
    exact hi'
  · exact hi'.withReads _
  · exact writePlace_inv hp hv hi'
  · exact hi'.refuse .illegalCommand
  · exact exec_inv (s := { s with script := rest }) hlevel hi' hexec
  · exact hi'
  · exact inv_of_reset hi.params rest s.reads (s.resets + 1) (s.workEra + 1)

end Sys2Proof.Machine
end

section
/-! The hidden registers (U4 of 93_implementation_defined.md): no command and no run from its issue depends on what they
held. -/

namespace Sys2Proof.Machine

/-! ### Level A: a command reads no hidden register -/

/-- A command's outcome, hidden registers aside, is its outcome from blanked hidden registers. -/
def ReadsNoHidden (body : State → Out) : Prop :=
  ∀ s, hideRegisters (body s) = body { s with hidden := .initial }

theorem clearBody_readsNoHidden : ReadsNoHidden clearBody := fun _ => rfl

theorem buildBody_readsNoHidden : ReadsNoHidden buildBody := by
  intro s
  have hsymbols : freqSymbols { s with hidden := .initial } = freqSymbols s := rfl
  rw [buildBody_eq, buildBody_eq, hsymbols]
  split <;> rfl

theorem deriveBody_readsNoHidden : ReadsNoHidden deriveBody := by
  intro s
  simp only [deriveBody]
  cases deriveTable s.tree <;> rfl

theorem measureBody_readsNoHidden : ReadsNoHidden measureBody := by
  intro s
  rw [measureBody_eq, measureBody_eq]
  rfl

/-- The loop of ENCODE carries the hidden registers along unread. -/
theorem encodeLoop_withHidden (n : Nat) (s : State) (h : Hidden) :
    encodeLoop n { s with hidden := h } = { encodeLoop n s with hidden := h } := by
  induction n generalizing s with
  | zero => rfl
  | succ n ih =>
    have hcode : codeAt { s with hidden := h } (inputAt { s with hidden := h } s.inPos).toNat =
      codeAt s (inputAt s s.inPos).toNat := rfl
    simp only [encodeLoop, hcode]
    split
    · exact ih (skipByte s)
    · split
      · rfl
      · exact ih (appendCode _ s)

theorem encodeBody_readsNoHidden : ReadsNoHidden encodeBody := fun s =>
  congrArg Host.Outcome.next (encodeLoop_withHidden s.inLen (encodeInit s) .initial).symm

theorem commandBody_readsNoHidden (i : Instr) : ReadsNoHidden (commandBody i) := by
  cases i with
  | clear => exact clearBody_readsNoHidden
  | build => exact buildBody_readsNoHidden
  | derive => exact deriveBody_readsNoHidden
  | measure => exact measureBody_readsNoHidden
  | encode => exact encodeBody_readsNoHidden

theorem exec_hidden_command (i : Instr) (s : State) (h : Hidden) (hlevel : s.params.level = .command) :
    hideRegisters (exec i { s with hidden := h }) = hideRegisters (exec i s) := by
  have htests := issueError_withHidden i s h
  rcases Bool.eq_false_or_eq_true s.busy with hb | hb
  · rw [exec_of_busy hb, exec_of_busy (s := { s with hidden := h }) hb]
  · cases he : issueError i s with
    | some e =>
      rw [exec_of_error hb he, exec_of_error (s := { s with hidden := h }) hb (htests.trans he)]
      rfl
    | none =>
      rw [exec_of_command ⟨hb, hlevel⟩ he, exec_of_command (s := { s with hidden := h }) ⟨hb, hlevel⟩ (htests.trans he),
        commandBody_readsNoHidden, commandBody_readsNoHidden]
      rfl

/-! ### Level B: each hidden register is written before it is read -/

/-- Agreeing outcomes are equal, hidden registers aside. -/
theorem Out.agree.hideRegisters_eq {o p : Out} (h : Out.agree o p) : hideRegisters p = hideRegisters o := by
  cases o with
  | next t =>
    obtain ⟨_, rfl, _⟩ := h
    rfl
  | fault f => exact congrArg hideRegisters h
  | refused r => exact congrArg hideRegisters h

/-- A run with nothing left for the host depends on no hidden register that its first step does not read. -/
theorem runFor_agree (n : Nat) {s : State} {h : Hidden} (hs : s.script = []) (ha : s.hidden.agreeAt s.engState h) :
    Out.agree (runFor n s) (runFor n { s with hidden := h }) := by
  induction n generalizing s h with
  | zero => exact ⟨h, rfl, ha⟩
  | succ n ih =>
    have hstep := engineStep_agree ha
    simp only [runFor, step_of_script_nil hs, step_of_script_nil (s := { s with hidden := h }) hs]
    cases he : engineStep s with
    | next t =>
      rw [he] at hstep
      obtain ⟨g, heq, hg⟩ := hstep
      rw [heq]
      exact ih ((engineStep_script he).trans hs) hg
    | fault f =>
      rw [he] at hstep
      rw [hstep]
      rfl
    | refused r =>
      rw [he] at hstep
      rw [hstep]
      rfl

/-- The issue of a command at Level B leaves outcomes that agree, and no host operation behind it. -/
theorem exec_agree_step (i : Instr) {s : State} (h : Hidden) (hr : Ready .step s) (hidle : s.engState = .idle) :
    ∃ t g, exec i s = .next t ∧ exec i { s with hidden := h } = .next { t with hidden := g } ∧
      t.hidden.agreeAt t.engState g ∧ t.script = s.script := by
  have hbusy : s.busy = false := hr.1
  have htests := issueError_withHidden i s h
  cases he : issueError i s with
  | some e =>
    refine ⟨_, h, exec_of_error hbusy he, exec_of_error (s := { s with hidden := h }) hbusy (htests.trans he), ?_, rfl⟩
    rw [refuseCommand_engState, hidle]
    trivial
  | none =>
    exact ⟨_, _, exec_of_step hr he, exec_of_step (s := { s with hidden := h }) hr (htests.trans he),
      acceptCommand_agree i s h, rfl⟩

theorem placeRead_withHidden (s : State) (h : Hidden) (pl : Place) :
    placeRead { s with hidden := h } pl = placeRead s pl := by
  cases pl with
  | csr r => cases r <;> rfl
  | freq _ | input _ | out _ | codeLen _ | codeBits _ | node _ | work _ => rfl

/-- Settles O47: a whole command reads no hidden register, and a step of the engine reads none that its command has not
written. -/
theorem hiddenRegistersDoNotMatter : Obligations.HiddenRegistersDoNotMatter := by
  unfold Obligations.HiddenRegistersDoNotMatter
  refine ⟨exec_hidden_command, fun i s h steps hr hidle => ?_, placeRead_withHidden⟩
  cases steps with
  | zero => rfl
  | succ n =>
    have hbusy : s.busy = false := hr.1
    obtain ⟨t, g, hexec, hexec', hg, hscript⟩ := exec_agree_step i (s := { s with script := [] }) h hr hidle
    simp only [runFor, step_withIssue hbusy, step_withIssue (s := { s with hidden := h }) hbusy, hexec, hexec']
    exact (runFor_agree n hscript hg).hideRegisters_eq

end Sys2Proof.Machine
end

section
/-! What the host reads after reset (rule R44), and the fields of STATUS (rules R35, R36, R185). -/

namespace Sys2Proof.Machine

theorem packNode_free : packNode .free = 0 := by
  simp [packNode, Node.kind, Node.sym, Node.left, Node.right, Node.weight]

/-- Settles O1, register by register; NODE and the code table list nothing. -/
theorem resetReadsAsTheTable : Obligations.ResetReadsAsTheTable := by
  unfold Obligations.ResetReadsAsTheTable
  refine ⟨fun r => ?_, fun _ => packNode_free, fun _ => ⟨rfl, rfl⟩⟩
  cases r <;> rfl

/-- STATUS, bit by bit (rule R35). -/
theorem statusWord_getLsbD (s : State) (i : Nat) :
    (statusWord s).getLsbD i =
      if i = 0 then s.busy else if i = 1 then s.done else if i < 5 then s.err.code.getLsbD (i - 2)
      else if i = 5 then missingFlag s else if i = 6 then s.tree.rootValid
      else if i = 7 then degenerateFlag s else false := by
  simp only [statusWord, BitVec.getLsbD_append, BitVec.getLsbD_ofBool, BitVec.getLsbD_zero]
  match i with
  | 0 | 1 | 2 | 3 | 4 | 5 | 6 | 7 => simp
  | _ + 8 => simp

/-- Bits 4:2 of STATUS are ERR. -/
theorem statusWord_err (s : State) : (statusWord s).extractLsb' 2 3 = s.err.code := by
  ext i hi
  rw [BitVec.getElem_extractLsb', statusWord_getLsbD, if_neg (by omega), if_neg (by omega), if_pos (by omega),
    Nat.add_sub_cancel_left, BitVec.getLsbD_eq_getElem hi]

/-- Bits 15:8 of STATUS are 0. -/
theorem statusWord_high (s : State) : (statusWord s).extractLsb' 8 8 = 0#8 := by
  ext i hi
  rw [BitVec.getElem_extractLsb', statusWord_getLsbD, if_neg (by omega), if_neg (by omega), if_neg (by omega),
    if_neg (by omega), if_neg (by omega), if_neg (by omega), BitVec.getElem_zero]

/-- Settles O18, from STATUS bit by bit; the numbers of ERR and ENG_STATE are those of their tables. -/
theorem statusWordFields : Obligations.StatusWordFields := by
  unfold Obligations.StatusWordFields
  intro s
  refine ⟨statusWord_getLsbD s 0, statusWord_getLsbD s 1, (statusWord_err s).trans ?_,
    (statusWord_getLsbD s 5).trans ?_, statusWord_getLsbD s 6, (statusWord_getLsbD s 7).trans ?_, statusWord_high s, ?_⟩
  · cases s.err <;> rfl
  · show (s.skipCount != 0) = decide (s.skipCount ≠ 0)
    by_cases h0 : s.skipCount = 0 <;> simp [h0]
  · rfl
  · rw [placeRead, csrRead]
    cases s.engState <;> rfl

end Sys2Proof.Machine
end

section
/-! The canonical form of the spaces through a step (rules R60, R62): each space a step of the engine or a command writes
is written inside its size. -/

namespace Sys2Proof.Machine

variable {s t : State}

/-! ### Writing one space -/

theorem Memory.wf.withOut (h : Memory.wf s) {out : List Host.Cell}
    (hout : cellsRising out ∧ cellsBelow s.params.outCap out) : Memory.wf { s with out := out } := by
  obtain ⟨hfreq, hinput, _, hcodes, hnodes⟩ := h
  exact ⟨hfreq, hinput, hout, hcodes, hnodes⟩

theorem Memory.wf.withCodes (h : Memory.wf s) {codes : Cells Bits} (hcodes : codesWf codes) :
    Memory.wf { s with codes := codes } := by
  obtain ⟨hfreq, hinput, hout, _, hnodes⟩ := h
  exact ⟨hfreq, hinput, hout, hcodes, hnodes⟩

theorem Memory.wf.withTree (h : Memory.wf s) {tree : Tree} (hnodes : nodesWf tree.nodes) :
    Memory.wf { s with tree := tree } := by
  obtain ⟨hfreq, hinput, hout, hcodes, _⟩ := h
  exact ⟨hfreq, hinput, hout, hcodes, hnodes⟩

theorem Memory.wf.out (h : Memory.wf s) : cellsRising s.out ∧ cellsBelow s.params.outCap s.out := by
  obtain ⟨_, _, hout, _, _⟩ := h
  exact hout

theorem Memory.wf.codes (h : Memory.wf s) : codesWf s.codes := by
  obtain ⟨_, _, _, hcodes, _⟩ := h
  exact hcodes

theorem Memory.wf.nodes (h : Memory.wf s) : nodesWf s.tree.nodes := by
  obtain ⟨_, _, _, _, hnodes⟩ := h
  exact hnodes

/-- Writing the code of a byte value keeps the form. -/
theorem Memory.wf.writeCode (h : Memory.wf s) (sym : Byte) (code : Bits) :
    Memory.wf { s with codes := setCode s.codes sym.toNat code } :=
  h.withCodes (setCode_wf code sym.isLt h.codes)

/-! ### Level B -/

/-- A step of the engine keeps the form: where it writes a space it has found room, and where it does not, the spaces
are those of before. -/
theorem engineStep_wf (hm : Memory.wf s) (h : engineStep s = .next t) : Memory.wf t := by
  unfold engineStep at h
  generalize s.engState = e at h
  cases e with
  | idle => cases h; exact hm
  | pClear =>
    simp only [stepPClear] at h
    have hpool := poolReset_wf hm
    split at h <;> cases h <;> exact hpool
  | bSeed =>
    obtain ⟨_, hroom, _, rfl⟩ := stepBSeed_cases h
    exact hm.withTree (seedByte_nodesWf _ _ (Nat.lt_succ_of_le hroom) hm.nodes)
  | bCheck =>
    simp only [stepBCheck] at h
    split at h
    · cases h; exact hm
    · split at h <;> cases h <;> exact hm
  | bSort => cases h; exact hm
  | bMerge =>
    obtain ⟨_, hroom, rfl⟩ := stepBMerge_cases h
    exact hm.withTree (mergeFirstTwo_nodesWf (Nat.lt_succ_of_le hroom) hm.nodes)
  | dClear => cases h; exact hm.withCodes codesWf_nil
  | dRoot =>
    simp only [stepDRoot] at h
    split at h <;> cases h
    next sym _ _ => exact hm.writeCode sym fallbackCode
    next => exact hm
  | dVisit =>
    rcases stepDVisit_cases h with ⟨_, _, _, _, rfl⟩ | ⟨_, _, _, _, _, _, _, _, rfl⟩ | ⟨_, _, _, _, _, _, rfl⟩
    · exact hm.writeCode _ _
    · exact hm.writeCode _ _
    · exact hm
  | xInit =>
    simp only [stepXInit] at h
    split at h <;> cases h <;> exact hm
  | xFetch =>
    rcases stepXFetch_cases h with
      ⟨_, rfl⟩ | ⟨_, _, ⟨_, rfl⟩ | ⟨_, ⟨_, rfl⟩ | ⟨_, ⟨_, rfl⟩ | ⟨_, rfl⟩⟩⟩⟩ <;> exact hm
  | xEmit =>
    obtain ⟨_, _, hroom, rfl⟩ := stepXEmit_cases h
    obtain ⟨hrising, hbelow⟩ := hm.out
    exact hm.withOut ⟨cellSet_rising _ _ hrising, cellSet_below _ hroom hbelow⟩

/-! ### Level A -/

/-- ENCODE whole: it stops, with or without an error, where some number of input bytes have been emitted (rule R165). -/
theorem encodeBody_cases (h : encodeBody s = .next t) :
    ∃ out k, Emitted s out k ∧
      (t = finish (encodeAfter s out k) ∨ t = raiseError .bufferExhausted (encodeAfter s out k)) := by
  cases h
  rw [encodeInit_eq]
  rcases encodeLoop_spec s s.inLen 0 s.out (Nat.zero_le _) (emitted_zero s) with
    ⟨_, out, he, heq⟩ | ⟨k, out, _, _, _, _, he, heq⟩
  · exact ⟨out, _, he, .inl heq⟩
  · exact ⟨out, k, he, .inr heq⟩

/-- A whole command keeps the form. -/
theorem commandBody_wf {i : Instr} (hm : Memory.wf s) (h : commandBody i s = .next t) : Memory.wf t := by
  have hpool := poolReset_wf hm
  cases i with
  | clear => cases h; exact hpool
  | build =>
    rw [commandBody, buildBody_eq] at h
    split at h <;> cases h
    · exact hpool
    · exact hm.withTree (builtTree_nodesWf _)
  | derive =>
    simp only [commandBody, deriveBody] at h
    split at h <;> cases h
    next codes hd => exact hm.withCodes (deriveTable_codesWf hd)
  | measure => cases (measureBody_eq s).symm.trans h; exact hm
  | encode =>
    obtain ⟨out, k, he, ht⟩ := encodeBody_cases h
    obtain ⟨hrising, hbelow⟩ := hm.out
    have hout := hm.withOut ⟨he.rising hrising, he.below hbelow⟩
    rcases ht with rfl | rfl <;> exact hout

theorem exec_wf {i : Instr} (hm : Memory.wf s) (h : exec i s = .next t) : Memory.wf t := by
  rw [exec_eq_issueCommand] at h
  rcases issueCommand_cases h with ⟨_, ⟨_, _, rfl⟩ | ⟨_, _, hbody⟩ | ⟨_, _, rfl⟩⟩
  · exact hm
  · exact commandBody_wf (s := acceptCommand i s) hm hbody
  · exact hm

/-- Settles O50, by the cases of a step: the engine, a host write and a command keep the form, a reset event makes it,
and nothing else writes a space. -/
theorem stepKeepsTheSpacesCanonical : Obligations.StepKeepsTheSpacesCanonical := by
  unfold Obligations.StepKeepsTheSpacesCanonical
  intro s t hm h
  obtain ⟨rest, _, hcase⟩ := step_cases h
  have hm' : Memory.wf { s with script := rest } := hm
  rcases hcase with hengine | ⟨_, _, _, _, _, rfl⟩ | ⟨_, _, _, v, hp, _, _, _, rfl⟩ | ⟨_, rfl⟩ | ⟨i, _, hexec⟩ |
    ⟨_, rfl⟩ | rfl
  · exact engineStep_wf hm' hengine
  · exact hm
  · exact writePlace_wf v hp hm'
  · exact hm
  · exact exec_wf hm' hexec
  · exact hm
  · exact resetEvent_wf _

end Sys2Proof.Machine
end

section
/-! Host reads and writes (rules R60, R62, R63, R70, R71, R100, R101): the places there are, and what a read and a write
of one answer. -/

namespace Sys2Proof.Machine

variable {s : State} {p : Params} {space index v : Nat} {sp : Space} {pl : Place}

/-! ### The places (rules R41, R60, R62) -/

theorem decodeSpace_eq_none_iff : decodeSpace space = none ↔ 7 < space := by
  match space with
  | 0 | 1 | 2 | 3 | 4 | 5 | 6 | 7 => simp [decodeSpace]
  | n + 8 => simp [decodeSpace]

/-- The registers are numbered without a gap (rule R41). -/
theorem decodeCsr_ne_none (h : index < 12) : decodeCsr index ≠ none := by
  match index with
  | 0 | 1 | 2 | 3 | 4 | 5 | 6 | 7 | 8 | 9 | 10 | 11 => simp [decodeCsr]
  | n + 12 => omega

theorem placeIn_ne_none (h : index < spaceSize p sp) : placeIn sp index ≠ none := by
  cases sp with
  | csr => simpa [placeIn] using decodeCsr_ne_none h
  | freq | input | out | codeLen | codeBits | node | work => simp [placeIn]

/-- An index below the size of the space names a place of that space. -/
theorem decodePlace_of_lt (hs : decodeSpace space = some sp) (h : index < spaceSize p sp) :
    decodePlace p space index = placeIn sp index := by
  simp [decodePlace, hs, h]

theorem decodePlace_eq_none_iff :
    decodePlace p space index = none ↔ 7 < space ∨ ∃ sp, decodeSpace space = some sp ∧ spaceSize p sp ≤ index := by
  cases hs : decodeSpace space with
  | none => simp [decodePlace, hs, decodeSpace_eq_none_iff.mp hs]
  | some sp =>
    have hspace : ¬ 7 < space := fun h => by simp [decodeSpace_eq_none_iff.mpr h] at hs
    by_cases hi : index < spaceSize p sp
    · simp [decodePlace_of_lt hs hi, placeIn_ne_none hi, hspace, hi]
    · simp [decodePlace, hs, hi, Nat.le_of_not_lt hi]

/-- The pairs that name a place, space by space. -/
theorem decodePlace_ne_none_iff :
    decodePlace p space index ≠ none ↔
      (space = 0 ∧ index < 12) ∨ (space = 1 ∧ index < 256) ∨ (space = 2 ∧ index < p.inCap) ∨
        (space = 3 ∧ index < p.outCap) ∨ (space = 4 ∧ index < 256) ∨ (space = 5 ∧ index < 256) ∨
        (space = 6 ∧ index < 511) ∨ (space = 7 ∧ index < 256) := by
  rw [ne_eq, decodePlace_eq_none_iff]
  match space with
  | 0 | 1 | 2 | 3 | 4 | 5 | 6 | 7 => simp [decodeSpace, spaceSize]
  | n + 8 => simp

/-- The width of a place is that of its space's elements, but for the registers (rule R60). -/
theorem placeWidth_of_decodePlace (h : decodePlace p space index = some pl) (h0 : space ≠ 0) :
    some (placeWidth p pl) = [p.freqW, 8, 8, 8, 255, p.freqW + 8 + 28, 9][space - 1]? := by
  have hsome : decodePlace p space index ≠ none := by simp [h]
  rcases decodePlace_ne_none_iff.mp hsome with ⟨rfl, _⟩ | ⟨rfl, hi⟩ | ⟨rfl, hi⟩ | ⟨rfl, hi⟩ | ⟨rfl, hi⟩ | ⟨rfl, hi⟩ |
    ⟨rfl, hi⟩ | ⟨rfl, hi⟩
  · exact absurd rfl h0
  all_goals
    cases (decodePlace_of_lt rfl hi).symm.trans h
    rfl

/-! ### Reads and writes (rules R62, R71, R100, R101) -/

theorem hostRead_of_no_place (hp : decodePlace s.params space index = none) :
    hostRead space index s = .refused .noSuchElement := by
  simp only [hostRead, hp]

theorem hostRead_of_busy (hb : s.busy = true) (hp : decodePlace s.params space index = some pl)
    (hne : pl ≠ .csr .status) : hostRead space index s = .refused .busyAccess := by
  simp only [hostRead, hp]
  exact if_pos ⟨hb, hne⟩

/-- A read is answered when no command runs, and of STATUS always. -/
theorem hostRead_of_place (hp : decodePlace s.params space index = some pl) (hb : s.busy = true → pl = .csr .status) :
    hostRead space index s = .next { s with reads := s.reads ++ [placeRead s pl] } := by
  simp only [hostRead, hp]
  exact if_neg fun ⟨hbusy, hne⟩ => hne (hb hbusy)

theorem hostWrite_of_no_place (hp : decodePlace s.params space index = none) :
    hostWrite space index v s = .refused .noSuchElement := by
  simp only [hostWrite, hp]

theorem hostWrite_of_too_wide (hp : decodePlace s.params space index = some pl)
    (hv : 2 ^ placeWidth s.params pl ≤ v) : hostWrite space index v s = .refused .valueTooWide := by
  simp only [hostWrite, hp]
  exact if_pos hv

theorem hostWrite_of_busy (hb : s.busy = true) (hp : decodePlace s.params space index = some pl)
    (hv : v < 2 ^ placeWidth s.params pl) : hostWrite space index v s = .refused .busyAccess := by
  simp [hostWrite, hp, Nat.not_le.mpr hv, hb]

theorem hostWrite_of_place (hb : s.busy = false) (hp : decodePlace s.params space index = some pl)
    (hv : v < 2 ^ placeWidth s.params pl) (hne : pl ≠ .csr .cmd) :
    hostWrite space index v s = .next (writePlace pl v s) := by
  simp [hostWrite, hp, Nat.not_le.mpr hv, hb, hne]

/-- A read-only place ignores a write (rule R70). -/
theorem writePlace_of_readOnly (h : readOnly pl = true) (v : Nat) (s : State) : writePlace pl v s = s := by
  rcases writePlace_cases pl v s with hw | ⟨rfl, _⟩ | ⟨_, rfl, _⟩ | ⟨_, rfl, _⟩
  · exact hw
  all_goals cases h

/-- What a place holds does not depend on the host's script. -/
theorem placeRead_withScript (s : State) (rest : List HostOp) (pl : Place) :
    placeRead { s with script := rest } pl = placeRead s pl := by
  cases pl with
  | csr r => cases r <;> rfl
  | freq _ | input _ | out _ | codeLen _ | codeBits _ | node _ | work _ => rfl

/-- A step whose host operation is a read that is answered. -/
theorem step_read_of_place (hp : decodePlace s.params space index = some pl) (hb : s.busy = true → pl = .csr .status)
    (rest : List HostOp) :
    step { s with script := .read space index :: rest } =
      .next { s with script := rest, reads := s.reads ++ [placeRead s pl] } := by
  have hread := hostRead_of_place (s := { s with script := rest }) hp hb
  rw [placeRead_withScript] at hread
  exact hread

/-- WORK below WORK_N (rule R30). -/
theorem workAt_of_live {i n : Nat} (h : s.tree.work[i]? = some n) : workAt s i = n := by
  simp [workAt, h]

/-- Bits 4:0 of STATUS while a command runs: BUSY 1, DONE 0, ERR 0 (rules R35, R71). -/
theorem statusWord_of_running (hi : StatusInv s) (hb : s.busy = true) : (statusWord s).extractLsb' 0 5 = 1#5 := by
  obtain ⟨_, hquiet, _⟩ := hi
  obtain ⟨hdone, herr⟩ := hquiet hb
  ext i hlt
  rw [BitVec.getElem_extractLsb', statusWord_getLsbD, hb, hdone, herr]
  match i with
  | 0 | 1 | 2 | 3 | 4 => simp [Err.code]

/-! ### The statements -/

/-- Settles O14, by the space number and the size of the space; the refusals are the first two tests of an access. -/
theorem illegalRequestIsRefused : Obligations.IllegalRequestIsRefused := by
  unfold Obligations.IllegalRequestIsRefused
  intro s space index v rest
  exact ⟨decodePlace_eq_none_iff, fun hp => ⟨hostRead_of_no_place hp, hostWrite_of_no_place hp⟩,
    fun _ hp hv => hostWrite_of_too_wide hp hv, decodePlace_ne_none_iff, rfl, fun _ => placeWidth_of_decodePlace⟩

/-- Settles O13: the write passes the tests and its place ignores it. -/
theorem readOnlyWriteIsIgnored : Obligations.ReadOnlyWriteIsIgnored := by
  unfold Obligations.ReadOnlyWriteIsIgnored
  intro s space index v pl rest hb hp hro hv
  have hne : pl ≠ .csr .cmd := by
    rintro rfl
    cases hro
  calc step { s with script := .write space index v :: rest }
      = .next (writePlace pl v { s with script := rest }) := hostWrite_of_place hb hp hv hne
    _ = .next { s with script := rest } := by rw [writePlace_of_readOnly hro]

/-- Settles O11: the read is answered with the value of its place, and the places are those of the space's elements. -/
theorem hostReadReturnsTheElement : Obligations.HostReadReturnsTheElement := by
  unfold Obligations.HostReadReturnsTheElement
  refine ⟨fun s space index pl rest hb hp => ?_, fun s => rfl, fun s i => ?_⟩
  · exact step_read_of_place hp (fun h => by simp [hb] at h) rest
  · have hread {space : Nat} (sp : Space) (hs : decodeSpace space = some sp) (hi : i < spaceSize s.params sp) :
        (decodePlace s.params space i).map (placeRead s) = (placeIn sp i).map (placeRead s) :=
      congrArg _ (decodePlace_of_lt hs hi)
    exact ⟨hread .freq rfl, hread .input rfl, hread .out rfl, hread .codeLen rfl, hread .codeBits rfl, hread .node rfl,
      fun n hi hn => (hread .work rfl hi).trans (congrArg some (workAt_of_live hn))⟩

/-- Settles O15: BUSY = 1 is the last test of an access and the first of a command, and a read of STATUS is free of it. -/
theorem busyAllowsOnlyStatusReads : Obligations.BusyAllowsOnlyStatusReads := by
  unfold Obligations.BusyAllowsOnlyStatusReads
  intro s space index v pl i rest hb hi hp
  have hstatus : decodePlace s.params 0 1 = some (.csr .status) := rfl
  exact ⟨⟨step_read_of_place hstatus (fun _ => rfl) rest, statusWord_of_running hi hb⟩,
    fun hne => hostRead_of_busy hb hp hne, fun hv => hostWrite_of_busy hb hp hv, exec_of_busy hb⟩

end Sys2Proof.Machine
end

section
/-! What each command leaves unchanged (rule R65): the fields outside the command's row, and so the places outside it. -/

namespace Sys2Proof.Machine

variable {i : Instr} {s t : State}

/-- Rule R65 field by field: what command `i` at Level A leaves of `s` in `t`. A proof that leaves a clause out says by
that that the command writes nothing of the clause's field. -/
structure CommandFrame (i : Instr) (s t : State) : Prop where
  params : t.params = s.params := by rfl
  freq : t.freq = s.freq := by rfl
  input : t.input = s.input := by rfl
  inLen : t.inLen = s.inLen := by rfl
  engState : t.engState = s.engState := by rfl
  script : t.script = s.script := by rfl
  reads : t.reads = s.reads := by rfl
  resets : t.resets = s.resets := by rfl
  tree : i ≠ .clear ∧ i ≠ .build → t.tree = s.tree ∧ t.workEra = s.workEra := by exact fun _ => ⟨rfl, rfl⟩
  codes : i ≠ .derive → t.codes = s.codes := by exact fun _ => rfl
  position : i ≠ .measure ∧ i ≠ .encode → t.inPos = s.inPos ∧ t.skipCount = s.skipCount := by
    exact fun _ => ⟨rfl, rfl⟩
  totalBits : i ≠ .measure → t.totalBits = s.totalBits := by exact fun _ => rfl
  outCount : i ≠ .encode → t.outCount = s.outCount := by exact fun _ => rfl
  out : ∀ k, i ≠ .encode ∨ t.outCount ≤ k → cellGet t.out k = cellGet s.out k := by exact fun _ _ => rfl

theorem refuseCommand_frame (i : Instr) (e : Err) (s : State) : CommandFrame i s (refuseCommand e s) := {}

/-- A whole command begins and ends with the engine idle, and writes its row of rule R65. -/
theorem commandBody_frame (hidle : s.engState = .idle) (h : commandBody i (acceptCommand i s) = .next t) :
    CommandFrame i s t := by
  cases i with
  | clear =>
    cases h
    exact { engState := hidle.symm, tree := fun hne => absurd rfl hne.1 }
  | build =>
    rw [commandBody, buildBody_eq] at h
    split at h <;> cases h <;> exact { engState := hidle.symm, tree := fun hne => absurd rfl hne.2 }
  | derive =>
    simp only [commandBody, deriveBody] at h
    split at h <;> cases h
    exact { engState := hidle.symm, codes := fun hne => absurd rfl hne }
  | measure =>
    cases (measureBody_eq _).symm.trans h
    exact { engState := hidle.symm, position := fun hne => absurd rfl hne.1, totalBits := fun hne => absurd rfl hne }
  | encode =>
    obtain ⟨out, k, he, rfl | rfl⟩ := encodeBody_cases h <;>
      exact { engState := hidle.symm, position := fun hne => absurd rfl hne.2, outCount := fun hne => absurd rfl hne,
              out := fun n hn => he.rest n (hn.resolve_left fun hne => hne rfl) }

theorem exec_frame (hr : Ready .command s) (hidle : s.engState = .idle) (h : exec i s = .next t) :
    CommandFrame i s t := by
  have hbusy : s.busy = false := hr.1
  cases he : issueError i s with
  | some e =>
    cases (exec_of_error hbusy he).symm.trans h
    exact refuseCommand_frame i e s
  | none => exact commandBody_frame hidle ((exec_of_command hr he).symm.trans h)

/-- A place outside the command's row of rule R65 reads as before. -/
theorem CommandFrame.placeRead_eq (hf : CommandFrame i s t) {pl : Place} (hw : mayWrite i t pl = false) :
    placeRead t pl = placeRead s pl := by
  cases pl with
  | csr r =>
    cases r with
    | cmd => rfl
    | status => cases hw
    | inLen => exact hf.inLen
    | inPos => exact (hf.position (by simpa [mayWrite] using hw)).1
    | outCount => exact hf.outCount (by simpa [mayWrite] using hw)
    | skipCount => exact (hf.position (by simpa [mayWrite] using hw)).2
    | totalBits => exact hf.totalBits (by simpa [mayWrite] using hw)
    | root | nodeCount | leafCount | workN =>
      obtain ⟨htree, _⟩ := hf.tree (by simpa [mayWrite] using hw)
      simp only [placeRead, csrRead, htree]
    | engState => simp only [placeRead, csrRead, hf.engState]
  | freq b => simp only [placeRead, freqAt, hf.freq, hf.resets, hf.params]
  | input k => simp only [placeRead, inputAt, hf.input, hf.resets]
  | out k =>
    have hcell := hf.out k (by simpa [mayWrite, Decidable.imp_iff_not_or] using hw)
    simp only [placeRead, outAt, hcell, hf.resets]
  | codeLen b | codeBits b =>
    have hcodes := hf.codes (by simpa [mayWrite] using hw)
    simp only [placeRead, codeAt, hcodes]
  | node k | work k =>
    obtain ⟨htree, hera⟩ := hf.tree (by simpa [mayWrite] using hw)
    simp only [placeRead, workAt, htree, hera, hf.resets]

/-- Settles O45: a command meets its frame, and a place outside its row reads fields of the frame only. -/
theorem commandsKeepTheRest : Obligations.CommandsKeepTheRest := by
  unfold Obligations.CommandsKeepTheRest
  intro i s t hr hidle h
  have hf := exec_frame hr hidle h
  refine ⟨fun e he => ?_, fun _ => hf.placeRead_eq, hf.tree, hf.params, hf.freq, hf.input, hf.script, hf.reads,
    hf.resets⟩
  have hbusy : s.busy = false := hr.1
  cases (exec_of_error hbusy he).symm.trans h
  rfl

end Sys2Proof.Machine
end

section
/-! The command words (rules R81, R82): the decoder, the encoder and the command table say the same of every word. -/

namespace Sys2Proof.Machine

variable {w : BitVec 8} {op : BitVec 4} {i : Instr}

theorem instrOfOpcode_eq_some_iff : instrOfOpcode op = some i ↔ op = opcodeOf i := by
  cases i <;> decide +revert

theorem instrOfOpcode_isSome_iff : (instrOfOpcode op).isSome = true ↔ 1 ≤ op.toNat ∧ op.toNat ≤ 5 := by
  decide +revert

/-- A word is its two fields, one above the other (rule R81). -/
theorem zeroField_append_opcode (w : BitVec 8) : wordZeroField w ++ wordOpcode w = w := by
  have happend : wordZeroField w ++ wordOpcode w = w.extractLsb' 0 (4 + 4) :=
    BitVec.extractLsb'_append_extractLsb'_eq_extractLsb' (Nat.zero_add 4).symm
  rw [happend, BitVec.extractLsb'_eq_self]

theorem decode_eq_some_iff : decode w = some i ↔ w = encode i := by
  constructor
  · intro h
    rw [decode] at h
    split at h
    · next hzero =>
      calc w = wordZeroField w ++ wordOpcode w := (zeroField_append_opcode w).symm
        _ = 0#4 ++ opcodeOf i := by rw [hzero, instrOfOpcode_eq_some_iff.mp h]; rfl
    · cases h
  · rintro rfl
    exact decode_encode i

theorem decode_isSome_iff : (decode w).isSome = true ↔ legalWord w = true := by
  rw [decode, legalWord]
  by_cases hzero : wordZeroField w = 0#4
  · simp [hzero, instrOfOpcode_isSome_iff]
  · simp [hzero]

/-- Every row of the table matches the whole word with the encoding of its command. -/
theorem cmdTable_row : ∀ row ∈ cmdTable, row.mask = BitVec.allOnes 8 ∧ row.word = encode row.instr := by
  decide

theorem tableLookup_eq_some_iff : tableLookup w = some i ↔ w = encode i := by
  constructor
  · intro h
    obtain ⟨row, hfind, rfl⟩ := Option.map_eq_some_iff.mp h
    obtain ⟨hmask, hword⟩ := cmdTable_row row (List.mem_of_find?_eq_some hfind)
    have hmatch := List.find?_some hfind
    rwa [hmask, hword, BitVec.and_allOnes, beq_iff_eq] at hmatch
  · rintro rfl
    cases i <;> rfl

/-- No command's word is 0 or above 5 (rule R82). -/
theorem decode_eq_none (h : w.toNat = 0 ∨ 5 < w.toNat) : decode w = none := by
  rw [Option.eq_none_iff_forall_ne_some]
  intro i hi
  have hword : 1 ≤ (encode i).toNat ∧ (encode i).toNat ≤ 5 := by cases i <;> decide
  rw [decode_eq_some_iff.mp hi] at h
  omega

/-- Settles O4: each word is the encoding of its command. -/
theorem tableWordsDecode : Obligations.TableWordsDecode := by
  unfold Obligations.TableWordsDecode
  exact ⟨decode_encode .clear, decode_encode .build, decode_encode .derive, decode_encode .measure,
    decode_encode .encode⟩

/-- Settles O5: the decoder and the table answer a command exactly for its encoding. -/
theorem decodeAndEncodeAgree : Obligations.DecodeAndEncodeAgree := by
  unfold Obligations.DecodeAndEncodeAgree
  refine ⟨decode_encode, fun w i => decode_eq_some_iff, fun w => ⟨?_, decode_isSome_iff⟩⟩
  exact Option.ext fun i => decode_eq_some_iff.trans tableLookup_eq_some_iff.symm

/-- Settles O6: the write is the issue of a word that decodes to no command. -/
theorem illegalWordIsReported : Obligations.IllegalWordIsReported := by
  unfold Obligations.IllegalWordIsReported
  intro s w rest hb hw hillegal
  have hnat : (BitVec.ofNat 8 w).toNat = w := Nat.mod_eq_of_lt hw
  have hnone : decode (BitVec.ofNat 8 w) = none := decode_eq_none (by rwa [hnat])
  calc step { s with script := .write 0 0 w :: rest }
      = hostWrite 0 0 (BitVec.ofNat 8 w).toNat { s with script := rest } := by rw [hnat]; rfl
    _ = issueWord (BitVec.ofNat 8 w) { s with script := rest } := hostWrite_cmd (s := { s with script := rest }) hb _
    _ = .next { s with script := rest, err := .illegalCommand, done := true } := by
      simp [issueWord, hb, hnone, refuseCommand]

end Sys2Proof.Machine
end

section
/-! The packed formats (rules R84, R85): the fields of a node record and the bits of a code entry, and the way back. -/

namespace Sys2Proof.Machine

/-! ### Node records (rule R84) -/

/-- The five fields stand in the record without overlap. -/
theorem recordFields_packNode {n : Node} (hl : n.left < 512) (hr : n.right < 512) :
    recordFields (packNode n) = (n.kind, n.sym, n.left, n.right, n.weight) := by
  have hkind : n.kind < 4 := by cases n <;> simp [Node.kind]
  have hsym : n.sym < 256 := by
    cases n with
    | leaf sym _ => exact sym.isLt
    | free | internal => simp [Node.sym]
  simp only [recordFields, recordField, packNode, Prod.mk.injEq]
  omega

theorem packNode_lt {p : Params} {n : Node} (hl : n.left < 512) (hr : n.right < 512) (hw : n.weight < 2 ^ p.weightW) :
    packNode n < 2 ^ p.nodeW := by
  have hweight : packNode n / 2 ^ 28 = n.weight :=
    congrArg (fun f => f.2.2.2.2) (recordFields_packNode hl hr)
  rw [Params.nodeW, Nat.pow_add]
  exact Nat.lt_mul_of_div_lt (hweight ▸ hw) (Nat.two_pow_pos 28)

theorem unpackNode_packNode {n : Node} (hl : n.left < 512) (hr : n.right < 512) : unpackNode (packNode n) = some n := by
  have hfields := recordFields_packNode hl hr
  simp only [recordFields, Prod.mk.injEq] at hfields
  obtain ⟨hkind, hsym, hleft, hright, hweight⟩ := hfields
  rw [unpackNode, hkind, hsym, hleft, hright, hweight]
  cases n <;> simp [Node.kind, Node.sym, Node.left, Node.right, Node.weight]

/-- Settles O19: the fields of a record are those of its node, and the weight on top is all that the width has
to bound. -/
theorem nodeRecordRoundTrip : Obligations.NodeRecordRoundTrip := by
  unfold Obligations.NodeRecordRoundTrip
  have hzero : 0 < 512 := by decide
  exact ⟨recordFields_packNode hzero hzero, fun _ _ => recordFields_packNode hzero hzero,
    fun _ _ _ hl hr => recordFields_packNode hl hr,
    fun _ _ hl hr hw => ⟨packNode_lt hl hr hw, unpackNode_packNode hl hr⟩, fun _ _ => rfl⟩

/-! ### Code entries (rule R85) -/

theorem codeBits_cons_half (b : Bool) (code : Bits) : codeBits (b :: code) / 2 = codeBits code := by
  have hbit := b.toNat_le
  rw [codeBits]
  omega

theorem codeBits_cons_bit (b : Bool) (code : Bits) : codeBits (b :: code) % 2 = b.toNat := by
  have hbit := b.toNat_le
  rw [codeBits]
  omega

theorem codeBits_testBit (code : Bits) (k : Nat) : (codeBits code).testBit k = (code[k]?).getD false := by
  induction code generalizing k with
  | nil => simp [codeBits]
  | cons b code ih =>
    cases k with
    | zero =>
      rw [Nat.testBit_zero, codeBits_cons_bit]
      cases b <;> rfl
    | succ k => rw [Nat.testBit_succ, codeBits_cons_half, ih, List.getElem?_cons_succ]

theorem codeBits_lt (code : Bits) : codeBits code < 2 ^ code.length := by
  refine Nat.lt_pow_two_of_testBit _ fun k hk => ?_
  rw [codeBits_testBit, List.getElem?_eq_none hk, Option.getD_none]

theorem codeOfEntry_codeBits (code : Bits) : codeOfEntry code.length (codeBits code) = code := by
  induction code with
  | nil => rfl
  | cons b code ih =>
    rw [List.length_cons, codeOfEntry, codeBits_cons_bit, codeBits_cons_half, ih]
    cases b <;> rfl

/-- Settles O20: bit by bit along the code, each bit of which is one halving of CODE_BITS. -/
theorem codeEntryRoundTrip : Obligations.CodeEntryRoundTrip := by
  unfold Obligations.CodeEntryRoundTrip
  intro s b
  refine ⟨rfl, codeBits_testBit _, fun hlen => ⟨?_, ?_⟩, codeOfEntry_codeBits _⟩
  · exact Nat.lt_of_le_of_lt hlen (by decide)
  · exact Nat.lt_of_lt_of_le (codeBits_lt _) (Nat.pow_le_pow_right (by decide) hlen)

end Sys2Proof.Machine
end

section
/-! The host scripts (rules R90, R91): a run of data writes, and a command with its WAIT. -/

namespace Sys2Proof.Machine

variable {α : Type} {s t : State}

/-! ### Data writes (rule R101) -/

/-- The elements of the listed indices written one after the other, index `i` with `f i`. -/
def cellSetEach (f : Nat → α) (indices : List Nat) (c : Cells α) : Cells α :=
  indices.foldl (fun c i => cellSet c i (f i)) c

theorem cellGet_cellSetEach (f : Nat → α) (indices : List Nat) (c : Cells α) (k : Nat) :
    cellGet (cellSetEach f indices c) k = if k ∈ indices then some (f k) else cellGet c k := by
  induction indices generalizing c with
  | nil => rfl
  | cons i indices ih =>
    calc cellGet (cellSetEach f (i :: indices) c) k
        = if k ∈ indices then some (f k) else cellGet (cellSet c i (f i)) k := ih _
      _ = if k ∈ i :: indices then some (f k) else cellGet c k := by
        rw [cellGet_cellSet]
        by_cases hki : k = i <;> simp [hki]

theorem cellGet_cellSetEach_range (f : Nat → α) (n : Nat) (c : Cells α) (k : Nat) :
    cellGet (cellSetEach f (List.range n) c) k = if k < n then some (f k) else cellGet c k := by
  simp only [cellGet_cellSetEach, List.mem_range]

/-- The places of the listed indices written one after the other, index `i` with `f i`. -/
def writeEach (place : Nat → Place) (f : Nat → Nat) (indices : List Nat) (s : State) : State :=
  indices.foldl (fun s i => writePlace (place i) (f i) s) s

theorem writeEach_freq (f : Nat → Nat) (indices : List Nat) (s : State) :
    writeEach .freq f indices s = { s with freq := cellSetEach f indices s.freq } := by
  induction indices generalizing s with
  | nil => rfl
  | cons i indices ih => exact ih _

theorem writeEach_input (f : Nat → Nat) (indices : List Nat) (s : State) :
    writeEach .input f indices s =
      { s with input := cellSetEach (fun i => BitVec.ofNat 8 (f i)) indices s.input } := by
  induction indices generalizing s with
  | nil => rfl
  | cons i indices ih => exact ih _

theorem writePlace_withScript (pl : Place) (v : Nat) (s : State) (script : List HostOp) :
    writePlace pl v { s with script := script } = { writePlace pl v s with script := script } := by
  cases pl with
  | csr r =>
    simp only [writePlace]
    split <;> rfl
  | freq _ | input _ | out _ | codeLen _ | codeBits _ | node _ | work _ => rfl

theorem runFor_succ {n : Nat} (h : step s = .next t) : runFor (n + 1) s = runFor n t := by
  simp only [runFor, h]

/-- A host write of data that passes the tests, as a step. -/
theorem step_write_of_place {space index v : Nat} {pl : Place} (hb : s.busy = false)
    (hp : decodePlace s.params space index = some pl) (hv : v < 2 ^ placeWidth s.params pl) (hne : pl ≠ .csr .cmd)
    (rest : List HostOp) :
    step { s with script := .write space index v :: rest } = .next { writePlace pl v s with script := rest } := by
  rw [← writePlace_withScript]
  exact hostWrite_of_place (s := { s with script := rest }) hb hp hv hne

theorem step_write_inLen {n : Nat} (hb : s.busy = false) (hn : n < 2 ^ s.params.lenW) (rest : List HostOp) :
    step { s with script := .write 0 2 n :: rest } = .next { s with script := rest, inLen := n } :=
  step_write_of_place (space := 0) (index := 2) (pl := .csr .inLen) hb rfl hn nofun rest

/-- Host writes of data that pass the tests, one step each. -/
theorem runFor_writes {space : Nat} {place : Nat → Place} {f : Nat → Nat} {indices : List Nat} (hb : s.busy = false)
    (hlegal : ∀ i ∈ indices,
      decodePlace s.params space i = some (place i) ∧ f i < 2 ^ placeWidth s.params (place i) ∧ place i ≠ .csr .cmd)
    (rest : List HostOp) :
    runFor indices.length { s with script := indices.map (fun i => .write space i (f i)) ++ rest } =
      .next (writeEach place f indices { s with script := rest }) := by
  induction indices generalizing s with
  | nil => rfl
  | cons i indices ih =>
    obtain ⟨hp, hv, hne⟩ := hlegal i List.mem_cons_self
    obtain ⟨hparams, hbusy, _⟩ := writePlace_control (place i) (f i) s
    calc runFor (i :: indices).length
          { s with script := (i :: indices).map (fun i => .write space i (f i)) ++ rest }
        = runFor indices.length
            { writePlace (place i) (f i) s with script := indices.map (fun i => .write space i (f i)) ++ rest } :=
          runFor_succ (step_write_of_place hb hp hv hne _)
      _ = .next (writeEach place f indices { writePlace (place i) (f i) s with script := rest }) :=
          ih (hbusy.trans hb) fun k hk => hparams ▸ hlegal k (List.mem_cons_of_mem _ hk)
      _ = .next (writeEach place f (i :: indices) { s with script := rest }) := by
          rw [← writePlace_withScript]
          rfl

/-- The first `n` elements of FREQ written in order, `FREQ[b]` with `f b`. -/
theorem runFor_freqWrites {f : Nat → Nat} {n : Nat} (hb : s.busy = false) (hn : n ≤ 256)
    (hf : ∀ b, f b < 2 ^ s.params.freqW) (rest : List HostOp) :
    ∃ freq, (∀ b, cellGet freq b = if b < n then some (f b) else cellGet s.freq b) ∧
      runFor n { s with script := (List.range n).map (fun b => .write 1 b (f b)) ++ rest } =
        .next { s with script := rest, freq := freq } := by
  have hlegal : ∀ b ∈ List.range n,
      decodePlace s.params 1 b = some (.freq b) ∧ f b < 2 ^ s.params.freqW ∧ Place.freq b ≠ .csr .cmd := fun b hlt =>
    ⟨decodePlace_of_lt (sp := .freq) rfl (Nat.lt_of_lt_of_le (List.mem_range.mp hlt) hn), hf b, nofun⟩
  have hrun := runFor_writes (place := .freq) hb hlegal rest
  rw [List.length_range, writeEach_freq] at hrun
  exact ⟨_, cellGet_cellSetEach_range f n s.freq, hrun⟩

/-- The first `n` elements of IN written in order, `IN[i]` with `f i`. -/
theorem runFor_inputWrites {f : Nat → Nat} {n : Nat} (hb : s.busy = false) (hn : n ≤ s.params.inCap)
    (hf : ∀ i, f i < 256) (rest : List HostOp) :
    ∃ input, (∀ i, cellGet input i = if i < n then some (BitVec.ofNat 8 (f i)) else cellGet s.input i) ∧
      runFor n { s with script := (List.range n).map (fun i => .write 2 i (f i)) ++ rest } =
        .next { s with script := rest, input := input } := by
  have hlegal : ∀ i ∈ List.range n,
      decodePlace s.params 2 i = some (.input i) ∧ f i < 2 ^ 8 ∧ Place.input i ≠ .csr .cmd := fun i hlt =>
    ⟨decodePlace_of_lt (sp := .input) rfl (Nat.lt_of_lt_of_le (List.mem_range.mp hlt) hn), hf i, nofun⟩
  have hrun := runFor_writes (place := .input) hb hlegal rest
  rw [List.length_range, writeEach_input] at hrun
  exact ⟨_, cellGet_cellSetEach_range _ n s.input, hrun⟩

/-- The counts LOADF writes fit when the listed ones do. -/
theorem lookup_getD_zero_lt {counts : List (Nat × Nat)} {bound : Nat} (hpos : 0 < bound)
    (h : ∀ x ∈ counts, x.2 < bound) (b : Nat) : (counts.lookup b).getD 0 < bound := by
  cases hb : counts.lookup b with
  | none => exact hpos
  | some n =>
    obtain ⟨before, behind, rfl, _⟩ := List.lookup_eq_some_iff.mp hb
    exact h (b, n) (by simp)

/-- The bytes LOADIN writes are those of its list. -/
theorem getElem?_getD_zero_lt {bytes : List Nat} (h : ∀ v ∈ bytes, v < 256) (i : Nat) : bytes[i]?.getD 0 < 256 := by
  cases hi : bytes[i]? with
  | none => exact Nat.zero_lt_succ _
  | some v => exact h v (List.mem_of_getElem? hi)

/-- LOADIN's writes to IN are numbered from 0 up. -/
theorem scriptLoadIn_eq (bytes : List Nat) :
    scriptLoadIn bytes =
      (List.range bytes.length).map (fun i => .write 2 i (bytes[i]?.getD 0)) ++ [.write 0 2 bytes.length] := by
  rw [scriptLoadIn]
  congr 1
  refine List.ext_getElem (by simp) fun i _ hi => ?_
  rw [List.length_map, List.length_range] at hi
  simp [hi]

/-- LOADIN as a run: the writes to IN, then the one to IN_LEN (rule R91). -/
theorem runFor_scriptLoadIn {bytes : List Nat} (hb : s.busy = false) (hbytes : ∀ v ∈ bytes, v < 256)
    (hcap : bytes.length ≤ s.params.inCap) (hlen : bytes.length < 2 ^ s.params.lenW) (rest : List HostOp) :
    ∃ input, (∀ i, cellGet input i =
        if i < bytes.length then some (BitVec.ofNat 8 (bytes[i]?.getD 0)) else cellGet s.input i) ∧
      runFor (bytes.length + 1) { s with script := scriptLoadIn bytes ++ rest } =
        .next { s with script := rest, input := input, inLen := bytes.length } := by
  obtain ⟨input, hget, hrun⟩ :=
    runFor_inputWrites hb hcap (getElem?_getD_zero_lt hbytes) (.write 0 2 bytes.length :: rest)
  have hlast : runFor 1 { s with script := .write 0 2 bytes.length :: rest, input := input } = _ :=
    runFor_succ (step_write_inLen (s := { s with input := input }) hb hlen rest)
  rw [scriptLoadIn_eq, List.append_assoc]
  exact ⟨input, hget, runFor_trans hrun hlast⟩

/-- Settles O17: the writes of a script run one by one, and an element reads as the last write to it. -/
theorem loadScriptsWriteTheTables : Obligations.LoadScriptsWriteTheTables := by
  unfold Obligations.LoadScriptsWriteTheTables
  constructor
  · intro s counts rest hb hfits
    obtain ⟨freq, hget, hrun⟩ :=
      runFor_freqWrites hb (Nat.le_refl 256) (lookup_getD_zero_lt (Nat.two_pow_pos _) hfits) rest
    exact ⟨_, hrun, rfl, fun b hlt => by rw [freqAt, hget, if_pos hlt, Option.getD_some]⟩
  · intro s bytes rest hb hbytes hcap hlen
    obtain ⟨input, hget, hrun⟩ := runFor_scriptLoadIn hb hbytes hcap hlen rest
    refine ⟨_, hrun, rfl, fun i v hv => ?_, fun i hi => ?_⟩
    · have hi : i < bytes.length := (List.getElem?_eq_some_iff.mp hv).1
      have hbyte : v < 256 := hbytes v (List.mem_of_getElem? hv)
      rw [inputAt, hget, if_pos hi, hv, Option.getD_some, Option.getD_some, BitVec.toNat_ofNat,
        Nat.mod_eq_of_lt hbyte]
    · rw [inputAt, hget, if_neg (Nat.not_lt.mpr hi), inputAt]

/-! ### Commands (rules R90, R102, R103) -/

/-- The loop of ENCODE carries the script along unread. -/
theorem encodeLoop_withScript (n : Nat) (s : State) (script : List HostOp) :
    encodeLoop n { s with script := script } = { encodeLoop n s with script := script } := by
  induction n generalizing s with
  | zero => rfl
  | succ n ih =>
    have hcode : codeAt { s with script := script } (inputAt { s with script := script } s.inPos).toNat =
      codeAt s (inputAt s s.inPos).toNat := rfl
    simp only [encodeLoop, hcode]
    split
    · exact ih (skipByte s)
    · split
      · rfl
      · exact ih (appendCode _ s)

/-- A command after its acceptance carries the script along unread. -/
theorem commandBody_withScript {i : Instr} (h : commandBody i s = .next t) (script : List HostOp) :
    commandBody i { s with script := script } = .next { t with script := script } := by
  cases i with
  | clear =>
    cases h
    rfl
  | build =>
    have hsymbols : freqSymbols { s with script := script } = freqSymbols s := rfl
    rw [commandBody, buildBody_eq] at h ⊢
    rw [hsymbols]
    split at h <;> cases h
    · next h0 => exact if_pos h0
    · next h0 => exact if_neg h0
  | derive =>
    simp only [commandBody, deriveBody] at h ⊢
    split at h <;> cases h
    rfl
  | measure =>
    rw [commandBody, measureBody_eq] at h ⊢
    cases h
    rfl
  | encode =>
    cases h
    exact congrArg Host.Outcome.next (encodeLoop_withScript _ (encodeInit s) script)

theorem issueError_withScript (i : Instr) (s : State) (script : List HostOp) :
    issueError i { s with script := script } = issueError i s := by
  cases i <;> rfl

theorem exec_withScript {i : Instr} (hr : Ready .command s) (h : exec i s = .next t) (script : List HostOp) :
    exec i { s with script := script } = .next { t with script := script } := by
  have hr' : Ready .command { s with script := script } := hr
  have htests := issueError_withScript i s script
  cases he : issueError i s with
  | some e =>
    cases (exec_of_error hr.1 he).symm.trans h
    exact exec_of_error hr'.1 (htests.trans he)
  | none =>
    rw [exec_of_command hr he] at h
    rw [exec_of_command hr' (htests.trans he)]
    exact commandBody_withScript h script

theorem exec_ready {i : Instr} (hr : Ready .command s) (h : exec i s = .next t) : Ready .command t := by
  obtain ⟨hb, hlevel⟩ := hr
  obtain ⟨hparams, ⟨hbusy, _⟩ | ⟨hbusy, _⟩ | ⟨hstep, _⟩⟩ := exec_control h
  · exact ⟨hbusy.trans hb, hparams ▸ hlevel⟩
  · exact ⟨hbusy, hparams ▸ hlevel⟩
  · cases hlevel.symm.trans hstep

theorem exec_script {i : Instr} (hr : Ready .command s) (h : exec i s = .next t) : t.script = s.script := by
  have hsame := (exec_withScript hr h s.script).symm.trans h
  injection hsame with ht
  exact (congrArg State.script ht).symm

/-- `CMD mnemonic` at Level A: the command, and a WAIT that passes at once. -/
theorem runFor_scriptCmd {i : Instr} (hr : Ready .command s) (h : exec i s = .next t) (rest : List HostOp) :
    runFor 2 { s with script := scriptCmd i ++ rest } = .next { t with script := rest } := by
  have hissue : step { s with script := scriptCmd i ++ rest } = .next { t with script := .wait :: rest } :=
    calc step { s with script := scriptCmd i ++ rest }
        = issueWord (encode i) { s with script := .wait :: rest } :=
          hostWrite_cmd (s := { s with script := .wait :: rest }) hr.1 _
      _ = exec i { s with script := .wait :: rest } := issueWord_encode (s := { s with script := .wait :: rest }) hr.1
      _ = .next { t with script := .wait :: rest } := exec_withScript hr h _
  have hwait : step { t with script := .wait :: rest } = .next { t with script := rest } := by
    simp [step, turn, hostTurn, (exec_ready hr h).1]
  simp only [runFor, hissue, hwait]

/-- Every command at Level A answers a next state; DERIVE, where the tree is in one of its two cases (rule R42). -/
theorem exec_answers {i : Instr} (hr : Ready .command s) (htree : i = .derive → TreeInv s.tree) :
    ∃ t, exec i s = .next t := by
  cases he : issueError i s with
  | some e => exact ⟨_, exec_of_error hr.1 he⟩
  | none =>
    rw [exec_of_command hr he]
    cases i with
    | clear => exact ⟨_, rfl⟩
    | build =>
      rw [commandBody, buildBody_eq]
      split <;> exact ⟨_, rfl⟩
    | derive =>
      obtain ⟨codes, hd⟩ := deriveTable_isSome ((htree rfl).treeCase (by simpa [issueError] using he))
      exact ⟨_, by rw [commandBody, deriveBody, acceptCommand_tree, hd]⟩
    | measure => exact ⟨_, rfl⟩
    | encode => exact ⟨_, rfl⟩

/-- BUILD leaves the tree in one of its two cases (rule R42), whatever it was before. -/
theorem exec_build_treeInv (hr : Ready .command s) (h : exec .build s = .next t) : TreeInv t.tree := by
  rw [exec_of_command hr rfl, commandBody, buildBody_eq] at h
  split at h <;> cases h
  · exact .inl rfl
  · next hn => exact .inr (builtTree_treeCase ((freqSymbols_ne_zero_iff _).mp hn))

/-- Settles O43: BUILD leaves a tree DERIVE can walk or refuse, and each CMD of the script is its command. -/
theorem compressScriptRunsTheCommands : Obligations.CompressScriptRunsTheCommands := by
  unfold Obligations.CompressScriptRunsTheCommands
  intro s rest hr
  have hr' : Ready .command { s with script := rest } := hr
  obtain ⟨t, ht⟩ := exec_answers (i := .build) hr' nofun
  have hrt := exec_ready hr' ht
  obtain ⟨u, hu⟩ := exec_answers (i := .derive) hrt fun _ => exec_build_treeInv hr' ht
  have hru := exec_ready hrt hu
  obtain ⟨v, hv⟩ := exec_answers (i := .encode) hru nofun
  have hrun : runFor (2 + (2 + 2)) { s with script := scriptCompress ++ rest } = .next { v with script := rest } :=
    runFor_trans (runFor_scriptCmd hr' ht _) (runFor_trans (runFor_scriptCmd hrt hu _) (runFor_scriptCmd hru hv rest))
  have hscript : v.script = rest := by rw [exec_script hru hv, exec_script hrt hu, exec_script hr' ht]
  exact ⟨t, u, v, ht, hu, hv, by rw [hrun, ← hscript]⟩

end Sys2Proof.Machine
end

section
/-! The host's writes of data and commands, WAIT, and the table of the engine (rules R63, R101 to R103, R105). -/

namespace Sys2Proof.Machine

variable {s t : State} {pl q : Place}

/-! ### Writes of data (rules R63, R101) -/

/-- The places a host write stores into (rules R41, R70). -/
theorem writable_cases (hne : pl ≠ .csr .cmd) (hro : readOnly pl = false) :
    pl = .csr .inLen ∨ (∃ b, pl = .freq b) ∨ ∃ i, pl = .input i := by
  cases pl with
  | csr r =>
    cases r with
    | cmd => exact absurd rfl hne
    | inLen => exact .inl rfl
    | status | inPos | outCount | skipCount | totalBits | root | nodeCount | leafCount | workN | engState => cases hro
  | freq b => exact .inr (.inl ⟨b, rfl⟩)
  | input i => exact .inr (.inr ⟨i, rfl⟩)
  | out _ | codeLen _ | codeBits _ | node _ | work _ => cases hro

/-- A host write of data changes nothing but FREQ, IN and IN_LEN. -/
theorem writePlace_frame (pl : Place) (v : Nat) (s : State) :
    writePlace pl v s =
      { s with
        freq := (writePlace pl v s).freq
        input := (writePlace pl v s).input
        inLen := (writePlace pl v s).inLen } := by
  rcases writePlace_cases pl v s with h | ⟨_, h⟩ | ⟨_, _, h⟩ | ⟨_, _, h⟩ <;> rw [h]

theorem freqAt_writePlace_of_ne {b : Nat} (h : .freq b ≠ pl) (v : Nat) (s : State) :
    freqAt (writePlace pl v s) b = freqAt s b := by
  rcases writePlace_cases pl v s with hw | ⟨_, hw⟩ | ⟨c, rfl, hw⟩ | ⟨_, _, hw⟩ <;> rw [hw]
  · rfl
  · have hbc : b ≠ c := fun e => h (congrArg Place.freq e)
    simp only [freqAt, cellGet_cellSet_ne _ _ hbc]
  · rfl

theorem inputAt_writePlace_of_ne {i : Nat} (h : .input i ≠ pl) (v : Nat) (s : State) :
    inputAt (writePlace pl v s) i = inputAt s i := by
  rcases writePlace_cases pl v s with hw | ⟨_, hw⟩ | ⟨_, _, hw⟩ | ⟨k, rfl, hw⟩ <;> rw [hw]
  · rfl
  · rfl
  · have hik : i ≠ k := fun e => h (congrArg Place.input e)
    simp only [inputAt, cellGet_cellSet_ne _ _ hik]

theorem inLen_writePlace_of_ne (h : .csr .inLen ≠ pl) (v : Nat) (s : State) :
    (writePlace pl v s).inLen = s.inLen := by
  rcases writePlace_cases pl v s with hw | ⟨rfl, _⟩ | ⟨_, _, hw⟩ | ⟨_, _, hw⟩
  · rw [hw]
  · exact absurd rfl h
  · rw [hw]
  · rw [hw]

/-- A write leaves every other place as it was, whatever the space. -/
theorem placeRead_writePlace_of_ne (h : q ≠ pl) (v : Nat) (s : State) :
    placeRead (writePlace pl v s) q = placeRead s q := by
  cases q with
  | csr r =>
    cases r with
    | inLen => exact inLen_writePlace_of_ne h v s
    | cmd | status | inPos | outCount | skipCount | totalBits | root | nodeCount | leafCount | workN | engState =>
      rw [writePlace_frame]
      rfl
  | freq b => exact freqAt_writePlace_of_ne h v s
  | input i => exact congrArg BitVec.toNat (inputAt_writePlace_of_ne h v s)
  | out _ | codeLen _ | codeBits _ | node _ | work _ =>
    rw [writePlace_frame]
    rfl

/-- The place written reads the value written. -/
theorem placeRead_writePlace_same {v : Nat} (hne : pl ≠ .csr .cmd) (hro : readOnly pl = false)
    (hv : v < 2 ^ placeWidth s.params pl) : placeRead (writePlace pl v s) pl = v := by
  rcases writable_cases hne hro with rfl | ⟨b, rfl⟩ | ⟨i, rfl⟩
  · rfl
  · simp [placeRead, freqAt, writePlace]
  · have hbyte : v % 2 ^ 8 = v := Nat.mod_eq_of_lt hv
    simpa [placeRead, inputAt, writePlace] using hbyte

/-- Settles O12: the write passes the tests, and a read after it is one of the written place or of another. -/
theorem hostWriteThenRead : Obligations.HostWriteThenRead := by
  unfold Obligations.HostWriteThenRead
  intro s space index v pl rest hb hp hne hro hv
  refine ⟨_, step_write_of_place hb hp hv hne rest, ?_, fun q hq => ?_, ?_⟩
  · rw [placeRead_withScript]
    exact placeRead_writePlace_same hne hro hv
  · rw [placeRead_withScript]
    exact placeRead_writePlace_of_ne hq v s
  · rw [← writePlace_withScript]
    exact writePlace_frame pl v { s with script := rest }

/-! ### Writes of CMD, and WAIT (rules R101 to R103) -/

theorem issueWord_of_decode {w : BitVec 8} {i : Instr} (hb : s.busy = false) (hd : decode w = some i) :
    issueWord w s = exec i s := by
  simp [issueWord, hb, hd]

/-- A host write to CMD, as a step: the issue of its word. -/
theorem step_write_cmd {w : Nat} (hb : s.busy = false) (hw : w < 256) (rest : List HostOp) :
    step { s with script := .write 0 0 w :: rest } = issueWord (BitVec.ofNat 8 w) { s with script := rest } := by
  have hissue := hostWrite_cmd (s := { s with script := rest }) hb (BitVec.ofNat 8 w)
  rw [BitVec.toNat_ofNat, Nat.mod_eq_of_lt hw] at hissue
  exact hissue

/-- Settles O7: the write is the issue of its word, and the word is that of the command. -/
theorem stepRunsTheDecodedCommand : Obligations.StepRunsTheDecodedCommand := by
  unfold Obligations.StepRunsTheDecodedCommand
  intro s w i rest hb hw hd
  exact (step_write_cmd hb hw rest).trans (issueWord_of_decode (s := { s with script := rest }) hb hd)

theorem step_wait {rest : List HostOp} (hs : s.script = .wait :: rest) :
    step s = if s.busy then engineStep s else .next { s with script := rest } := by
  simp only [step, turn, hs, hostTurn]

/-- Settles O16: BUSY decides what a WAIT does, and no step of the engine touches the script. -/
theorem waitStaysUntilNotBusy : Obligations.WaitStaysUntilNotBusy := by
  unfold Obligations.WaitStaysUntilNotBusy
  intro s rest hs
  refine ⟨fun hb => by simp [step_wait hs, hb], fun hb => ?_⟩
  have hengine : step s = engineStep s := by simp [step_wait hs, hb]
  exact ⟨hengine, fun t ht => engineStep_script (hengine ▸ ht)⟩

/-! ### The engine (rules R102, R105) -/

/-- Settles O53: the acceptance writes ERR, DONE, BUSY and OP, the start ENG_STATE. -/
theorem levelBIssueStartsTheEngine : Obligations.LevelBIssueStartsTheEngine := by
  unfold Obligations.LevelBIssueStartsTheEngine
  intro i s hr he
  exact exec_of_step hr he

/-! The rows of the table with a guard (rules R124 to R126, R151, R152, R172, R173): the guards a step has passed choose
the same way. -/

theorem stepPClear_followsTable (hs : s.engState = .pClear) (h : stepPClear s = .next t) :
    t.engState = transitionTable s := by
  simp only [transitionTable, hs]
  simp only [stepPClear] at h
  split at h <;> cases h
  · next hclear => exact (if_pos hclear).symm
  · next hclear => exact (if_neg hclear).symm

theorem stepBSeed_followsTable (hs : s.engState = .bSeed) (h : stepBSeed s = .next t) :
    t.engState = transitionTable s := by
  simp only [transitionTable, hs]
  obtain ⟨hscan, _, _, rfl⟩ := stepBSeed_cases h
  by_cases hlast : s.hidden.scan = 255
  · simp [hlast]
  · have hmore : s.hidden.scan < 255 := by omega
    simp [hlast, hmore, hs]

theorem stepBCheck_followsTable (hs : s.engState = .bCheck) (h : stepBCheck s = .next t) :
    t.engState = transitionTable s := by
  simp only [transitionTable, hs]
  simp only [stepBCheck] at h
  split at h
  · next hzero => cases h; simp [hzero]
  · next hzero =>
    split at h <;> cases h
    · next hone => simp [hone]
    · next hone =>
      have htwo : 2 ≤ s.tree.work.length := by omega
      simp [htwo]

theorem stepDRoot_followsTable (hs : s.engState = .dRoot) (h : stepDRoot s = .next t) :
    t.engState = transitionTable s := by
  simp only [transitionTable, hs]
  simp only [stepDRoot] at h
  split at h <;> cases h
  · next hnode => simp [hnode, Node.kind]
  · next hnode => simp [hnode, Node.kind]

theorem stepDVisit_followsTable (hs : s.engState = .dVisit) (h : stepDVisit s = .next t) :
    t.engState = transitionTable s := by
  simp only [transitionTable, hs]
  rcases stepDVisit_cases h with ⟨_, _, hnode, hstack, rfl⟩ | ⟨_, _, _, _, _, hstack, _, _, rfl⟩ |
    ⟨_, _, _, hnode, _, _, rfl⟩
  · simp [hnode, hstack, Node.kind]
  · simp [hstack, hs]
  · simp [hnode, hs, Node.kind]

theorem stepXFetch_followsTable (hs : s.engState = .xFetch) (h : stepXFetch s = .next t) :
    t.engState = transitionTable s := by
  simp only [transitionTable, hs]
  rcases stepXFetch_cases h with ⟨hend, rfl⟩ | ⟨hmore, _, ⟨hempty, rfl⟩ | ⟨hcode, ⟨hmeasure, rfl⟩ | ⟨hencode, hroom⟩⟩⟩
  · simp [hend]
  · simp [hmore, hempty, hs]
  · simp [hmore, hmeasure, hs]
  · have hemit : ¬ (codeOfInput s s.inPos = [] ∨ s.hidden.op = 4) := not_or.mpr ⟨hcode, hencode⟩
    simp only [if_neg hmore, if_neg hemit]
    rcases hroom with ⟨hfull, rfl⟩ | ⟨hfits, rfl⟩
    · exact (if_pos hfull).symm
    · exact (if_neg (Nat.not_lt.mpr hfits)).symm

theorem stepXEmit_followsTable (hs : s.engState = .xEmit) (h : stepXEmit s = .next t) :
    t.engState = transitionTable s := by
  simp only [transitionTable, hs]
  obtain ⟨_, hbit, _, rfl⟩ := stepXEmit_cases h
  obtain ⟨hlt, _⟩ := List.getElem?_eq_some_iff.mp hbit
  by_cases hlast : s.hidden.bitpos + 1 = (codeAt s s.hidden.csym.toNat).length
  · simp [hlast]
  · have hmore : s.hidden.bitpos + 1 < (codeAt s s.hidden.csym.toNat).length := by omega
    simp [hlast, hmore, hs]

/-- Settles O54, state by state of the engine: the guarded rows by their lemmas, the others go to one state always. -/
theorem engineFollowsTheTable : Obligations.EngineFollowsTheTable := by
  unfold Obligations.EngineFollowsTheTable
  intro s t h
  unfold engineStep at h
  generalize hs : s.engState = e at h
  cases e with
  | idle => cases h; simp [transitionTable, hs]
  | pClear => exact stepPClear_followsTable hs h
  | bSeed => exact stepBSeed_followsTable hs h
  | bCheck => exact stepBCheck_followsTable hs h
  | bSort => cases h; simp [transitionTable, hs]
  | bMerge => obtain ⟨_, _, rfl⟩ := stepBMerge_cases h; simp [transitionTable, hs]
  | dClear => cases h; simp [transitionTable, hs]
  | dRoot => exact stepDRoot_followsTable hs h
  | dVisit => exact stepDVisit_followsTable hs h
  | xInit =>
    simp only [stepXInit] at h
    split at h <;> cases h <;> simp [transitionTable, hs]
  | xFetch => exact stepXFetch_followsTable hs h
  | xEmit => exact stepXEmit_followsTable hs h

end Sys2Proof.Machine
end

section
/-! The stable sort of a pool that is sorted but for its last element (rule R120), and one merge (rule R114). -/

namespace Sys2Proof.Machine

variable {wt : Nat → Nat} {pool : List Nat} {m x : Nat}

/-- An element no heavier than any of the pool goes in front of it. -/
theorem insertByWeight_of_le (h : ∀ y ∈ pool, wt x ≤ wt y) : insertByWeight wt x pool = x :: pool := by
  cases pool with
  | nil => rfl
  | cons y ys => exact if_pos (h y List.mem_cons_self)

/-- An element heavier than the first of the pool goes somewhere behind it. -/
theorem insertByWeight_of_gt (h : wt m < wt x) : insertByWeight wt x (m :: pool) = m :: insertByWeight wt x pool :=
  if_neg (Nat.not_le.mpr h)

/-- Settles O23, element by element of the sorted pool: one no heavier than `m` stays in front of the rest, and from the
first heavier one on all stay behind `m`. -/
theorem sortMovesOnlyTheNewNode : Obligations.SortMovesOnlyTheNewNode := by
  unfold Obligations.SortMovesOnlyTheNewNode
  intro wt pool m hsorted
  induction pool with
  | nil => rfl
  | cons x xs ih =>
    obtain ⟨hx, hxs⟩ := List.pairwise_cons.mp hsorted
    rw [List.cons_append, stableSort]
    by_cases hle : wt x ≤ wt m
    · have hfront : ∀ y ∈ stableSort wt (xs ++ [m]), wt x ≤ wt y := by
        intro y hy
        rcases List.mem_append.mp ((stableSort_perm wt _).mem_iff.mp hy) with hy | hy
        · exact hx y hy
        · exact List.mem_singleton.mp hy ▸ hle
      rw [insertByWeight_of_le hfront, ih hxs]
      simp [hle]
    · have hgt : wt m < wt x := Nat.lt_of_not_le hle
      have hbehind : ∀ hpos : 0 < xs.length, ¬ wt xs[0] ≤ wt m := fun hpos =>
        Nat.not_le.mpr (Nat.lt_of_lt_of_le hgt (hx _ (List.getElem_mem hpos)))
      have htake : xs.takeWhile (fun y => decide (wt y ≤ wt m)) = [] :=
        List.takeWhile_eq_nil_iff.mpr fun hpos => by simpa using hbehind hpos
      have hdrop : xs.dropWhile (fun y => decide (wt y ≤ wt m)) = xs :=
        List.dropWhile_eq_self_iff.mpr fun hpos => by simpa using hbehind hpos
      rw [ih hxs, htake, hdrop, List.nil_append, insertByWeight_of_gt hgt, insertByWeight_of_le hx]
      simp [hle]

/-- One merge writes the new node and no other. -/
theorem nodeAt_mergeOnce {t : Tree} {a b : Nat} {rest : List Nat}
    (hs : stableSort (weightAt t) t.work = a :: b :: rest) (i : Nat) :
    nodeAt (mergeOnce t) i =
      if i = t.nodeCount then .internal (weightAt t a + weightAt t b) a b else nodeAt t i := by
  simp only [mergeOnce_eq t hs, nodeAt]
  exact storeNode_setNode (by simp)

/-- Settles O25: the two lightest are the first two of the sorted pool, and a merge writes the new node only. -/
theorem mergeTakesTheTwoLightest : Obligations.MergeTakesTheTwoLightest := by
  unfold Obligations.MergeTakesTheTwoLightest
  intro t hw
  obtain ⟨a, b, rest, hs⟩ := stableSort_two (weightAt t) hw
  have hperm : (a :: b :: rest).Perm t.work := hs ▸ stableSort_perm (weightAt t) t.work
  have hsorted : (a :: b :: rest).Pairwise fun x y => weightAt t x ≤ weightAt t y :=
    hs ▸ stableSort_sorted (weightAt t) t.work
  refine ⟨a, b, rest, hs, hperm, fun x hx => head_weight_le hsorted (hperm.mem_iff.mpr hx),
    fun x hx => List.rel_of_pairwise_cons hsorted.of_cons hx, ?_, ?_, fun i hi => ?_, ?_, ?_⟩
  · rw [mergeOnce_eq t hs]
  · rw [nodeAt_mergeOnce hs, if_pos rfl]
  · rw [nodeAt_mergeOnce hs, if_neg hi]
  · rw [mergeOnce_eq t hs]
  · rw [mergeOnce_eq t hs]

end Sys2Proof.Machine
end

section
/-! CLEAR and BUILD at Level A (rules R112 to R118, R122): seeding of few and of equal counts, and BUILD whole. -/

namespace Sys2Proof.Machine

variable {freq freq' : Nat → Nat} {s : State} {m n : Nat}

/-! ### Seeding (rule R113) -/

/-- Seeding reads the counts of the byte values seeded only. -/
theorem seedUpTo_congr (t : Tree) (h : ∀ b, b < n → freq b = freq' b) : seedUpTo freq n t = seedUpTo freq' n t := by
  induction n with
  | zero => rfl
  | succ n ih => rw [seedUpTo, seedUpTo, h n (Nat.lt_succ_self n), ih fun b hb => h b (Nat.lt_succ_of_lt hb)]

/-- Seeding on through counts that are all 0 changes nothing. -/
theorem seedUpTo_of_zero_from (t : Tree) (hmn : m ≤ n) (h : ∀ b, m ≤ b → b < n → freq b = 0) :
    seedUpTo freq n t = seedUpTo freq m t := by
  induction n, hmn using Nat.le_induction with
  | base => rfl
  | succ n hmn ih =>
    rw [seedUpTo, h n hmn (Nat.lt_succ_self n)]
    exact ih fun b hb hlt => h b hb (Nat.lt_succ_of_lt hlt)

/-- Seeding with one non-zero count makes its leaf. -/
theorem seedUpTo_of_single {b : Nat} (hb : b < n) (h : ∀ c, c < n → c ≠ b → freq c = 0) (t : Tree) :
    seedUpTo freq n t = seedByte b (freq b) t := by
  calc seedUpTo freq n t
      = seedUpTo freq (b + 1) t :=
        seedUpTo_of_zero_from t hb fun c hc hlt => h c hlt (Nat.ne_of_gt hc)
    _ = seedByte b (freq b) (seedUpTo freq b t) := rfl
    _ = seedByte b (freq b) t := by
        rw [seedUpTo_of_zero t fun c hc => h c (Nat.lt_trans hc hb) (Nat.ne_of_lt hc)]

theorem seedByte_root (b count : Nat) (t : Tree) :
    (seedByte b count t).root = t.root ∧ (seedByte b count t).rootValid = t.rootValid := by
  rw [seedByte]
  split <;> exact ⟨rfl, rfl⟩

/-- Seeding sets no root. -/
theorem seedUpTo_root (freq : Nat → Nat) (n : Nat) (t : Tree) :
    (seedUpTo freq n t).root = t.root ∧ (seedUpTo freq n t).rootValid = t.rootValid := by
  induction n with
  | zero => exact ⟨rfl, rfl⟩
  | succ n ih =>
    obtain ⟨hroot, hvalid⟩ := ih
    rw [← hroot, ← hvalid]
    exact seedByte_root n (freq n) (seedUpTo freq n t)

/-- Settles O24, from what the first 256 turns of `seed()` leave. -/
theorem seedMakesTheLeaves : Obligations.SeedMakesTheLeaves := by
  unfold Obligations.SeedMakesTheLeaves
  intro freq
  obtain ⟨hleaf, hnode, hwork, hnodes⟩ := seedUpTo_seeded freq 256
  obtain ⟨hroot, hvalid⟩ := seedUpTo_root freq 256 Tree.empty
  refine ⟨hleaf, hnode.trans hleaf, hwork.trans (congrArg List.range hleaf), hroot, hvalid, fun i b hb => ?_,
    fun i hi => ?_⟩
  · have hcounted : (countedBelow freq 256)[i]? = some b := hb
    rw [hnodes, hcounted]
    rfl
  · have hnone : (countedBelow freq 256)[i]? = none := List.getElem?_eq_none hi
    rw [hnodes, hnone]
    rfl

/-! ### The built tree (rules R115 to R117) -/

theorem builtTree_congr (h : ∀ b, b < 256 → freq b = freq' b) : builtTree freq = builtTree freq' := by
  rw [builtTree, builtTree, seedUpTo_congr _ h]

/-- One non-zero count makes a tree of its leaf (rule R117). -/
theorem builtTree_of_single {b : Nat} (hb : b < 256) (hb0 : freq b ≠ 0)
    (h : ∀ c, c < 256 → c ≠ b → freq c = 0) :
    builtTree freq =
      { nodes := [(0, .leaf (BitVec.ofNat 8 b) (freq b))]
        nodeCount := 1
        leafCount := 1
        work := [0]
        root := 0
        rootValid := true } := by
  rw [builtTree, seedUpTo_of_single hb h, seedByte, if_neg hb0]
  rfl

theorem freqSymbols_eq_length (s : State) : freqSymbols s = (countedBelow (freqAt s) 256).length :=
  List.countP_eq_length_filter

theorem builtTree_leafCount (hn : freqSymbols s ≠ 0) : (builtTree (freqAt s)).leafCount = freqSymbols s :=
  (builtTree_forest ((freqSymbols_ne_zero_iff s).mp hn)).leafCount.trans (freqSymbols_eq_length s).symm

theorem freqSymbols_congr {s₁ s₂ : State} (h : ∀ b, b < 256 → freqAt s₁ b = freqAt s₂ b) :
    freqSymbols s₁ = freqSymbols s₂ :=
  List.countP_congr fun b hb => by rw [h b (List.mem_range.mp hb)]

/-! ### CLEAR and BUILD whole -/

/-- CLEAR at Level A, with everything it leaves (rule R112). -/
theorem exec_clear_of_ready (hr : Ready .command s) :
    exec .clear s = .next { ended .clear .none s with tree := .empty, workEra := s.workEra + 1 } :=
  exec_of_command hr rfl

/-- BUILD of no counts at Level A, with everything it leaves (rule R118). -/
theorem exec_build_of_no_symbols (hr : Ready .command s) (hn : freqSymbols s = 0) :
    exec .build s =
      .next { ended .build .emptyAlphabet s with tree := .empty, workEra := s.workEra + 1 } := by
  rw [exec_of_command hr rfl, commandBody, buildBody_eq]
  exact if_pos hn

/-- Settles O21, from CLEAR whole. -/
theorem clearEmptiesTheTree : Obligations.ClearEmptiesTheTree := by
  unfold Obligations.ClearEmptiesTheTree
  intro s hr
  exact ⟨_, exec_clear_of_ready hr, rfl⟩

/-- Settles O26: BUILD of no counts leaves no root, which is what DERIVE tests. -/
theorem buildOfNothingIsEmptyAlphabet : Obligations.BuildOfNothingIsEmptyAlphabet := by
  unfold Obligations.BuildOfNothingIsEmptyAlphabet
  intro s hr hzero
  exact ⟨_, exec_build_of_no_symbols hr ((freqSymbols_eq_zero_iff s).mpr hzero), rfl, exec_of_error rfl rfl⟩

/-- Settles O27: the pool has one member, so there is nothing to merge. -/
theorem buildOfOneSymbol : Obligations.BuildOfOneSymbol := by
  unfold Obligations.BuildOfOneSymbol
  intro s b hr hb hb0 hother
  have htree := builtTree_of_single hb hb0 hother
  refine ⟨_, exec_build_of_symbols hr ((freqSymbols_ne_zero_iff s).mpr ⟨b, hb, hb0⟩), rfl, htree, ?_⟩
  rw [degenerateFlag, htree]
  rfl

/-- Settles O28: the counts are those of case tree of rule R42, with a leaf for every non-zero count. -/
theorem buildCompletes : Obligations.BuildCompletes := by
  unfold Obligations.BuildCompletes
  intro s hr hn
  have htree := builtTree_treeCase ((freqSymbols_ne_zero_iff s).mp hn)
  have hleaf := builtTree_leafCount hn
  refine ⟨_, exec_build_of_symbols hr hn, rfl, htree.rootValid, hleaf, hleaf ▸ htree.nodeCount, hleaf ▸ htree.root,
    htree.work, ?_⟩
  simp [degenerateFlag, htree.rootValid, hleaf]

/-- Settles O31: the counts decide whether there is a tree and which, and DERIVE makes its codes of the tree. -/
theorem buildReadsFreqAlone : Obligations.BuildReadsFreqAlone := by
  unfold Obligations.BuildReadsFreqAlone
  intro s₁ s₂ hr₁ hr₂ hfreq
  have hsymbols := freqSymbols_congr hfreq
  by_cases hn : freqSymbols s₁ = 0
  · exact ⟨_, _, exec_build_of_no_symbols hr₁ hn, exec_build_of_no_symbols hr₂ (hsymbols ▸ hn), rfl, rfl, nofun⟩
  · have htree := builtTree_treeCase ((freqSymbols_ne_zero_iff s₁).mp hn)
    have hsame := builtTree_congr hfreq
    obtain ⟨codes, hd⟩ := deriveTable_isSome htree
    exact ⟨_, _, exec_build_of_symbols hr₁ hn, exec_build_of_symbols hr₂ (hsymbols ▸ hn), hsame, rfl, fun hvalid =>
      ⟨_, _, exec_derive_of_table ⟨rfl, hr₁.2⟩ hvalid hd,
        exec_derive_of_table ⟨rfl, hr₂.2⟩ (hsame ▸ hvalid) (hsame ▸ hd), rfl⟩⟩

end Sys2Proof.Machine
end

section
/-! CLEAR and BUILD at Level B (rules R124 to R130): each state of the engine as a step, and the run from the issue to
the end. -/

namespace Sys2Proof.Machine

variable {s : State} {t : Tree}

/-! ### The steps (rules R124 to R128) -/

/-- The engine in state `e` with tree state `t`. -/
def inTree (s : State) (e : EngState) (t : Tree) : State := { s with tree := t, engState := e }

/-- The engine with the first `n` byte values seeded, SCAN standing at the next one. -/
def inSeeding (s : State) (n : Nat) : State :=
  { s with
    tree := seedUpTo (freqAt s) n Tree.empty
    hidden := { s.hidden with scan := n }
    engState := if n = 256 then .bCheck else .bSeed }

/-- P_CLEAR ends CLEAR (rule R124). -/
theorem engineStep_pClear_clear (hs : s.engState = .pClear) (hop : s.hidden.op = opcodeOf .clear) :
    engineStep s = .next (finish { poolReset s with hidden := { s.hidden with scan := 0 } }) := by
  simp only [engineStep, hs]
  exact if_pos hop

/-- P_CLEAR leads any other command to the seeding of the first byte value (rule R124). -/
theorem engineStep_pClear_build (hs : s.engState = .pClear) (hop : s.hidden.op ≠ opcodeOf .clear) :
    engineStep s = .next (inSeeding (poolReset s) 0) := by
  simp only [engineStep, hs]
  exact if_neg hop

/-- B_SEED seeds one byte value; neither the store nor the pool is overrun (rule R125). -/
theorem engineStep_inSeeding {n : Nat} (hn : n < 256) :
    engineStep (inSeeding s n) = .next (inSeeding s (n + 1)) := by
  have heng : (inSeeding s n).engState = .bSeed := if_neg (Nat.ne_of_lt hn)
  obtain ⟨hcount, hwork⟩ := seedUpTo_counts (freqAt s) n
  have hroom : ¬ (255 < n ∨ 510 < (seedUpTo (freqAt s) n Tree.empty).nodeCount ∨
      255 < (seedUpTo (freqAt s) n Tree.empty).work.length) := by omega
  simp only [engineStep, heng]
  refine (if_neg hroom).trans ?_
  by_cases hlast : n = 255
  · subst hlast
    rfl
  · have hmore : n + 1 ≠ 256 := by omega
    refine (if_neg hlast).trans ?_
    simp only [inSeeding, if_neg hmore, if_neg (Nat.ne_of_lt hn)]
    rfl

/-- B_CHECK of an empty pool (rule R126). -/
theorem engineStep_bCheck_of_empty (h : t.work.length = 0) :
    engineStep (inTree s .bCheck t) = .next (raiseError .emptyAlphabet (inTree s .bCheck t)) :=
  if_pos h

/-- B_CHECK of a pool of one member (rule R126). -/
theorem engineStep_bCheck_of_one (h : t.work.length = 1) :
    engineStep (inTree s .bCheck t) = .next (finish (inTree s .bCheck (setRoot t))) := by
  have hne : t.work.length ≠ 0 := by omega
  exact (if_neg hne).trans (if_pos h)

/-- B_CHECK of a pool of two or more (rule R126). -/
theorem engineStep_bCheck_of_more (h : 2 ≤ t.work.length) :
    engineStep (inTree s .bCheck t) = .next (inTree s .bSort t) := by
  have hne : t.work.length ≠ 0 := by omega
  have hne' : t.work.length ≠ 1 := by omega
  exact (if_neg hne).trans (if_neg hne')

/-- B_SORT (rule R127). -/
theorem engineStep_bSort : engineStep (inTree s .bSort t) = .next (inTree s .bMerge (sortPool t)) := rfl

/-- B_MERGE with room for one node more (rule R128). -/
theorem engineStep_bMerge (hw : 2 ≤ t.work.length) (hroom : t.nodeCount ≤ 510) :
    engineStep (inTree s .bMerge t) = .next (inTree s .bCheck (mergeFirstTwo t)) := by
  have hfine : ¬ (t.work.length < 2 ∨ 510 < t.nodeCount) := by omega
  exact if_neg hfine

/-! ### The runs (rule R130) -/

/-- The seeding takes one step for each byte value. -/
theorem busyRun_seeding (hrun : s.script = [] ∧ s.busy = true) {n : Nat} (hn : n ≤ 256) :
    BusyRun n (inSeeding s 0) (inSeeding s n) := by
  induction n with
  | zero => exact .nil _
  | succ n ih =>
    exact (ih (Nat.le_of_lt hn)).trans (.one (s := inSeeding s n) hrun (engineStep_inSeeding hn))

/-- One turn of the merge loop takes three steps. -/
theorem busyRun_mergeOnce (hrun : s.script = [] ∧ s.busy = true) (hw : 2 ≤ t.work.length) (hroom : t.nodeCount ≤ 510) :
    BusyRun 3 (inTree s .bCheck t) (inTree s .bCheck (mergeOnce t)) := by
  have hsorted : 2 ≤ (sortPool t).work.length := hw.trans_eq (stableSort_length _ _).symm
  exact .cons hrun (engineStep_bCheck_of_more hw) (.cons hrun engineStep_bSort
    (.one hrun (engineStep_bMerge (t := sortPool t) hsorted hroom)))

theorem mergeOnce_nodeCount (hw : 2 ≤ t.work.length) : (mergeOnce t).nodeCount = t.nodeCount + 1 := by
  obtain ⟨a, b, rest, hs⟩ := stableSort_two (weightAt t) hw
  rw [mergeOnce_eq t hs]

/-- A pool of one member makes the root, in one step. -/
theorem busyRun_setRoot (hrun : s.script = [] ∧ s.busy = true) (hone : t.work.length = 1) :
    BusyRun (3 * (t.work.length - 1) + 1) (inTree s .bCheck t) (finish (inTree s .bCheck (setRoot t))) := by
  rw [hone]
  exact .one hrun (engineStep_bCheck_of_one hone)

/-- The merge loop takes three steps for each member of the pool but one, and a last one for the root: one merge takes
one member off the pool and one element of the store. -/
theorem busyRun_mergeWhile (hrun : s.script = [] ∧ s.busy = true) (fuel : Nat) (hpos : 1 ≤ t.work.length)
    (hfuel : t.work.length ≤ fuel + 1) (hroom : t.nodeCount + t.work.length ≤ 512) :
    BusyRun (3 * (t.work.length - 1) + 1) (inTree s .bCheck t)
      (finish (inTree s .bCheck (setRoot (mergeWhile fuel t)))) := by
  induction fuel generalizing t with
  | zero => exact busyRun_setRoot hrun (by omega)
  | succ fuel ih =>
    rw [mergeWhile]
    split
    · next hw =>
      have hlen := mergeOnce_work_length hw
      have hcount := mergeOnce_nodeCount hw
      have hstep := busyRun_mergeOnce hrun hw (by omega)
      have hrest := ih (t := mergeOnce t) (by omega) (by omega) (by omega)
      have hsteps : 3 + (3 * ((mergeOnce t).work.length - 1) + 1) = 3 * (t.work.length - 1) + 1 := by omega
      exact hsteps ▸ hstep.trans hrest
    · next hw => exact busyRun_setRoot hrun (by omega)

/-! ### The commands (rules R129, R130) -/

theorem atLevel_of_level {lv : Level} (h : s.params.level = lv) : atLevel lv s = s := by
  subst h
  rfl

/-- A state at Level B is the Level A state it agrees with once that one's level is changed too. -/
theorem sameButHidden_of_level {t u : State} (hlevel : t.params.level = .step)
    (h : { atLevel .step u with hidden := t.hidden } = atLevel .step t) : SameButHidden t u := by
  rw [SameButHidden, h, atLevel_of_level hlevel]

/-- The state an accepted command leaves at Level B, the host having nothing left to do (rule R102). -/
def started (i : Instr) (s : State) : State :=
  { acceptCommand i { s with script := [] } with engState := startState i }

theorem step_withIssue_started {i : Instr} (hr : Ready .step s) (he : issueError i s = none) :
    step (withIssue i s) = .next (started i s) := by
  obtain ⟨hbusy, hlevel⟩ := hr
  rw [step_withIssue hbusy]
  exact exec_of_step ⟨hbusy, hlevel⟩ ((issueError_withScript i s []).trans he)

/-- Settles O55: after the issue, P_CLEAR does what CLEAR does at Level A. -/
theorem levelBClearRefines : Obligations.LevelBClearRefines := by
  unfold Obligations.LevelBClearRefines
  intro s hr
  have hissue := step_withIssue_started (i := .clear) hr rfl
  obtain ⟨hbusy, hlevel⟩ := hr
  have hend := takesSteps_of_busyRun hissue (.one ⟨rfl, rfl⟩ (engineStep_pClear_clear rfl rfl)) rfl
  exact ⟨_, _, exec_clear_of_ready ⟨hbusy, rfl⟩, hend, sameButHidden_of_level hlevel rfl⟩

/-- The engine in the middle of BUILD, with all byte values seeded and the first merge still to come. -/
def buildSeeded (s : State) : State := inSeeding (poolReset (started .build s)) 256

/-- BUILD from the engine's start to the first B_CHECK: P_CLEAR, and one step for each byte value. -/
theorem busyRun_buildSeeded (s : State) : BusyRun 257 (started .build s) (buildSeeded s) := by
  have hop : opcodeOf .build ≠ opcodeOf .clear := by decide
  have hclear : BusyRun 1 (started .build s) _ := .one ⟨rfl, rfl⟩ (engineStep_pClear_build rfl hop)
  exact hclear.trans (busyRun_seeding ⟨rfl, rfl⟩ (Nat.le_refl 256))

/-- From there BUILD of no counts takes one step, and leaves the empty tree (rule R118). -/
theorem busyRun_build_of_no_symbols (hn : freqSymbols s = 0) :
    BusyRun 1 (buildSeeded s) (raiseError .emptyAlphabet (inTree (buildSeeded s) .bCheck Tree.empty)) := by
  have hseed : seedUpTo (freqAt s) 256 Tree.empty = Tree.empty :=
    seedUpTo_of_zero _ ((freqSymbols_eq_zero_iff s).mp hn)
  have hstart : buildSeeded s = inTree (buildSeeded s) .bCheck Tree.empty := by
    rw [← hseed]
    rfl
  have hstep := engineStep_bCheck_of_empty (s := buildSeeded s) (t := Tree.empty) rfl
  rw [← hstart] at hstep ⊢
  exact .one ⟨rfl, rfl⟩ hstep

/-- From there BUILD of some counts takes three steps for each but one, and a last one, and leaves the built tree. -/
theorem busyRun_build_of_symbols (hn : freqSymbols s ≠ 0) :
    BusyRun (3 * (freqSymbols s - 1) + 1) (buildSeeded s)
      (finish (inTree (buildSeeded s) .bCheck (builtTree (freqAt s)))) := by
  have hlen := seedUpTo_work_length s
  obtain ⟨hcount, hwork⟩ := seedUpTo_counts (freqAt s) 256
  have hmerge := busyRun_mergeWhile (s := buildSeeded s) (t := seedUpTo (freqAt s) 256 Tree.empty) ⟨rfl, rfl⟩
    (freqSymbols s) (by omega) (by omega) (by omega)
  rw [hlen] at hmerge
  rw [builtTree, mergeAll, hlen]
  exact hmerge

/-- Settles O56: BUILD at Level B seeds the pool of Level A and then merges it turn by turn. -/
theorem levelBBuildRefines : Obligations.LevelBBuildRefines := by
  unfold Obligations.LevelBBuildRefines
  intro s hr
  have hissue := step_withIssue_started (i := .build) hr rfl
  obtain ⟨hbusy, hlevel⟩ := hr
  have hready : Ready .command (atLevel .command { s with script := [] }) := ⟨hbusy, rfl⟩
  by_cases hn : freqSymbols s = 0
  · have hend := takesSteps_of_busyRun hissue ((busyRun_buildSeeded s).trans (busyRun_build_of_no_symbols hn)) rfl
    rw [if_pos hn]
    exact ⟨_, _, exec_build_of_no_symbols hready hn, hend, sameButHidden_of_level hlevel rfl⟩
  · have hend := takesSteps_of_busyRun hissue ((busyRun_buildSeeded s).trans (busyRun_build_of_symbols hn)) rfl
    have hsteps : 257 + (3 * (freqSymbols s - 1) + 1) + 1 = 3 * freqSymbols s + 256 := by omega
    rw [if_neg hn, ← hsteps]
    exact ⟨_, _, exec_build_of_symbols hready hn, hend, sameButHidden_of_level hlevel rfl⟩

end Sys2Proof.Machine
end

section
/-! DERIVE at Level A (rules R142 to R149): the table of a tree, its refusal, and that no step of Level A faults. -/

namespace Sys2Proof.Machine

variable {s t : State}

/-! ### The refusal and the single leaf (rules R143, R145) -/

/-- DERIVE without a tree is refused (rule R145). -/
theorem exec_derive_of_no_root (hb : s.busy = false) (hvalid : s.tree.rootValid = false) :
    exec .derive s = .next (refuseCommand .noTree s) :=
  exec_of_error hb (by simp [issueError, hvalid])

/-- Settles O8: of the tests at issue, DERIVE has one, and it reads ROOT_VALID. -/
theorem deriveWithoutTreeIsRefused : Obligations.DeriveWithoutTreeIsRefused := by
  unfold Obligations.DeriveWithoutTreeIsRefused
  intro s hb hvalid
  exact exec_derive_of_no_root hb hvalid

/-- Settles O33: a leaf at ROOT gives the table of its fallback code. -/
theorem deriveOfOneLeaf : Obligations.DeriveOfOneLeaf := by
  unfold Obligations.DeriveOfOneLeaf
  intro s sym w hr hvalid hn
  exact exec_derive_of_table hr hvalid (deriveTable_of_leaf hn)

/-! ### The code table (rules R144, R146, R149) -/

/-- What DERIVE can answer at Level A: the refusal, or the code table of the tree (rules R144, R145). -/
theorem exec_derive_cases (hr : Ready .command s) (h : exec .derive s = .next t) :
    (s.tree.rootValid = false ∧ t = refuseCommand .noTree s) ∨
    (s.tree.rootValid = true ∧ ∃ codes, deriveTable s.tree = some codes ∧
      t = { ended .derive .none s with codes := codes }) := by
  cases hvalid : s.tree.rootValid with
  | false =>
    cases (exec_derive_of_no_root hr.1 hvalid).symm.trans h
    exact .inl ⟨rfl, rfl⟩
  | true =>
    cases hd : deriveTable s.tree with
    | none =>
      rw [exec_of_command hr (by simp [issueError, hvalid]), commandBody, deriveBody, acceptCommand_tree, hd] at h
      cases h
    | some codes =>
      cases (exec_derive_of_table hr hvalid hd).symm.trans h
      exact .inr ⟨rfl, codes, rfl, rfl⟩

/-- Settles O34: the answer has the tree, and so the refusal or the table, of the state DERIVE was issued in. -/
theorem deriveAgainChangesNothing : Obligations.DeriveAgainChangesNothing := by
  unfold Obligations.DeriveAgainChangesNothing
  intro s t hr h
  have hrt := exec_ready hr h
  rcases exec_derive_cases hr h with ⟨hvalid, rfl⟩ | ⟨hvalid, codes, hd, rfl⟩
  · exact ⟨rfl, exec_derive_of_no_root hrt.1 hvalid⟩
  · exact ⟨rfl, exec_derive_of_table hrt hvalid hd⟩

/-- DERIVE of a tree completes with the code table of the tree. -/
theorem exec_derive_of_treeCase (hr : Ready .command s) (h : TreeCase s.tree) :
    ∃ codes, deriveTable s.tree = some codes ∧
      exec .derive s = .next { ended .derive .none s with codes := codes } := by
  obtain ⟨codes, hd⟩ := deriveTable_isSome h
  exact ⟨codes, hd, exec_derive_of_table hr h.rootValid hd⟩

/-- The codes of a tree of two or more leaves are the paths of its leaves (rule R144). -/
theorem deriveTable_paths {tree : Tree} {codes : Cells Bits} (h : TreeCase tree) (h2 : 2 ≤ tree.leafCount)
    (hd : deriveTable tree = some codes) (b : Nat) (c : Bits) (hc : c ≠ []) :
    storeCode codes b = c ↔ pathToLeaf tree b c := by
  rcases deriveTable_cases h hd with ⟨h1, _⟩ | ⟨_, hpaths⟩
  · omega
  · exact hpaths b c hc

/-- Settles O32: the walk gives each symbol the path of its leaf, and every leaf has one. -/
theorem deriveGivesThePaths : Obligations.DeriveGivesThePaths := by
  unfold Obligations.DeriveGivesThePaths
  intro s hr htree h2
  obtain ⟨codes, hd, hexec⟩ := exec_derive_of_treeCase hr htree
  refine ⟨_, hexec, rfl, deriveTable_paths htree h2 hd, fun i hi => ?_⟩
  obtain ⟨sym, w, hn, _⟩ := htree.leafNodes i hi
  rw [hn]
  exact (deriveTable_coded_iff htree hd sym.toNat).mpr ⟨i, sym, w, hn, rfl⟩

/-- Settles O36: a path passes at most one internal node for each leaf but one. -/
theorem codeLengthIsBounded : Obligations.CodeLengthIsBounded := by
  unfold Obligations.CodeLengthIsBounded
  intro s hr htree
  obtain ⟨codes, hd, hexec⟩ := exec_derive_of_treeCase hr htree
  exact ⟨_, hexec, fun b => ⟨deriveTable_length_le htree hd b, deriveTable_length_le_codeMax htree hd b⟩⟩

/-! ### No faults (rule R142) -/

theorem hostRead_ne_fault (space index : Nat) (s : State) (f : Fault) : hostRead space index s ≠ .fault f := by
  unfold hostRead
  split
  · nofun
  · split <;> nofun

/-- The issue of a word does not fault where no command does. -/
theorem issueWord_ne_fault {f : Fault} (h : ∀ i, exec i s ≠ .fault f) (w : BitVec 8) : issueWord w s ≠ .fault f := by
  unfold issueWord
  split
  · nofun
  · split
    · nofun
    · exact h _

/-- Nor does a host write. -/
theorem hostWrite_ne_fault {f : Fault} (h : ∀ i, exec i s ≠ .fault f) (space index v : Nat) :
    hostWrite space index v s ≠ .fault f := by
  unfold hostWrite
  split
  · nofun
  · split
    · nofun
    · split
      · nofun
      · split
        · exact issueWord_ne_fault h _
        · nofun

/-- A host operation faults only in a step of the engine or in a command. -/
theorem hostTurn_ne_fault {f : Fault} (hidle : s.engState = .idle)
    (h : ∀ rest i, exec i { s with script := rest } ≠ .fault f) (op : HostOp) (rest : List HostOp) :
    hostTurn op rest s ≠ .fault f := by
  cases op with
  | read space index => exact hostRead_ne_fault space index _ f
  | write space index v => exact hostWrite_ne_fault (h rest) space index v
  | wait =>
    rw [hostTurn, engineStep_of_idle hidle]
    split <;> nofun
  | pass =>
    rw [hostTurn, engineStep_of_idle (s := { s with script := rest }) hidle]
    nofun
  | reset => nofun

/-- Settles O49: at Level A the engine rests, and every command has an answer in either case of rule R42. -/
theorem noStepFaults : Obligations.NoStepFaults := by
  unfold Obligations.NoStepFaults
  intro s f hlevel hi
  obtain ⟨hb, hidle⟩ := hi.idle
  have hexec : ∀ rest i, exec i { s with script := rest } ≠ .fault f := fun rest i hf => by
    obtain ⟨t, ht⟩ := exec_answers (i := i) (s := { s with script := rest }) ⟨hb, hlevel⟩ fun _ => hi.tree
    cases ht.symm.trans hf
  rw [step, turn]
  split
  · rw [engineStep_of_idle hidle]
    nofun
  · next op rest _ => exact hostTurn_ne_fault hidle hexec op rest

end Sys2Proof.Machine
end

section
/-! The Kraft sum of the codes of a tree (rule R147): the walk of a subtree adds what its one path would. -/

namespace Sys2Proof.Machine

variable {t : Tree} {codes codes' : Cells Bits}

/-- What the code of one byte value adds to the Kraft sum. -/
def kraftTerm (c : Bits) : Nat := if c = [] then 0 else 2 ^ (255 - c.length)

theorem kraftSum_eq (codes : Cells Bits) :
    kraftSum codes = ((List.range 256).map fun b => kraftTerm (storeCode codes b)).sum := rfl

theorem kraftSum_nil : kraftSum [] = 0 :=
  List.sum_eq_zero fun _ hx => by
    obtain ⟨_, _, rfl⟩ := List.mem_map.mp hx
    rfl

/-- A code one bit longer adds half as much. -/
theorem two_pow_shorter {n : Nat} (hn : n < 255) : 2 ^ (255 - n) = 2 * 2 ^ (255 - (n + 1)) := by
  obtain ⟨d, hd⟩ : ∃ d, 255 = n + 1 + d := Nat.exists_eq_add_of_le hn
  rw [hd, Nat.add_sub_cancel_left, Nat.add_assoc, Nat.add_sub_cancel_left, Nat.add_comm, Nat.pow_succ']

/-- A new code adds its term to the Kraft sum. -/
theorem kraftSum_setCode {b : Nat} {c : Bits} (hb : b < 256) (hnew : storeCode codes b = []) (hc : c ≠ []) :
    kraftSum (setCode codes b c) = kraftSum codes + 2 ^ (255 - c.length) := by
  have hterm : ∀ a, kraftTerm (storeCode (setCode codes b c) a) =
      kraftTerm (storeCode codes a) + if a = b then 2 ^ (255 - c.length) else 0 := fun a => by
    rw [storeCode_setCode hc]
    by_cases ha : a = b
    · subst ha
      simp [kraftTerm, hnew, hc]
    · simp [ha]
  have hone : ((List.range 256).map fun a => if a = b then 2 ^ (255 - c.length) else 0).sum = 2 ^ (255 - c.length) := by
    rw [List.sum_map_eq_nsmul_single b _ (fun a ha _ => if_neg ha),
      List.count_eq_one_of_mem List.nodup_range (List.mem_range.mpr hb), one_nsmul, if_pos rfl]
  simp only [kraftSum_eq, hterm, List.sum_map_add, hone]

/-- The walk of a subtree whose symbols have no code yet adds to the Kraft sum what a code ending at its top would add:
half of it on each side of an internal node. -/
theorem kraftSum_walk (h : TreeCase t) {fuel i : Nat} {p : Bits} (hi : i < t.nodeCount) (hf : i < fuel)
    (hp : p ≠ [] ∨ t.leafCount ≤ i) (hroom : p.length + (i + 1 - t.leafCount) ≤ 255)
    (hnew : ∀ b c, leafBelow t i b c → storeCode codes b = []) (hw : walk t fuel i p codes = some codes') :
    kraftSum codes' = kraftSum codes + 2 ^ (255 - p.length) := by
  induction fuel generalizing i p codes codes' with
  | zero => cases hw
  | succ fuel ih =>
    rcases treeCase_kinds h hi with ⟨hlt, sym, w, hn⟩ | ⟨hge, w, l, r, hn, hl, hr, _⟩
    · simp only [walk, hn, Option.some.injEq] at hw
      subst hw
      exact kraftSum_setCode sym.isLt (hnew _ [] ⟨i, sym, w, rfl, hn, rfl⟩) (hp.resolve_right (by omega))
    · obtain ⟨codes₁, hw₁, _, hother⟩ :=
        walk_spec h fuel l (p ++ [false]) codes (by omega) (by omega) (.inl (by simp))
      simp only [walk, hn, hw₁] at hw
      have hnewl : ∀ b c, leafBelow t l b c → storeCode codes b = [] := fun b c hc =>
        hnew b _ ((leafBelow_internal hn b _).mpr (.inl ⟨c, rfl, hc⟩))
      have hnewr : ∀ b c, leafBelow t r b c → storeCode codes₁ b = [] := fun b c hc =>
        (hother b fun _ hd => leafBelow_disjoint h hn hd hc).trans
          (hnew b _ ((leafBelow_internal hn b _).mpr (.inr ⟨c, rfl, hc⟩)))
      have hlen : ∀ b : Bool, (p ++ [b]).length = p.length + 1 := fun _ => List.length_append
      have hleft := ih (by omega) (by omega) (.inl (by simp)) (by rw [hlen]; omega) hnewl hw₁
      have hright := ih (by omega) (by omega) (.inl (by simp)) (by rw [hlen]; omega) hnewr hw
      rw [hright, hleft, hlen, hlen, two_pow_shorter (n := p.length) (by omega), Nat.two_mul, Nat.add_assoc]

/-- The code table of two or more leaves is complete (rule R147). -/
theorem deriveTable_kraftSum (h : TreeCase t) (h2 : 2 ≤ t.leafCount) (hd : deriveTable t = some codes) :
    kraftSum codes = 2 ^ 255 := by
  have hroot := h.root
  have hcount := h.nodeCount
  have hleaves := h.leaves
  obtain ⟨w, l, r, hn⟩ := treeCase_root_internal h h2
  rw [deriveTable, hn] at hd
  have hsum := kraftSum_walk h (by omega) (by simp only [nodeMax]; omega) (.inr (by omega))
    (by simp only [List.length_nil]; omega) (fun _ _ _ => rfl) hd
  rw [hsum, kraftSum_nil, Nat.zero_add, List.length_nil, Nat.sub_zero]

/-- Settles O35: a path does not go on below a leaf, and each internal node shares out its part of the Kraft sum. -/
theorem deriveMakesAPrefixCode : Obligations.DeriveMakesAPrefixCode := by
  unfold Obligations.DeriveMakesAPrefixCode
  intro s hr htree
  obtain ⟨codes, hd, hexec⟩ := exec_derive_of_treeCase hr htree
  exact ⟨_, hexec, deriveTable_prefixCode htree hd, fun h2 => deriveTable_kraftSum htree h2 hd⟩

end Sys2Proof.Machine
end

section
/-! DERIVE at Level B (rules R150 to R153): each state of the engine as a step, and the run over a subtree, one step for
each of its nodes. -/

namespace Sys2Proof.Machine

variable {s : State} {t : Tree} {codes codes' : Cells Bits}

/-! ### The nodes of a subtree -/

/-- The nodes that can be reached from node `i`, itself among them. -/
def nodesBelow (t : Tree) (i : Nat) : Set Nat := { j | ∃ c, descend t i c = some j }

/-- Nothing stands below a leaf. -/
theorem nodesBelow_leaf {i w : Nat} {sym : Byte} (hn : nodeAt t i = .leaf sym w) : nodesBelow t i = {i} := by
  ext j
  constructor
  · rintro ⟨c, hc⟩
    cases c with
    | nil => exact (Option.some.inj hc).symm
    | cons b bs => simp [descend, hn] at hc
  · rintro rfl
    exact ⟨[], rfl⟩

/-- Below an internal node stand the nodes of its two subtrees. -/
theorem nodesBelow_internal {i w l r : Nat} (hn : nodeAt t i = .internal w l r) :
    nodesBelow t i = insert i (nodesBelow t l ∪ nodesBelow t r) := by
  ext j
  constructor
  · rintro ⟨c, hc⟩
    cases c with
    | nil => exact .inl (Option.some.inj hc).symm
    | cons b bs =>
      simp only [descend, hn] at hc
      cases b with
      | false => exact .inr (.inl ⟨bs, hc⟩)
      | true => exact .inr (.inr ⟨bs, hc⟩)
  · rintro (rfl | ⟨c, hc⟩ | ⟨c, hc⟩)
    · exact ⟨[], rfl⟩
    · exact ⟨false :: c, by simpa [descend, hn] using hc⟩
    · exact ⟨true :: c, by simpa [descend, hn] using hc⟩

/-- The nodes below a node have no greater index. -/
theorem nodesBelow_le (h : TreeCase t) {i j : Nat} (hj : j ∈ nodesBelow t i) : j ≤ i := by
  obtain ⟨c, hc⟩ := hj
  rcases descend_index_le h c i j hc with hlt | ⟨_, rfl⟩ <;> omega

theorem nodesBelow_finite (h : TreeCase t) (i : Nat) : (nodesBelow t i).Finite :=
  (Set.finite_Iic i).subset fun _ hj => nodesBelow_le h hj

/-- The subtrees of an internal node have no node in common. -/
theorem nodesBelow_disjoint (h : TreeCase t) {i w l r : Nat} (hn : nodeAt t i = .internal w l r) :
    Disjoint (nodesBelow t l) (nodesBelow t r) :=
  Set.disjoint_left.mpr fun j ⟨c, hc⟩ ⟨d, hd⟩ => by
    have hsame := descend_unique h (false :: c) (true :: d) i j (by simpa [descend, hn] using hc)
      (by simpa [descend, hn] using hd)
    cases hsame

theorem ncard_nodesBelow_internal (h : TreeCase t) {i w l r : Nat} (hn : nodeAt t i = .internal w l r) :
    (nodesBelow t i).ncard = (nodesBelow t l).ncard + (nodesBelow t r).ncard + 1 := by
  obtain ⟨_, _, hl, hr, _⟩ := treeCase_internal h hn
  have hfl := nodesBelow_finite h l
  have hfr := nodesBelow_finite h r
  have hnot : i ∉ nodesBelow t l ∪ nodesBelow t r := by
    rintro (hi | hi) <;> have := nodesBelow_le h hi <;> omega
  rw [nodesBelow_internal hn, Set.ncard_insert_of_notMem hnot (hfl.union hfr),
    Set.ncard_union_eq (nodesBelow_disjoint h hn) hfl hfr]

/-- Every node of the store stands below ROOT. -/
theorem ncard_nodesBelow_root (h : TreeCase t) : (nodesBelow t t.root).ncard = t.nodeCount := by
  have hroot := h.root
  have hcount := h.nodeCount
  have hleaves := h.leaves
  have hall : nodesBelow t t.root = Set.Iio t.nodeCount := by
    ext j
    constructor
    · intro hj
      have := nodesBelow_le h hj
      rw [Set.mem_Iio]
      omega
    · intro hj
      rw [Set.mem_Iio] at hj
      exact treeCase_reaches h (t.nodeCount - 1 - j) j (by omega)
  rw [hall, Set.ncard_Iio_nat]

/-! ### The steps of D_VISIT (rule R152) -/

/-- The engine in D_VISIT with a code table and its hidden registers. -/
def visiting (s : State) (codes : Cells Bits) (h : Hidden) : State :=
  { s with codes := codes, hidden := h, engState := .dVisit }

/-- The hidden registers behind a right child `e` taken off STACK. -/
def Hidden.popped (h : Hidden) (e : StackEntry) (rest : List StackEntry) : Hidden :=
  { h with stack := rest, cur := e.node, path := setPathBit h.path (e.depth - 1) true, depth := e.depth }

/-- The hidden registers behind an internal node with these children. -/
def Hidden.pushed (h : Hidden) (l r : Nat) : Hidden :=
  { h with
    stack := ⟨r, h.depth + 1⟩ :: h.stack
    path := setPathBit h.path h.depth false
    cur := l
    depth := h.depth + 1 }

/-- Where the engine stands when the subtree it visits is done: at the end of DERIVE, or at the right child that waits
on STACK. -/
def subtreeDone (s : State) (codes : Cells Bits) (h : Hidden) : State :=
  match h.stack with
  | [] => finish (visiting s codes h)
  | e :: rest => visiting s codes (h.popped e rest)

theorem subtreeDone_nil {h : Hidden} (hs : h.stack = []) : subtreeDone s codes h = finish (visiting s codes h) := by
  rw [subtreeDone, hs]

theorem subtreeDone_cons {h : Hidden} {e : StackEntry} {rest : List StackEntry} (hs : h.stack = e :: rest) :
    subtreeDone s codes h = visiting s codes (h.popped e rest) := by
  rw [subtreeDone, hs]

/-- STACK and PATH have room for the subtree of CUR: the path through it, and a right child for each of its edges. -/
structure VisitFits (t : Tree) (h : Hidden) : Prop where
  pathRoom : h.depth + (h.cur + 1 - t.leafCount) ≤ 255
  stackLength : h.stack.length ≤ h.depth
  stackDepths : ∀ e ∈ h.stack, 1 ≤ e.depth ∧ e.depth ≤ h.depth

/-- There is room for the left subtree behind the right child pushed. -/
theorem VisitFits.pushed {h : Hidden} {l r : Nat} (hv : VisitFits t h) (hcur : t.leafCount ≤ h.cur) (hl : l < h.cur) :
    VisitFits t (h.pushed l r) where
  pathRoom := by
    have := hv.pathRoom
    simp only [Hidden.pushed]
    omega
  stackLength := Nat.succ_le_succ hv.stackLength
  stackDepths e he := by
    rcases List.mem_cons.mp he with rfl | he
    · exact ⟨Nat.succ_pos _, Nat.le_refl _⟩
    · have := hv.stackDepths e he
      simp only [Hidden.pushed]
      omega

/-- There is room for the right subtree when the left one has left STACK as it found it. -/
theorem VisitFits.popped {h h' : Hidden} {r : Nat} (hv : VisitFits t h) (hcur : t.leafCount ≤ h.cur) (hr : r < h.cur) :
    VisitFits t (h'.popped ⟨r, h.depth + 1⟩ h.stack) where
  pathRoom := by
    have := hv.pathRoom
    simp only [Hidden.popped]
    omega
  stackLength := Nat.le_succ_of_le hv.stackLength
  stackDepths e he := by
    have := hv.stackDepths e he
    simp only [Hidden.popped]
    omega

/-- D_VISIT of a leaf writes its symbol's code and is done with it. -/
theorem engineStep_visiting_leaf {h : Hidden} {sym : Byte} {w : Nat} (hn : nodeAt s.tree h.cur = .leaf sym w)
    (hv : VisitFits s.tree h) :
    engineStep (visiting s codes h) = .next (subtreeDone s (setCode codes sym.toNat (pathCode h.path h.depth)) h) := by
  have hroom := hv.pathRoom
  have hdepths := hv.stackDepths
  simp only [engineStep, visiting, stepDVisit, hn]
  cases hs : h.stack with
  | nil =>
    rw [subtreeDone_nil hs]
    rfl
  | cons e rest =>
    obtain ⟨hpos, hle⟩ := hdepths e (hs ▸ List.mem_cons_self)
    have hfine : ¬ (e.depth = 0 ∨ 255 < e.depth) := by omega
    rw [subtreeDone_cons hs]
    exact if_neg hfine

/-- D_VISIT of an internal node goes left and leaves the right child on STACK. -/
theorem engineStep_visiting_internal {h : Hidden} {w l r : Nat} (hn : nodeAt s.tree h.cur = .internal w l r)
    (hcur : s.tree.leafCount ≤ h.cur) (hv : VisitFits s.tree h) :
    engineStep (visiting s codes h) = .next (visiting s codes (h.pushed l r)) := by
  have hroom := hv.pathRoom
  have hlength := hv.stackLength
  have hfine : ¬ (254 < h.stack.length ∨ 254 < h.depth) := by omega
  simp only [engineStep, visiting, stepDVisit, hn]
  exact if_neg hfine

/-! ### The runs (rule R153) -/

/-- A path of one edge more holds the path before it. -/
theorem pathCode_of_snoc {path : BitVec 255} {d : Nat} {p : Bits} {b : Bool} (h : pathCode path (d + 1) = p ++ [b]) :
    pathCode path d = p := by
  have hsplit : pathCode path (d + 1) = pathCode path d ++ [path.getLsbD d] := by simp [pathCode, List.range_succ]
  exact (List.append_inj' (hsplit.symm.trans h) rfl).1

/-- The walk of an internal node is that of its left subtree, then that of its right one (rule R142). -/
theorem walk_of_internal {fuel i w l r : Nat} {p : Bits} (hn : nodeAt t i = .internal w l r)
    (hw : walk t (fuel + 1) i p codes = some codes') :
    ∃ codes₁, walk t fuel l (p ++ [false]) codes = some codes₁ ∧ walk t fuel r (p ++ [true]) codes₁ = some codes' := by
  simp only [walk, hn] at hw
  split at hw
  · cases hw
  · next codes₁ hwl => exact ⟨codes₁, hwl, hw⟩

/-- The run over the subtree of CUR: one step for each node, and the code table the walk of Level A makes (rule R142).
STACK and the path above the subtree are as before. -/
theorem busyRun_walk (htree : TreeCase s.tree) (hrun : s.script = [] ∧ s.busy = true) {fuel : Nat} {h : Hidden}
    (hv : VisitFits s.tree h) (hw : walk s.tree fuel h.cur (pathCode h.path h.depth) codes = some codes') :
    ∃ h', h'.stack = h.stack ∧ pathCode h'.path h.depth = pathCode h.path h.depth ∧
      BusyRun (nodesBelow s.tree h.cur).ncard (visiting s codes h) (subtreeDone s codes' h') := by
  induction fuel generalizing h codes codes' with
  | zero => cases hw
  | succ fuel ih =>
    cases hn : nodeAt s.tree h.cur with
    | free => simp [walk, hn] at hw
    | leaf sym w =>
      simp only [walk, hn, Option.some.injEq] at hw
      subst hw
      rw [nodesBelow_leaf hn, Set.ncard_singleton]
      exact ⟨h, rfl, rfl, .one hrun (engineStep_visiting_leaf hn hv)⟩
    | internal w l r =>
      obtain ⟨hcur, _, hl, hr, _⟩ := treeCase_internal htree hn
      have hdepth : h.depth < 255 := by
        have := hv.pathRoom
        omega
      obtain ⟨codes₁, hwl, hwr⟩ := walk_of_internal hn hw
      have hstep := engineStep_visiting_internal (codes := codes) hn hcur hv
      have hpathl := pathCode_setPathBit h.path false hdepth
      obtain ⟨h₁, hstack₁, hpath₁, hrunl⟩ := ih (hv.pushed hcur hl) (h := h.pushed l r) (hpathl ▸ hwl)
      have habove : pathCode h₁.path h.depth = pathCode h.path h.depth := pathCode_of_snoc (hpath₁.trans hpathl)
      have hpathr : pathCode (setPathBit h₁.path h.depth true) (h.depth + 1) = pathCode h.path h.depth ++ [true] := by
        rw [pathCode_setPathBit h₁.path true hdepth, habove]
      rw [subtreeDone_cons hstack₁] at hrunl
      obtain ⟨h₂, hstack₂, hpath₂, hrunr⟩ := ih (hv.popped hcur hr) (h := h₁.popped ⟨r, h.depth + 1⟩ h.stack)
        (hpathr ▸ hwr)
      refine ⟨h₂, hstack₂, pathCode_of_snoc (hpath₂.trans hpathr), ?_⟩
      rw [ncard_nodesBelow_internal htree hn]
      exact .cons hrun hstep (hrunl.trans hrunr)

/-! ### The command (rules R150 to R153) -/

theorem started_tree (i : Instr) (s : State) : (started i s).tree = s.tree := rfl

/-- The engine in D_ROOT with an empty code table. -/
def atRoot (s : State) : State := { s with codes := [], engState := .dRoot }

theorem engineStep_dClear (hs : s.engState = .dClear) : engineStep s = .next (atRoot s) := by
  simp only [engineStep, hs]
  rfl

/-- D_ROOT of a leaf ends DERIVE with the fallback code (rule R151). -/
theorem engineStep_atRoot_leaf {sym : Byte} {w : Nat} (hn : nodeAt s.tree s.tree.root = .leaf sym w) :
    engineStep (atRoot s) = .next (finish { atRoot s with codes := [(sym.toNat, fallbackCode)] }) := by
  simp only [engineStep, atRoot, stepDRoot, hn]
  rfl

/-- The hidden registers at the start of the traversal (rule R151). -/
def Hidden.atTop (h : Hidden) (root : Nat) : Hidden := { h with cur := root, depth := 0, stack := [], path := 0 }

/-- D_ROOT of an internal node starts the traversal there (rule R151). -/
theorem engineStep_atRoot_internal {w l r : Nat} (hn : nodeAt s.tree s.tree.root = .internal w l r) :
    engineStep (atRoot s) = .next (visiting s [] (s.hidden.atTop s.tree.root)) := by
  simp only [engineStep, atRoot, stepDRoot, hn]
  rfl

/-- DERIVE of one leaf takes two steps from its start. -/
theorem busyRun_derive_of_leaf (hrun : s.script = [] ∧ s.busy = true) (hs : s.engState = .dClear) {sym : Byte} {w : Nat}
    (hn : nodeAt s.tree s.tree.root = .leaf sym w) :
    BusyRun 2 s (finish { atRoot s with codes := [(sym.toNat, fallbackCode)] }) :=
  .cons hrun (engineStep_dClear hs) (.one (s := atRoot s) hrun (engineStep_atRoot_leaf hn))

/-- DERIVE of two or more leaves takes two steps and one for each node from its start, and makes the code table of Level
A. -/
theorem busyRun_derive_of_paths (htree : TreeCase s.tree) (h2 : 2 ≤ s.tree.leafCount)
    (hrun : s.script = [] ∧ s.busy = true) (hs : s.engState = .dClear) (hd : deriveTable s.tree = some codes) :
    ∃ h, BusyRun (s.tree.nodeCount + 2) s (finish (visiting s codes h)) := by
  obtain ⟨w, l, r, hn⟩ := treeCase_root_internal htree h2
  have hfits : VisitFits s.tree (s.hidden.atTop s.tree.root) :=
    { pathRoom := by
        have := htree.root
        have := htree.leaves
        simp only [Hidden.atTop]
        omega
      stackLength := Nat.le_refl _
      stackDepths := nofun }
  rw [deriveTable, hn] at hd
  obtain ⟨h, hstack, _, hvisit⟩ := busyRun_walk (fuel := nodeMax + 1) htree hrun hfits hd
  have hnodes : (nodesBelow s.tree (s.hidden.atTop s.tree.root).cur).ncard = s.tree.nodeCount :=
    ncard_nodesBelow_root htree
  rw [hnodes, subtreeDone_nil hstack] at hvisit
  exact ⟨h, .cons hrun (engineStep_dClear hs) (.cons (s := atRoot s) hrun (engineStep_atRoot_internal hn) hvisit)⟩

/-- Settles O57: the engine refuses as Level A does, or visits every node once, in the order of Level A's walk. -/
theorem levelBDeriveRefines : Obligations.LevelBDeriveRefines := by
  unfold Obligations.LevelBDeriveRefines
  intro s hr hinv
  obtain ⟨hbusy, hlevel⟩ := hr
  have hready : Ready .command (atLevel .command { s with script := [] }) := ⟨hbusy, rfl⟩
  cases hvalid : s.tree.rootValid with
  | false =>
    have hrefused := (step_withIssue (i := .derive) hbusy).trans
      (exec_derive_of_no_root (s := { s with script := [] }) hbusy hvalid)
    exact ⟨_, _, exec_derive_of_no_root hready.1 hvalid, takesSteps_one hrefused hbusy,
      sameButHidden_of_level hlevel rfl⟩
  | true =>
    have htree := hinv.treeCase hvalid
    have hissue := step_withIssue_started (i := .derive) ⟨hbusy, hlevel⟩ (by simp [issueError, hvalid])
    obtain ⟨codes, hd⟩ := deriveTable_isSome htree
    have hcommand := exec_derive_of_table hready hvalid hd
    have hcount := htree.nodeCount
    have hleaves := htree.leaves
    rw [if_pos rfl]
    split
    · next h1 =>
      obtain ⟨sym, w, hn⟩ := treeCase_root_leaf htree h1
      cases hd.symm.trans (deriveTable_of_leaf hn)
      have hend := takesSteps_of_busyRun hissue (busyRun_derive_of_leaf ⟨rfl, rfl⟩ rfl hn) rfl
      exact ⟨_, _, hcommand, hend, sameButHidden_of_level hlevel rfl⟩
    · next h1 =>
      have h2 : 2 ≤ s.tree.leafCount := by omega
      have hsteps : s.tree.nodeCount + 2 + 1 = 2 * s.tree.leafCount + 2 := by omega
      obtain ⟨h, hpaths⟩ := busyRun_derive_of_paths (s := started .derive s) htree h2 ⟨rfl, rfl⟩ rfl hd
      have hend := takesSteps_of_busyRun hissue hpaths rfl
      rw [started_tree, hsteps] at hend
      exact ⟨_, _, hcommand, hend, sameButHidden_of_level hlevel rfl⟩

end Sys2Proof.Machine
end

section
/-! MEASURE and ENCODE at Level A (rules R160 to R169): what each leaves, the two against each other, and what their
numbers and OUT say of the input. -/

namespace Sys2Proof.Machine

variable {s : State} {i : Instr} {k : Nat} {out : List Host.Cell} {codes : Cells Bits}

/-! ### The issue (rule R167) -/

/-- An input that does not fit IN is refused. -/
theorem issueError_of_tooLong (hi : i = .measure ∨ i = .encode) (h : s.params.inCap < s.inLen) :
    issueError i s = some .badLength := by
  rcases hi with rfl | rfl <;> exact if_pos h

/-- An input that fits IN is not. -/
theorem issueError_of_fits (hi : i = .measure ∨ i = .encode) (h : s.inLen ≤ s.params.inCap) :
    issueError i s = none := by
  rcases hi with rfl | rfl <;> exact if_neg (Nat.not_lt.mpr h)

/-- Settles O9: the test of IN_LEN is the one test at issue that MEASURE and ENCODE have. -/
theorem tooLongInputIsRefused : Obligations.TooLongInputIsRefused := by
  unfold Obligations.TooLongInputIsRefused
  intro s i hb hi h
  exact exec_of_error hb (issueError_of_tooLong hi h)

/-! ### The commands whole (rules R165, R166) -/

/-- MEASURE at Level A, with everything it leaves. -/
theorem exec_measure_of_fits (hr : Ready .command s) (hlen : s.inLen ≤ s.params.inCap) :
    exec .measure s =
      .next
        { ended .measure .none s with
          totalBits := bitsOfFirst s s.inLen
          inPos := s.inLen
          skipCount := missingInFirst s s.inLen } := by
  rw [exec_of_command hr (issueError_of_fits (.inl rfl) hlen), commandBody, measureBody_eq]
  rfl

/-- What ENCODE leaves when it stops behind `k` input bytes, with the codes of these bytes emitted. -/
def encoded (e : Err) (s : State) (out : List Host.Cell) (k : Nat) : State :=
  encodeAfter (ended .encode e s) out k

/-- ENCODE emits the whole input and ends without an error, or stops at the first code that does not fit OUT. -/
theorem exec_encode_of_fits (hr : Ready .command s) (hlen : s.inLen ≤ s.params.inCap) :
    (bitsOfFirst s s.inLen ≤ s.params.outCap ∧
      ∃ out, Emitted s out s.inLen ∧ exec .encode s = .next (encoded .none s out s.inLen)) ∨
    (∃ out k, k < s.inLen ∧ bitsOfFirst s k ≤ s.params.outCap ∧ s.params.outCap < bitsOfFirst s (k + 1) ∧
      Emitted s out k ∧ exec .encode s = .next (encoded .bufferExhausted s out k)) := by
  rw [exec_of_command hr (issueError_of_fits (.inr rfl) hlen), commandBody, encodeBody, encodeInit_eq]
  rcases encodeLoop_spec (acceptCommand .encode s) s.inLen 0 s.out (Nat.zero_le _) (emitted_zero _) with
    ⟨hfit, out, he, heq⟩ | ⟨k, out, _, hk, hfit, hfull, he, heq⟩
  · rw [Nat.zero_add] at hfit he heq
    exact .inl ⟨hfit, out, { he with }, congrArg _ heq⟩
  · rw [Nat.zero_add] at hk
    exact .inr ⟨out, k, hk, hfit, hfull, { he with }, congrArg _ heq⟩

/-- ENCODE of an input whose codes fit OUT. -/
theorem exec_encode_of_room (hr : Ready .command s) (hlen : s.inLen ≤ s.params.inCap)
    (hfit : bitsOfFirst s s.inLen ≤ s.params.outCap) :
    ∃ out, Emitted s out s.inLen ∧ exec .encode s = .next (encoded .none s out s.inLen) := by
  rcases exec_encode_of_fits hr hlen with ⟨_, h⟩ | ⟨_, k, hk, _, hfull, _⟩
  · exact h
  · have hle : bitsOfFirst s (k + 1) ≤ s.params.outCap := (bitsOfFirst_mono s hk).trans hfit
    omega

/-- ENCODE of an input whose codes do not fit OUT. -/
theorem exec_encode_of_full (hr : Ready .command s) (hlen : s.inLen ≤ s.params.inCap)
    (hfull : s.params.outCap < bitsOfFirst s s.inLen) :
    ∃ out k, k < s.inLen ∧ bitsOfFirst s k ≤ s.params.outCap ∧ s.params.outCap < bitsOfFirst s (k + 1) ∧
      Emitted s out k ∧ exec .encode s = .next (encoded .bufferExhausted s out k) :=
  (exec_encode_of_fits hr hlen).resolve_left fun h => absurd h.1 (Nat.not_le.mpr hfull)

/-- OUT below OUT_COUNT holds the codes as characters (rules R87, R169). -/
theorem outAt_encoded_of_text (he : Emitted s out k) (e : Err) {j : Nat} {b : Bool}
    (h : (textOfFirst s k)[j]? = some b) : outAt (encoded e s out k) j = outSymbol b := by
  have hget : cellGet (encoded e s out k).out j = some (outSymbol b) := he.text j b h
  rw [outAt, hget, Option.getD_some]

/-- OUT from OUT_COUNT on is left alone (rule R215). -/
theorem outAt_encoded_of_rest (he : Emitted s out k) (e : Err) {j : Nat} (h : bitsOfFirst s k ≤ j) :
    outAt (encoded e s out k) j = outAt s j := by
  have hget : cellGet (encoded e s out k).out j = cellGet s.out j := he.rest j h
  rw [outAt, hget]
  rfl

/-- Settles O38, from MEASURE whole. -/
theorem measureAddsUpTheLengths : Obligations.MeasureAddsUpTheLengths := by
  unfold Obligations.MeasureAddsUpTheLengths
  intro s hr hlen
  exact exec_measure_of_fits hr hlen

/-- Settles O39: ENCODE emits the whole input. -/
theorem encodeWritesTheCodes : Obligations.EncodeWritesTheCodes := by
  unfold Obligations.EncodeWritesTheCodes
  intro s hr hlen hfit
  obtain ⟨out, he, hexec⟩ := exec_encode_of_room hr hlen hfit
  exact ⟨_, hexec, rfl, fun _ _ => outAt_encoded_of_text he _, fun _ => outAt_encoded_of_rest he _⟩

/-- Settles O40: ENCODE emits the input up to the first code that does not fit. -/
theorem encodeStopsWhenFull : Obligations.EncodeStopsWhenFull := by
  unfold Obligations.EncodeStopsWhenFull
  intro s hr hlen hfull
  obtain ⟨out, k, hk, hfit, hnext, he, hexec⟩ := exec_encode_of_full hr hlen hfull
  exact ⟨_, k, hexec, hk, hfit, hnext, rfl, fun _ _ => outAt_encoded_of_text he _,
    fun _ => outAt_encoded_of_rest he _⟩

/-- Settles O41: both commands go by the sum of all code lengths. -/
theorem measureForetellsEncode : Obligations.MeasureForetellsEncode := by
  unfold Obligations.MeasureForetellsEncode
  intro s hr hlen
  rcases Nat.lt_or_ge s.params.outCap (bitsOfFirst s s.inLen) with hfull | hfit
  · obtain ⟨out, k, _, _, _, _, hexec⟩ := exec_encode_of_full hr hlen hfull
    exact ⟨_, _, exec_measure_of_fits hr hlen, hexec, iff_of_true rfl hfull, fun hne => absurd rfl hne⟩
  · obtain ⟨out, _, hexec⟩ := exec_encode_of_room hr hlen hfit
    exact ⟨_, _, exec_measure_of_fits hr hlen, hexec, iff_of_false nofun (Nat.not_lt.mpr hfit),
      fun _ => ⟨rfl, rfl, rfl⟩⟩

/-! ### The input as a sequence of byte values -/

/-- The values of the first `k` input bytes. -/
def valuesOfFirst (s : State) (k : Nat) : List Nat := (List.range k).map fun j => (inputAt s j).toNat

theorem textOfFirst_eq_flatMap (s : State) (k : Nat) :
    textOfFirst s k = (valuesOfFirst s k).flatMap (storeCode s.codes) := by
  rw [valuesOfFirst, List.flatMap_map]
  rfl

theorem bitsOfFirst_eq_sum (s : State) (k : Nat) :
    bitsOfFirst s k = ((valuesOfFirst s k).map fun b => (codeAt s b).length).sum := by
  rw [valuesOfFirst, List.map_map]
  rfl

theorem missingInFirst_eq_zero_iff (s : State) (k : Nat) :
    missingInFirst s k = 0 ↔ ∀ b ∈ valuesOfFirst s k, codeAt s b ≠ [] := by
  simp [missingInFirst, valuesOfFirst, codeOfInput, List.countP_eq_zero]

theorem freqIsHistogram_iff (s : State) :
    FreqIsHistogram s ↔ ∀ b, b < 256 → freqAt s b = (valuesOfFirst s s.inLen).count b := by
  simp only [FreqIsHistogram, valuesOfFirst, List.count, List.countP_map]
  rfl

theorem lt_of_mem_valuesOfFirst {b : Nat} (h : b ∈ valuesOfFirst s k) : b < 256 := by
  obtain ⟨j, _, rfl⟩ := List.mem_map.mp h
  exact (inputAt s j).isLt

/-! ### The weighted sum (rule R168) -/

/-- A sum over a sequence, taken value by value. -/
theorem sum_map_eq_sum_count_mul {xs : List Nat} {n : Nat} (f : Nat → Nat) (hlt : ∀ x ∈ xs, x < n) :
    (xs.map f).sum = ((List.range n).map fun b => xs.count b * f b).sum := by
  have hsub : xs.toFinset ⊆ Finset.range n := fun x hx => Finset.mem_range.mpr (hlt x (List.mem_toFinset.mp hx))
  calc (xs.map f).sum
      = ∑ b ∈ xs.toFinset, xs.count b * f b := Finset.sum_list_map_count xs f
    _ = ∑ b ∈ Finset.range n, xs.count b * f b := Finset.sum_subset hsub fun b _ hb => by
        rw [List.count_eq_zero.mpr fun hmem => hb (List.mem_toFinset.mpr hmem), Nat.zero_mul]

/-- Every input byte is counted. -/
theorem FreqIsHistogram.freqAt_ne_zero (hhist : FreqIsHistogram s) {b : Nat} (hb : b ∈ valuesOfFirst s s.inLen) :
    freqAt s b ≠ 0 := by
  rw [(freqIsHistogram_iff s).mp hhist b (lt_of_mem_valuesOfFirst hb)]
  exact (List.count_pos_iff.mpr hb).ne'

theorem FreqIsHistogram.freqSymbols_ne_zero (hhist : FreqIsHistogram s) (hpos : 1 ≤ s.inLen) : freqSymbols s ≠ 0 := by
  have hfirst : (inputAt s 0).toNat ∈ valuesOfFirst s s.inLen :=
    List.mem_map.mpr ⟨0, List.mem_range.mpr hpos, rfl⟩
  exact (freqSymbols_ne_zero_iff s).mpr ⟨_, lt_of_mem_valuesOfFirst hfirst, hhist.freqAt_ne_zero hfirst⟩

/-- The length of the encoding, taken byte value by byte value. -/
theorem FreqIsHistogram.weightedSum (hhist : FreqIsHistogram s) :
    ((List.range 256).map fun b => freqAt s b * (codeAt s b).length).sum = bitsOfFirst s s.inLen := by
  rw [bitsOfFirst_eq_sum, sum_map_eq_sum_count_mul _ fun _ => lt_of_mem_valuesOfFirst]
  refine congrArg List.sum (List.map_congr_left fun b hb => ?_)
  rw [(freqIsHistogram_iff s).mp hhist b (List.mem_range.mp hb)]

/-- No input byte is skipped where the byte values counted have codes. -/
theorem FreqIsHistogram.missingInFirst_eq_zero (hhist : FreqIsHistogram s)
    (hcoded : ∀ b, b < 256 → (codeAt s b = [] ↔ freqAt s b = 0)) (hk : k ≤ s.inLen) : missingInFirst s k = 0 := by
  refine (missingInFirst_eq_zero_iff s k).mpr fun b hb hnil => ?_
  have hmem : b ∈ valuesOfFirst s s.inLen := List.map_subset _ (List.range_subset.mpr hk) hb
  exact hhist.freqAt_ne_zero hmem ((hcoded b (lt_of_mem_valuesOfFirst hb)).mp hnil)

/-- BUILD and DERIVE of the histogram of an input complete, leave the histogram and the input alone, and give a code to
the byte values counted and to no other. -/
theorem exec_build_derive (hr : Ready .command s) (hhist : FreqIsHistogram s) (hpos : 1 ≤ s.inLen) :
    ∃ t u, exec .build s = .next t ∧ exec .derive t = .next u ∧ Ready .command u ∧ FreqIsHistogram u ∧
      u.inLen = s.inLen ∧ u.params = s.params ∧ ∀ b, b < 256 → (codeAt u b = [] ↔ freqAt u b = 0) := by
  have hn := hhist.freqSymbols_ne_zero hpos
  obtain ⟨t, u, ht, hu, hcoded⟩ := codedExactlyWhenCounted s hr hn
  have hrt := exec_ready hr ht
  refine ⟨t, u, ht, hu, exec_ready hrt hu, ?_⟩
  cases (exec_build_of_symbols hr hn).symm.trans ht
  obtain ⟨_, rfl⟩ | ⟨_, _, _, rfl⟩ := exec_derive_cases hrt hu <;> exact ⟨hhist, rfl, rfl, hcoded⟩

/-- Settles O42: every input byte is counted and so has a code, and the sum over the input is taken value by value. -/
theorem compressedLengthIsTheWeightedSum : Obligations.CompressedLengthIsTheWeightedSum := by
  unfold Obligations.CompressedLengthIsTheWeightedSum
  intro s hr hhist hpos hlen
  obtain ⟨t, u, ht, hu, hru, hhistu, hinLen, hparams, hcoded⟩ := exec_build_derive hr hhist hpos
  have hlenu : u.inLen ≤ u.params.inCap := hparams ▸ hinLen ▸ hlen
  have hsum := hhistu.weightedSum
  rcases Nat.lt_or_ge u.params.outCap (bitsOfFirst u u.inLen) with hfull | hfit
  · obtain ⟨out, k, hk, _, _, _, hexec⟩ := exec_encode_of_full hru hlenu hfull
    rw [← hsum] at hfull
    exact ⟨t, u, _, ht, hu, hexec, (if_pos hfull).symm, hhistu.missingInFirst_eq_zero hcoded hk.le,
      fun hle => absurd hle (Nat.not_le.mpr hfull)⟩
  · obtain ⟨out, _, hexec⟩ := exec_encode_of_room hru hlenu hfit
    rw [← hsum] at hfit
    exact ⟨t, u, _, ht, hu, hexec, (if_neg (Nat.not_lt.mpr hfit)).symm,
      hhistu.missingInFirst_eq_zero hcoded (Nat.le_refl _), fun _ => ⟨hsum.symm, hinLen⟩⟩

/-! ### The way back (rule R169) -/

theorem outSymbol_inj {a b : Bool} : outSymbol a = outSymbol b ↔ a = b := by
  cases a <;> cases b <;> decide

/-- Where no code begins another, two texts that are the same begin with the code of the same value. -/
theorem PrefixCode.head_eq (hp : PrefixCode codes) {x y : Nat} {p q : Bits} (hx : storeCode codes x ≠ [])
    (hy : storeCode codes y ≠ []) (h : storeCode codes x ++ p = storeCode codes y ++ q) : x = y := by
  by_contra hne
  rcases List.prefix_or_prefix_of_prefix (List.prefix_append _ p) (h ▸ List.prefix_append _ q) with hxy | hyx
  · exact hp x y hne hx hy hxy
  · exact hp y x (Ne.symm hne) hy hx hyx

/-- Where no code begins another, the text of coded values can be cut back in one way only. -/
theorem PrefixCode.flatMap_inj (hp : PrefixCode codes) {xs ys : List Nat} (hx : ∀ x ∈ xs, storeCode codes x ≠ [])
    (hy : ∀ y ∈ ys, storeCode codes y ≠ []) (h : xs.flatMap (storeCode codes) = ys.flatMap (storeCode codes)) :
    xs = ys := by
  induction xs generalizing ys with
  | nil =>
    cases ys with
    | nil => rfl
    | cons y ys => exact absurd (List.append_eq_nil_iff.mp h.symm).1 (hy y List.mem_cons_self)
  | cons x xs ih =>
    cases ys with
    | nil => exact absurd (List.append_eq_nil_iff.mp h).1 (hx x List.mem_cons_self)
    | cons y ys =>
      obtain ⟨hx0, hxs⟩ := List.forall_mem_cons.mp hx
      obtain ⟨hy0, hys⟩ := List.forall_mem_cons.mp hy
      simp only [List.flatMap_cons] at h
      obtain rfl := hp.head_eq hx0 hy0 h
      rw [ih hxs hys (List.append_cancel_left h)]

/-- Equal outputs are equal texts. -/
theorem textOfFirst_eq_of_out {s₁ s₂ : State} {out₁ out₂ : List Host.Cell} {k₁ k₂ : Nat} (e : Err)
    (h₁ : Emitted s₁ out₁ k₁) (h₂ : Emitted s₂ out₂ k₂) (hcount : bitsOfFirst s₁ k₁ = bitsOfFirst s₂ k₂)
    (hout : ∀ j, j < bitsOfFirst s₁ k₁ → outAt (encoded e s₁ out₁ k₁) j = outAt (encoded e s₂ out₂ k₂) j) :
    textOfFirst s₁ k₁ = textOfFirst s₂ k₂ := by
  refine List.ext_getElem (by rw [textOfFirst_length, textOfFirst_length, hcount]) fun j hj₁ hj₂ => ?_
  have hsame := hout j (textOfFirst_length s₁ k₁ ▸ hj₁)
  rw [outAt_encoded_of_text h₁ e (List.getElem?_eq_getElem hj₁),
    outAt_encoded_of_text h₂ e (List.getElem?_eq_getElem hj₂)] at hsame
  exact outSymbol_inj.mp hsame

/-- Equal sequences of values come from equal inputs. -/
theorem input_eq_of_valuesOfFirst_eq {s₁ s₂ : State} {k₁ k₂ : Nat} (h : valuesOfFirst s₁ k₁ = valuesOfFirst s₂ k₂) :
    k₁ = k₂ ∧ ∀ j, j < k₁ → inputAt s₁ j = inputAt s₂ j := by
  have hlen : k₁ = k₂ := by simpa [valuesOfFirst] using congrArg List.length h
  subst hlen
  exact ⟨rfl, fun j hj => BitVec.eq_of_toNat_eq (List.map_inj_left.mp h j (List.mem_range.mpr hj))⟩

/-- Settles O44: equal outputs are equal texts, which can be cut back into byte values in one way only. -/
theorem outputGivesTheInputBack : Obligations.OutputGivesTheInputBack := by
  unfold Obligations.OutputGivesTheInputBack
  intro s₁ s₂ hr₁ hr₂ hlen₁ hlen₂ hfit₁ hfit₂ hskip₁ hskip₂ hprefix hcodes
  obtain ⟨out₁, he₁, hexec₁⟩ := exec_encode_of_room hr₁ hlen₁ hfit₁
  obtain ⟨out₂, he₂, hexec₂⟩ := exec_encode_of_room hr₂ hlen₂ hfit₂
  refine ⟨_, _, hexec₁, hexec₂, fun hcount hout => input_eq_of_valuesOfFirst_eq ?_⟩
  have htext := textOfFirst_eq_of_out .none he₁ he₂ hcount hout
  rw [missingInFirst_eq_zero_iff] at hskip₁ hskip₂
  simp only [textOfFirst_eq_flatMap, codeAt, ← hcodes] at htext hskip₁ hskip₂
  exact hprefix.flatMap_inj hskip₁ hskip₂ htext

end Sys2Proof.Machine
end

section
/-! MEASURE and ENCODE at Level B (rules R171 to R175): each state of the engine as a step, and the run from the issue
to the end beside the loop of Level A. -/

namespace Sys2Proof.Machine

variable {s : State} {h : Hidden}

/-- The engine in state `e` with hidden registers `h`, where the loop of Level A stands at `s`. -/
def engineAt (e : EngState) (h : Hidden) (s : State) : State := { atLevel .step s with hidden := h, engState := e }

/-! ### The steps (rules R171 to R173) -/

/-- X_INIT of MEASURE. -/
theorem engineStep_xInit_measure (hop : h.op = opcodeOf .measure) :
    engineStep (engineAt .xInit h s) = .next (engineAt .xFetch h (measureInit s)) := by
  have hne : h.op ≠ opcodeOf .encode := hop ▸ by decide
  exact if_neg hne

/-- X_INIT of ENCODE. -/
theorem engineStep_xInit_encode (hop : h.op = opcodeOf .encode) :
    engineStep (engineAt .xInit h s) = .next (engineAt .xFetch h (encodeInit s)) :=
  if_pos hop

/-- X_FETCH behind the last input byte. -/
theorem engineStep_xFetch_end (hend : s.inPos = s.inLen) :
    engineStep (engineAt .xFetch h s) = .next (engineAt .idle h (finish s)) :=
  if_pos hend

section
variable (hmore : s.inPos < s.inLen) (hcap : s.inLen ≤ s.params.inCap)
include hmore hcap

/-- X_FETCH of a byte without a code. -/
theorem engineStep_xFetch_skip (hlen : (codeOfInput s s.inPos).length = 0) :
    engineStep (engineAt .xFetch h s) = .next (engineAt .xFetch h (skipByte s)) := by
  have hexists : ¬ s.params.inCap ≤ s.inPos := by omega
  exact (if_neg hmore.ne).trans ((if_neg hexists).trans (if_pos hlen))

/-- X_FETCH of a byte with a code, in MEASURE. -/
theorem engineStep_xFetch_count (hlen : (codeOfInput s s.inPos).length ≠ 0) (hop : h.op = opcodeOf .measure) :
    engineStep (engineAt .xFetch h s) = .next (engineAt .xFetch h (countCode (codeOfInput s s.inPos).length s)) := by
  have hexists : ¬ s.params.inCap ≤ s.inPos := by omega
  exact (if_neg hmore.ne).trans ((if_neg hexists).trans ((if_neg hlen).trans (if_pos hop)))

/-- X_FETCH of a byte with a code, in ENCODE: BufferExhausted, or on to its first bit. -/
theorem engineStep_xFetch_encode (hlen : (codeOfInput s s.inPos).length ≠ 0) (hop : h.op = opcodeOf .encode) :
    engineStep (engineAt .xFetch h s) =
      if s.params.outCap < s.outCount + (codeOfInput s s.inPos).length then
        .next (engineAt .idle h (raiseError .bufferExhausted s))
      else .next (engineAt .xEmit { h with csym := inputAt s s.inPos, bitpos := 0 } s) := by
  have hexists : ¬ s.params.inCap ≤ s.inPos := by omega
  have hne : h.op ≠ opcodeOf .measure := hop ▸ by decide
  exact (if_neg hmore.ne).trans ((if_neg hexists).trans ((if_neg hlen).trans (if_neg hne)))

end

/-- One symbol more in OUT, in the middle of a code. -/
def emitBit (b : Bool) (s : State) : State :=
  { s with out := cellSet s.out s.outCount (outSymbol b), outCount := s.outCount + 1 }

/-- The bits of the code under emission that are still to come. -/
def bitsLeft (s : State) (h : Hidden) : Bits := (codeAt s h.csym.toNat).drop h.bitpos

/-- The hidden registers one bit further on. -/
def Hidden.nextBit (h : Hidden) : Hidden := { h with bitpos := h.bitpos + 1 }

theorem bitsLeft_nextBit {b : Bool} {bs : Bits} (hleft : bitsLeft s h = b :: bs) :
    bitsLeft (emitBit b s) h.nextBit = bs := by
  have htail : bitsLeft (emitBit b s) h.nextBit = (bitsLeft s h).tail := List.tail_drop.symm
  rw [htail, hleft, List.tail_cons]

theorem appendCode_cons (b : Bool) (bs : Bits) (s : State) : appendCode (b :: bs) s = appendCode bs (emitBit b s) := by
  have hcount : s.outCount + (bs.length + 1) = s.outCount + 1 + bs.length := by omega
  simp only [appendCode, List.length_cons, hcount]
  rfl

/-- X_EMIT writes one bit, and is done with the code behind its last one. -/
theorem engineStep_xEmit {b : Bool} {bs : Bits} (hleft : bitsLeft s h = b :: bs)
    (hroom : s.outCount < s.params.outCap) :
    engineStep (engineAt .xEmit h s) =
      .next
        (if bs = [] then engineAt .xFetch h.nextBit (appendCode [b] s)
        else engineAt .xEmit h.nextBit (emitBit b s)) := by
  have hget : (codeAt s h.csym.toNat)[h.bitpos]? = some b := by
    rw [← List.head?_drop, ← bitsLeft, hleft, List.head?_cons]
  have hlast : h.bitpos + 1 = (codeAt s h.csym.toNat).length ↔ bs = [] := by
    have hlen := congrArg List.length hleft
    rw [bitsLeft, List.length_drop, List.length_cons] at hlen
    rw [← List.length_eq_zero_iff]
    omega
  have hfits : ¬ s.params.outCap ≤ s.outCount := Nat.not_le.mpr hroom
  rw [codeAt] at hget hlast
  simp only [engineStep, stepXEmit, engineAt, atLevel, codeAt, hget, if_neg hfits, hlast]
  split <;> rfl

/-! ### The runs (rule R175) -/

/-- The emission of the bits left of a code takes one step for each. -/
theorem busyRun_emit {b : Bool} {bs : Bits} (hrun : s.script = [] ∧ s.busy = true) (hleft : bitsLeft s h = b :: bs)
    (hroom : s.outCount + bs.length < s.params.outCap) :
    ∃ h', h'.op = h.op ∧
      BusyRun (bs.length + 1) (engineAt .xEmit h s) (engineAt .xFetch h' (appendCode (b :: bs) s)) := by
  induction bs generalizing s h b with
  | nil => exact ⟨h.nextBit, rfl, .one hrun (engineStep_xEmit hleft hroom)⟩
  | cons c bs ih =>
    rw [List.length_cons] at hroom
    have hstep := engineStep_xEmit hleft (by omega)
    have hroom' : s.outCount + 1 + bs.length < s.params.outCap := by omega
    obtain ⟨h', hop, hrest⟩ := ih (s := emitBit b s) hrun (bitsLeft_nextBit hleft) hroom'
    rw [appendCode_cons]
    exact ⟨h', hop, .cons hrun hstep hrest⟩

/-- The loop of MEASURE takes one step for each input byte, and a last one that finds the end. -/
theorem busyRun_measureLoop (hrun : s.script = [] ∧ s.busy = true) (hop : h.op = opcodeOf .measure)
    (hcap : s.inLen ≤ s.params.inCap) {n : Nat} (hn : s.inPos + n = s.inLen) :
    BusyRun (n + 1) (engineAt .xFetch h s) (engineAt .idle h (finish (measureLoop n s))) := by
  induction n generalizing s with
  | zero => exact .one hrun (engineStep_xFetch_end hn)
  | succ n ih =>
    have hmore : s.inPos < s.inLen := by omega
    have hn' : s.inPos + 1 + n = s.inLen := by omega
    by_cases hlen : (codeOfInput s s.inPos).length = 0
    · have hloop : measureLoop (n + 1) s = measureLoop n (skipByte s) := if_pos hlen
      rw [hloop]
      exact .cons hrun (engineStep_xFetch_skip hmore hcap hlen) (ih hrun hcap hn')
    · have hloop : measureLoop (n + 1) s = measureLoop n (countCode (codeOfInput s s.inPos).length s) := if_neg hlen
      rw [hloop]
      exact .cons hrun (engineStep_xFetch_count hmore hcap hlen hop) (ih hrun hcap hn')

/-- The loop of ENCODE takes one step for each input byte done and for each symbol written, and a last one that finds
the end or the full OUT. -/
theorem busyRun_encodeLoop (hrun : s.script = [] ∧ s.busy = true) (hop : h.op = opcodeOf .encode)
    (hcap : s.inLen ≤ s.params.inCap) {n : Nat} (hn : s.inPos + n = s.inLen) :
    ∃ h' steps, steps + s.inPos + s.outCount = (encodeLoop n s).inPos + (encodeLoop n s).outCount + 1 ∧
      BusyRun steps (engineAt .xFetch h s) (engineAt .idle h' (encodeLoop n s)) := by
  induction n generalizing s h with
  | zero =>
    rw [encodeLoop, finish_inPos, finish_outCount]
    exact ⟨h, 1, by omega, .one hrun (engineStep_xFetch_end hn)⟩
  | succ n ih =>
    have hmore : s.inPos < s.inLen := by omega
    have hn' : s.inPos + 1 + n = s.inLen := by omega
    by_cases hlen : (codeOfInput s s.inPos).length = 0
    · have hloop : encodeLoop (n + 1) s = encodeLoop n (skipByte s) := if_pos hlen
      obtain ⟨h', steps, hsteps, hrest⟩ := ih (s := skipByte s) hrun hop hcap hn'
      rw [hloop]
      rw [skipByte_inPos, skipByte_outCount] at hsteps
      exact ⟨h', steps + 1, by omega, .cons hrun (engineStep_xFetch_skip hmore hcap hlen) hrest⟩
    · have hfetch := engineStep_xFetch_encode hmore hcap hlen hop
      by_cases hfull : s.params.outCap < s.outCount + (codeOfInput s s.inPos).length
      · have hloop : encodeLoop (n + 1) s = raiseError .bufferExhausted s := (if_neg hlen).trans (if_pos hfull)
        rw [if_pos hfull] at hfetch
        rw [hloop]
        exact ⟨h, 1, by rw [raiseError_inPos, raiseError_outCount]; omega, .one hrun hfetch⟩
      · have hloop : encodeLoop (n + 1) s = encodeLoop n (appendCode (codeOfInput s s.inPos) s) :=
          (if_neg hlen).trans (if_neg hfull)
        rw [if_neg hfull] at hfetch
        rw [hloop]
        obtain ⟨b, bs, hcode⟩ := List.exists_cons_of_length_pos (Nat.pos_of_ne_zero hlen)
        rw [hcode, List.length_cons] at hfull
        rw [hcode]
        obtain ⟨h', hop', hemit⟩ := busyRun_emit hrun (h := { h with csym := inputAt s s.inPos, bitpos := 0 }) hcode
          (by omega)
        obtain ⟨h'', steps, hsteps, hrest⟩ := ih (s := appendCode (b :: bs) s) hrun (hop'.trans hop) hcap hn'
        rw [appendCode_inPos, appendCode_outCount, List.length_cons] at hsteps
        exact ⟨h'', _, by omega, .cons hrun hfetch (hemit.trans hrest)⟩

/-! ### The commands (rules R174, R175) -/

/-- The Level A state in which a command has been accepted, the host having nothing left to do. -/
def accepted (i : Instr) (s : State) : State := acceptCommand i (atLevel .command { s with script := [] })

theorem started_eq_engineAt {i : Instr} (hlevel : s.params.level = .step) :
    started i s = engineAt (startState i) { s.hidden with op := opcodeOf i } (accepted i s) := by
  calc started i s
      = started i (atLevel .step s) := by rw [atLevel_of_level hlevel]
    _ = engineAt (startState i) { s.hidden with op := opcodeOf i } (accepted i s) := rfl

theorem sameButHidden_engineAt (hidle : s.engState = .idle) : SameButHidden (engineAt .idle h s) s := by
  rw [SameButHidden, ← hidle]
  rfl

/-- The tests of rule R102 read neither the level nor the script. -/
theorem issueError_atLevel (i : Instr) (lv : Level) (s : State) (script : List HostOp) :
    issueError i (atLevel lv { s with script := script }) = issueError i s := by
  cases i <;> rfl

/-- A command refused at its issue takes one step at both levels. -/
theorem refused_refines {i : Instr} {e : Err} (hr : Ready .step s) (he : issueError i s = some e) :
    ∃ t u, exec i (atLevel .command { s with script := [] }) = .next u ∧ TakesSteps 1 (withIssue i s) t ∧
      SameButHidden t u := by
  obtain ⟨hbusy, hlevel⟩ := hr
  have herror : issueError i { s with script := [] } = some e := (issueError_withScript i s []).trans he
  have hissue := (step_withIssue hbusy).trans (exec_of_error (s := { s with script := [] }) hbusy herror)
  have hcommand := (issueError_atLevel i .command s []).trans he
  exact ⟨_, _, exec_of_error hbusy hcommand, takesSteps_one hissue hbusy, sameButHidden_of_level hlevel rfl⟩

/-- An accepted command whose body at Level A ends in `u`, and whose engine comes to rest there, refines Level A. -/
theorem accepted_refines {i : Instr} {u : State} {n : Nat} (hr : Ready .step s) (he : issueError i s = none)
    (hbody : commandBody i (accepted i s) = .next u) (hidle : EngineAtRest u)
    (hengine : BusyRun n (started i s) (engineAt .idle h u)) :
    exec i (atLevel .command { s with script := [] }) = .next u ∧
      TakesSteps (n + 1) (withIssue i s) (engineAt .idle h u) ∧ SameButHidden (engineAt .idle h u) u := by
  have hcommand := (issueError_atLevel i .command s []).trans he
  have hready : Ready .command (atLevel .command { s with script := [] }) := ⟨hr.1, rfl⟩
  exact ⟨(exec_of_command hready hcommand).trans hbody,
    takesSteps_of_busyRun (step_withIssue_started hr he) hengine hidle.1, sameButHidden_engineAt hidle.2⟩

/-- Settles O58: the engine refuses as Level A does, or goes through the input as the loop of Level A does. -/
theorem levelBMeasureRefines : Obligations.LevelBMeasureRefines := by
  unfold Obligations.LevelBMeasureRefines
  intro s hr
  split
  · next hlong => exact refused_refines hr (issueError_of_tooLong (.inl rfl) hlong)
  · next hlen =>
    have hok := issueError_of_fits (i := .measure) (.inl rfl) (Nat.not_lt.mp hlen)
    have hloop := busyRun_measureLoop (s := measureInit (accepted .measure s))
      (h := { s.hidden with op := opcodeOf .measure }) ⟨rfl, rfl⟩ rfl (Nat.not_lt.mp hlen) (Nat.zero_add _)
    have hrun := BusyRun.cons ⟨rfl, rfl⟩ (engineStep_xInit_measure rfl) hloop
    exact ⟨_, _, accepted_refines hr hok rfl (finish_atRest _) (started_eq_engineAt hr.2 ▸ hrun)⟩

/-- Settles O59: the engine refuses as Level A does, or goes through the input as the loop of Level A does, with one
step more for each symbol. -/
theorem levelBEncodeRefines : Obligations.LevelBEncodeRefines := by
  unfold Obligations.LevelBEncodeRefines
  intro s hr
  split
  · next hlong => exact refused_refines hr (issueError_of_tooLong (.inr rfl) hlong)
  · next hlen =>
    have hok := issueError_of_fits (i := .encode) (.inr rfl) (Nat.not_lt.mp hlen)
    obtain ⟨h, steps, hsteps, hloop⟩ := busyRun_encodeLoop (s := encodeInit (accepted .encode s))
      (h := { s.hidden with op := opcodeOf .encode }) ⟨rfl, rfl⟩ rfl (Nat.not_lt.mp hlen) (Nat.zero_add _)
    have hrun := BusyRun.cons ⟨rfl, rfl⟩ (engineStep_xInit_encode rfl) hloop
    obtain rfl : steps = _ := hsteps
    exact ⟨_, _, accepted_refines hr hok rfl (encodeLoop_control _ _).2 (started_eq_engineAt hr.2 ▸ hrun)⟩

end Sys2Proof.Machine
end

section
/-! How a command ends (rules R102, R185, R190 to R192, R198): with BUSY 0, DONE 1, the engine idle, and the ERR of its
first exception or 0. -/

namespace Sys2Proof.Machine

variable {i : Instr} {s t : State} {e : Err}

/-- Settles O10: `raise` and `finish` are these writes. -/
theorem raiseAndFinishEndACommand : Obligations.RaiseAndFinishEndACommand := by
  unfold Obligations.RaiseAndFinishEndACommand
  exact fun _ _ => ⟨rfl, rfl⟩

/-- The command has ended and has left `e` in ERR. -/
def EndedWith (e : Err) (t : State) : Prop :=
  t.busy = false ∧ t.done = true ∧ t.engState = .idle ∧ t.err = e

/-- What an accepted command leaves in the registers all commands write is an end. -/
theorem ended_endedWith (i : Instr) (e : Err) (s : State) : EndedWith e (ended i e s) := ⟨rfl, rfl, rfl, rfl⟩

/-- A refused command was never started: it ends with the error found at issue (rule R102). -/
theorem exec_refused_endedWith (hb : s.busy = false) (hidle : s.engState = .idle) (he : issueError i s = some e)
    (h : exec i s = .next t) : EndedWith e t := by
  cases (exec_of_error hb he).symm.trans h
  exact ⟨hb, rfl, hidle, rfl⟩

theorem exec_clear_endedWith (hr : Ready .command s) (h : exec .clear s = .next t) : EndedWith .none t := by
  cases (exec_clear_of_ready hr).symm.trans h
  exact ended_endedWith .clear .none s

/-- BUILD raises EmptyAlphabet exactly when no count is there to seed (rule R118). -/
theorem exec_build_endedWith (hr : Ready .command s) (h : exec .build s = .next t) :
    EndedWith (if freqSymbols s = 0 then .emptyAlphabet else .none) t := by
  split
  · next hn =>
    cases (exec_build_of_no_symbols hr hn).symm.trans h
    exact ended_endedWith .build .emptyAlphabet s
  · next hn =>
    cases (exec_build_of_symbols hr hn).symm.trans h
    exact ended_endedWith .build .none s

/-- DERIVE has no error but NoTree at issue (rule R145). -/
theorem exec_derive_endedWith (hr : Ready .command s) (hidle : s.engState = .idle) (h : exec .derive s = .next t) :
    EndedWith (if s.tree.rootValid then .none else .noTree) t := by
  rcases exec_derive_cases hr h with ⟨hvalid, rfl⟩ | ⟨hvalid, codes, _, rfl⟩ <;> rw [hvalid]
  · exact ⟨hr.1, rfl, hidle, rfl⟩
  · exact ended_endedWith .derive .none s

/-- MEASURE has no error but BadLength at issue (rule R167): it needs no room in OUT. -/
theorem exec_measure_endedWith (hr : Ready .command s) (hidle : s.engState = .idle) (h : exec .measure s = .next t) :
    EndedWith (if s.params.inCap < s.inLen then .badLength else .none) t := by
  split
  · next hlong => exact exec_refused_endedWith hr.1 hidle (issueError_of_tooLong (.inl rfl) hlong) h
  · next hlen =>
    cases (exec_measure_of_fits hr (Nat.not_lt.mp hlen)).symm.trans h
    exact ended_endedWith .measure .none s

/-- ENCODE is refused with BadLength, or stops with BufferExhausted at a code that does not fit OUT (rules R164, R167). -/
theorem exec_encode_endedWith (hr : Ready .command s) (hidle : s.engState = .idle) (h : exec .encode s = .next t) :
    EndedWith
      (if s.params.inCap < s.inLen then .badLength
        else if s.params.outCap < bitsOfFirst s s.inLen then .bufferExhausted
        else .none) t := by
  split
  · next hlong => exact exec_refused_endedWith hr.1 hidle (issueError_of_tooLong (.inr rfl) hlong) h
  · next hlen =>
    split
    · next hfull =>
      obtain ⟨_, _, _, _, _, _, hexec⟩ := exec_encode_of_full hr (Nat.not_lt.mp hlen) hfull
      cases hexec.symm.trans h
      exact ended_endedWith .encode .bufferExhausted s
    · next hfit =>
      obtain ⟨_, _, hexec⟩ := exec_encode_of_room hr (Nat.not_lt.mp hlen) (Nat.not_lt.mp hfit)
      cases hexec.symm.trans h
      exact ended_endedWith .encode .none s

/-- Settles O46, command by command. -/
theorem errorsAreReported : Obligations.ErrorsAreReported := by
  unfold Obligations.ErrorsAreReported
  intro i s t hr hidle h
  cases i with
  | clear => exact exec_clear_endedWith hr h
  | build => exact exec_build_endedWith hr h
  | derive => exact exec_derive_endedWith hr hidle h
  | measure => exact exec_measure_endedWith hr hidle h
  | encode => exact exec_encode_endedWith hr hidle h

end Sys2Proof.Machine
end

section
/-! The reset event (rules R205, R206): a step that takes it looks neither at BUSY nor at the engine. -/

namespace Sys2Proof.Machine

/-- With the reset event next in the script, a step is that event, also while a command runs (rule R206). -/
theorem step_reset {s : State} {rest : List HostOp} (hs : s.script = .reset :: rest) :
    step s = .next (resetEvent { s with script := rest }) := by
  simp only [step, turn, hs, hostTurn]

/-- Settles O3: the step is the reset event, which takes over only what is not the block's and the two counters. -/
theorem resetEventAtAnyTime : Obligations.ResetEventAtAnyTime := by
  unfold Obligations.ResetEventAtAnyTime
  intro s rest
  rw [step_reset (s := { s with script := .reset :: rest }) rfl, resetEvent]

end Sys2Proof.Machine
end
